-- ==== Sys2Proof/Word.lean ====
section
/-! DEFINITION. The machine's words and the fixed vocabularies the other files share: control states, error kinds and
causes, the built Huffman table, and the moves the host and the platform can make. -/

namespace Sys2Proof

/-- A byte of the input, of the output or of a block (20_memory.md R64: an unsigned `u8`). -/
abbrev Byte := BitVec 8

/-- A 32-bit register or checksum (10_state.md R22). -/
abbrev U32 := BitVec 32

/-- The engine's control state, the program-counter analogue beside `pos` (10_state.md R40). -/
inductive Phase where
  | idle | header | magic | scrc | bcrc | rand | ptr | map1 | map2 | ngrp | nsel | selector
  | lenStart | lenDelta | build | symbol | ibwt | rle | check
  deriving DecidableEq, Repr

/-- The six error kinds (60_exceptions.md R250). -/
inductive ErrKind where
  | formatError | truncatedInput | decodeError | outputOverflow | integrityError | unsupportedFeature
  deriving DecidableEq, Repr

/-- The error causes, in the order of 60_exceptions.md R251. -/
inductive Cause where
  | hdrShort | hdrMagic | hdrDigit | badMagic | noSymbols | badNgroups | badNselectors | tooManySelectors
  | selectorRun | badCodeLen | trunc | noCodeMatch | selectorsExhausted | bwtPtrRange | bwtIndexRange
  | blockFull | outCap | blockCrc | streamCrc | randomised
  deriving DecidableEq, Repr

/-- One built canonical table, `tbl[g] = (minlen, maxlen, present, perm, code, L)` of 43_selectors_and_tables.md R169.
`code` and `lens` are indexed by symbol; a code value is a `Nat` because an over-subscribed length set carries it past
`2 ^ len` (10_state.md R37). -/
structure CodeTable where
  minlen  : Nat
  maxlen  : Nat
  present : List Nat
  perm    : List Nat
  code    : List Nat
  lens    : List Nat
  deriving DecidableEq, Repr, Inhabited

/-- The two byte memories, `IN_MEM` and `OUT_MEM` (20_memory.md R60). -/
inductive Space where
  | input | output
  deriving DecidableEq, Repr

/-- A move of the host (48_host_interface.md R230, R231, R237). A register access names a host address; the register
window lies at `REG_BASE` (20_memory.md R60). -/
inductive HostMove where
  | regRead  (addr : Nat)
  | regWrite (addr : Nat) (v : U32)
  | inWrite  (a : Nat) (b : Byte)
  | outWrite (a : Nat) (b : Byte)
  | outRead  (a : Nat)
  deriving DecidableEq, Repr

/-- Whose turn a transition is (48_host_interface.md R238; reset: 70_reset_and_hazards.md R281).
DESIGN CHOICE (log 4): a list of turns in State says which agent moves next. Safe: every interleaving is some list. -/
inductive Turn where
  | engine
  | host (m : HostMove)
  | reset
  deriving DecidableEq, Repr

end Sys2Proof
end

