-- ==== Sys2Proof/Config.lean ====
section
/-! DEFINITION. What an implementation fixes (00_scope.md R6, R7), and the free values the spec leaves open. -/

namespace Sys2Proof

/-- `P_DELTA_SENSE`: which direction bit of a length delta means "increment" (30_encoding.md R96, conflict C4). -/
inductive DeltaSense where
  | ref | doc
  deriving DecidableEq, Repr

/-- `P_LEN_CHECK`: when the code-length range is checked (43_selectors_and_tables.md R165, decision D16). -/
inductive LenCheck where
  | recorded | everyStep
  deriving DecidableEq, Repr

/-- The parameters of 00_scope.md R7, which a model takes as arguments: State carries them in `cfg`, so a statement
about every state is one about every parameter value (log 1). -/
structure Params where
  /-- `IN_MEM_BYTES` -/
  inMemBytes  : Nat
  /-- `OUT_MEM_BYTES`, at most 2^32 − 1 by its width -/
  outMemBytes : U32
  /-- `REG_BASE` -/
  regBase     : Nat
  deltaSense  : DeltaSense
  lenCheck    : LenCheck
  deriving DecidableEq, Repr

/-- The legal values of 00_scope.md R7. -/
abbrev Params.legal (c : Params) : Prop :=
  14 ≤ c.inMemBytes ∧ c.inMemBytes ≤ 2 ^ 29 - 1 ∧ c.regBase % 256 = 0

/-- The parameters State.reset carries: the spec's defaults REF and RECORDED; the three OPEN ones are a
DESIGN CHOICE (log 1; unsafe for claims about State.reset alone): the largest memories, REG_BASE 0. -/
def Params.default : Params where
  inMemBytes  := 2 ^ 29 - 1
  outMemBytes := 0xFFFFFFFF
  regBase     := 0
  deltaSense  := .ref
  lenCheck    := .recorded

/-- `MIN_INPUT_BYTES` (00_scope.md R6). -/
abbrev minInputBytes : Nat := 14
/-- `HDR_MAGIC`, ASCII "BZh" (00_scope.md R6, 30_encoding.md R94). -/
abbrev hdrMagic : Nat := 0x425A68
/-- `BLOCK_MAGIC` (00_scope.md R6, 30_encoding.md R94). -/
abbrev blockMagic : Nat := 0x314159265359
/-- `EOS_MAGIC` (00_scope.md R6, 30_encoding.md R94). -/
abbrev eosMagic : Nat := 0x177245385090
/-- `BLOCK_UNIT` (00_scope.md R6). -/
abbrev blockUnit : Nat := 100000
/-- `MIN_GROUPS` and `MAX_GROUPS` (00_scope.md R6). -/
abbrev minGroups : Nat := 2
abbrev maxGroups : Nat := 6
/-- `MAX_SELECTORS` (00_scope.md R6, decision D18). -/
abbrev maxSelectors : Nat := 18002
/-- `G_SIZE`, symbols per selector (00_scope.md R6). -/
abbrev gSize : Nat := 50
/-- `MIN_CODE_LEN` and `MAX_CODE_LEN` (00_scope.md R6). -/
abbrev minCodeLen : Nat := 1
abbrev maxCodeLen : Nat := 20
/-- `CRC_POLY` (00_scope.md R6). -/
abbrev crcPoly : U32 := 0x04C11DB7

/-! The free draws (00_scope.md R14): no bodies, so nothing can be proved of their values (logs 3, 7; safe). Each is a
function of its place, because a byte read twice with nothing between is the same byte (20_memory.md R68). -/

/-- What each byte of the two memories holds at power-on (70_reset_and_hazards.md R282). -/
opaque Config.powerOnByte : Space → Nat → Byte

/-- What a byte of OUT_MEM between OUT_LEN and OUT_CAP holds during a run (20_memory.md R66): the run's number, the
engine's position (`pos` and `phase`, which every engine step changes) and the address. -/
opaque Config.runByte : Nat → U32 → Phase → Nat → Byte

/-- What a byte of OUT_MEM that a failed or aborted run left UNSPECIFIED holds (20_memory.md R66,
70_reset_and_hazards.md R281): the run's number and the address. -/
opaque Config.leftByte : Nat → Nat → Byte

end Sys2Proof
end

