-- ==== Sys2Proof/Syntax.lean ====
section
/-! DEFINITION. The instruction set: the tokens of the input stream, the internal operations and the host commands of
30_encoding.md R97 and spec/opcode_table.json, one constructor a mnemonic. -/

namespace Sys2Proof

/-- One token, internal operation or host command (30_encoding.md R97). A field token carries its field's value
(R93), SEL its count of one-bits `k` (one constructor for the table's six rows, log 17), MTF its symbol index (R95), and
a host command the 32-bit word the host writes. The other symbol tokens carry nothing: their bits are the canonical code
of their symbol in the active table. -/
inductive Instr where
  -- stream tokens (41_stream_control.md)
  | hdr (d : BitVec 8)
  | block
  | eos
  | scrc (v : BitVec 32)
  -- block header tokens (42_block_header.md)
  | bcrc (v : BitVec 32)
  | rand (r : BitVec 1)
  | ptr (p : BitVec 24)
  | map1 (m : BitVec 16)
  | map2 (m : BitVec 16)
  | ngrp (g : BitVec 3)
  | nsel (n : BitVec 15)
  -- table tokens (43_selectors_and_tables.md)
  | sel (k : Nat)
  | len5 (l : BitVec 5)
  | lkeep
  | linc
  | ldec
  -- symbol tokens (44_symbol_decode.md)
  | runa
  | runb
  | mtf (s : Nat)
  | eob
  -- internal operations (43, 45, 46, 47)
  | build
  | ibwt
  | rle
  | check
  -- host commands (48_host_interface.md)
  | start (v : BitVec 32)
  | irqEnSet (v : BitVec 32)
  | doneClr (v : BitVec 32)
  | inLenSet (v : BitVec 32)
  | outCapSet (v : BitVec 32)
  deriving DecidableEq, Repr

end Sys2Proof
end

