-- ==== Sys2Proof/WellFormed.lean ====
section
/-! DEFINITION. The operand values an encoding admits (30_encoding.md R90, R93, R95). -/

namespace Sys2Proof

/-- Every operand is one its encoding can carry: SEL has `k = 0..5` one-bits (R90), an MTF symbol is at least 2 and at
most `alpha − 2 ≤ 256` (R95, 00_scope.md R8), and a register write is named by the bits its row fixes: a CTRL write is
START when bit 0 is set and IRQ_EN_SET when it is clear (log 15), DONE_CLR has bit 1 set. The other fields' widths are
their types. A value the spec calls illegal in a legal field (digit, group count, ...) is well formed here: its token
exists and its meaning fails the run (R98, log 18). -/
def Instr.wellFormed : Instr → Bool
  | .sel k      => decide (k ≤ 5)
  | .mtf s      => decide (2 ≤ s ∧ s ≤ 256)
  | .start v    => v.getLsbD 0
  | .irqEnSet v => !v.getLsbD 0
  | .doneClr v  => v.getLsbD 1
  | .hdr _ | .block | .eos | .scrc _ | .bcrc _ | .rand _ | .ptr _ | .map1 _ | .map2 _ | .ngrp _ | .nsel _
  | .len5 _ | .lkeep | .linc | .ldec | .runa | .runb | .eob | .build | .ibwt | .rle | .check
  | .inLenSet _ | .outCapSet _ => true

end Sys2Proof
end

