-- ==== Sys2Proof/Decode.lean ====
section
/-! DEFINITION. The decoder: from the bits at the cursor, in the context the phase gives, to a token, a truncation or an
illegal pattern under its cause's name; the host's register writes; and the encoder after it. 30_encoding.md R90..R98. -/

namespace Sys2Proof

/-- What the decoder needs beside the bits (30_encoding.md R92): the phase, the group count that bounds a unary selector,
the sense of a delta's direction bit, and, for a symbol, the active table and the alphabet size. -/
structure Context where
  phase   : Phase
  nGroups : Nat
  sense   : DeltaSense
  table   : CodeTable
  alpha   : Nat
  deriving DecidableEq, Repr

/-- The decoder's answer. `token i n`: the instruction and the bits it consumes. `truncated n`: the input ends inside
the token, and the read that fails starts `n` bits into it (60_exceptions.md R254). `illegal c n`: the pattern raises
cause `c` once `n` of its bits are read (30_encoding.md R98). `noToken`: the phase is IDLE, no engine step. -/
inductive Decoded where
  | token (i : Instr) (n : Nat)
  | truncated (n : Nat)
  | illegal (c : Cause) (n : Nat)
  | noToken
  deriving DecidableEq, Repr

/-- The number a field's bits spell, first bit the most significant (00_scope.md R11). -/
def natOfBits (bits : List Bool) : Nat := bits.foldl (fun v b => 2 * v + b.toNat) 0

/-- The `n` bits of `v`, most significant first. -/
def bitsOfNat : Nat → Nat → List Bool
  | 0, _     => []
  | n + 1, v => v.testBit n :: bitsOfNat n v

/-- A fixed field of `n` bits: its value, or a truncation at its first bit (41_stream_control.md R120, D21). -/
def decodeField (n : Nat) (bits : List Bool) (mk : Nat → Decoded) : Decoded :=
  if bits.length < n then .truncated 0 else mk (natOfBits (bits.take n))

/-- HDR, `FIX32H` (30_encoding.md R94, 41_stream_control.md R123). The digit's range is the meaning's check. -/
def decodeHdr (h : Nat) : Decoded :=
  if h >>> 8 = hdrMagic then .token (.hdr (BitVec.ofNat 8 h)) 32 else .illegal .hdrMagic 32

/-- The 48-bit magic (30_encoding.md R94, 41_stream_control.md R124). -/
def decodeMagic (m : Nat) : Decoded :=
  if m = blockMagic then .token .block 48
  else if m = eosMagic then .token .eos 48
  else .illegal .badMagic 48

/-- A unary selector after `k` one-bits (43_selectors_and_tables.md R160): the one-bit that reaches the group count is
illegal at once, before any further bit. -/
def decodeUnary (nGroups : Nat) : Nat → List Bool → Decoded
  | k, []            => .truncated k
  | k, false :: _    => .token (.sel k) (k + 1)
  | k, true :: rest  =>
    if nGroups ≤ k + 1 then .illegal .selectorRun (k + 1) else decodeUnary nGroups (k + 1) rest

/-- The direction bit that increments (30_encoding.md R96, 43_selectors_and_tables.md R165). -/
def incBit : DeltaSense → Bool
  | .ref => false
  | .doc => true

/-- One delta token (30_encoding.md R96, 43_selectors_and_tables.md R165): each bit is its own read. -/
def decodeDelta (sense : DeltaSense) : List Bool → Decoded
  | []             => .truncated 0
  | false :: _     => .token .lkeep 1
  | [true]         => .truncated 1
  | true :: x :: _ => if x = incBit sense then .token .linc 2 else .token .ldec 2

/-- The class of symbol index `s` in an alphabet of size `alpha`, tested in the order of 44_symbol_decode.md R180
(30_encoding.md R95). -/
def symbolToken (alpha s : Nat) : Instr :=
  if s = 0 then .runa
  else if s = 1 then .runb
  else if s = alpha - 1 then .eob
  else .mtf s

/-- The first symbol of `perm` with length `len` and code `v` (44_symbol_decode.md R181). -/
def matchCode (t : CodeTable) (len v : Nat) : Option Nat :=
  t.perm.find? (fun s => t.lens.getD s 0 == len && t.code.getD s 0 == v)

/-- The canonical-code match over the candidate lengths still to try (44_symbol_decode.md R181). -/
def decodeHuff (alpha : Nat) (t : CodeTable) (bits : List Bool) : List Nat → Decoded
  | []        => .illegal .noCodeMatch 0
  | len :: ls =>
    if bits.length < len then .truncated 0
    else match matchCode t len (natOfBits (bits.take len)) with
      | some s => .token (symbolToken alpha s) len
      | none   => decodeHuff alpha t bits ls

/-- The decoder: total on any bits in any context. The phase alone selects the format (30_encoding.md R92); an internal
phase reads no bits. -/
def decode (c : Context) (bits : List Bool) : Decoded :=
  match c.phase with
  | .idle     => .noToken
  | .header   => decodeField 32 bits decodeHdr
  | .magic    => decodeField 48 bits decodeMagic
  | .scrc     => decodeField 32 bits fun v => .token (.scrc (BitVec.ofNat 32 v)) 32
  | .bcrc     => decodeField 32 bits fun v => .token (.bcrc (BitVec.ofNat 32 v)) 32
  | .rand     => decodeField 1 bits fun v => .token (.rand (BitVec.ofNat 1 v)) 1
  | .ptr      => decodeField 24 bits fun v => .token (.ptr (BitVec.ofNat 24 v)) 24
  | .map1     => decodeField 16 bits fun v => .token (.map1 (BitVec.ofNat 16 v)) 16
  | .map2     => decodeField 16 bits fun v => .token (.map2 (BitVec.ofNat 16 v)) 16
  | .ngrp     => decodeField 3 bits fun v => .token (.ngrp (BitVec.ofNat 3 v)) 3
  | .nsel     => decodeField 15 bits fun v => .token (.nsel (BitVec.ofNat 15 v)) 15
  | .selector => decodeUnary c.nGroups 0 bits
  | .lenStart => decodeField 5 bits fun v => .token (.len5 (BitVec.ofNat 5 v)) 5
  | .lenDelta => decodeDelta c.sense bits
  | .build    => .token .build 0
  | .symbol   => decodeHuff c.alpha c.table bits c.table.present
  | .ibwt     => .token .ibwt 0
  | .rle      => .token .rle 0
  | .check    => .token .check 0

/-- The command a host register write at offset `off` stands for (48_host_interface.md R231): CTRL with bit 0 set is
START and otherwise IRQ_EN_SET (log 15), STATUS with bit 1 set is DONE_CLR. `none`: the write is ignored (the rest of
STATUS, read-only registers, reserved offsets). -/
def decodeHost (off : Nat) (v : BitVec 32) : Option Instr :=
  if off = 0x00 then some (if v.getLsbD 0 then .start v else .irqEnSet v)
  else if off = 0x04 then (if v.getLsbD 1 then some (.doneClr v) else none)
  else if off = 0x08 then some (.inLenSet v)
  else if off = 0x0C then some (.outCapSet v)
  else none

/-! The encoder, from the same tables (30_encoding.md R90, R94, R96). -/

/-- The phase that reads a token (spec/opcode_table.json "phase"); a host command is no engine step, so IDLE stands. -/
def Instr.phase : Instr → Phase
  | .hdr _ => .header
  | .block | .eos => .magic
  | .scrc _ => .scrc
  | .bcrc _ => .bcrc
  | .rand _ => .rand
  | .ptr _ => .ptr
  | .map1 _ => .map1
  | .map2 _ => .map2
  | .ngrp _ => .ngrp
  | .nsel _ => .nsel
  | .sel _ => .selector
  | .len5 _ => .lenStart
  | .lkeep | .linc | .ldec => .lenDelta
  | .runa | .runb | .mtf _ | .eob => .symbol
  | .build => .build
  | .ibwt => .ibwt
  | .rle => .rle
  | .check => .check
  | .start _ | .irqEnSet _ | .doneClr _ | .inLenSet _ | .outCapSet _ => .idle

/-- The symbol index of a symbol token (30_encoding.md R95). -/
def Instr.symbol? (alpha : Nat) : Instr → Option Nat
  | .runa => some 0
  | .runb => some 1
  | .mtf s => some s
  | .eob => some (alpha - 1)
  | _ => none

/-- The code of symbol `s`, as bits (43_selectors_and_tables.md R169). -/
def codeBits (t : CodeTable) (s : Nat) : List Bool := bitsOfNat (t.lens.getD s 0) (t.code.getD s 0)

/-- The bits of a token in the stream, or of the 32-bit word of a host command, first bit the most significant. -/
def encode (c : Context) : Instr → List Bool
  | .hdr d => bitsOfNat 24 hdrMagic ++ bitsOfNat 8 d.toNat
  | .block => bitsOfNat 48 blockMagic
  | .eos => bitsOfNat 48 eosMagic
  | .scrc v => bitsOfNat 32 v.toNat
  | .bcrc v => bitsOfNat 32 v.toNat
  | .rand r => bitsOfNat 1 r.toNat
  | .ptr p => bitsOfNat 24 p.toNat
  | .map1 m => bitsOfNat 16 m.toNat
  | .map2 m => bitsOfNat 16 m.toNat
  | .ngrp g => bitsOfNat 3 g.toNat
  | .nsel n => bitsOfNat 15 n.toNat
  | .sel k => List.replicate k true ++ [false]
  | .len5 l => bitsOfNat 5 l.toNat
  | .lkeep => [false]
  | .linc => [true, incBit c.sense]
  | .ldec => [true, !incBit c.sense]
  | .runa => codeBits c.table 0
  | .runb => codeBits c.table 1
  | .mtf s => codeBits c.table s
  | .eob => codeBits c.table (c.alpha - 1)
  | .build | .ibwt | .rle | .check => []
  | .start v => bitsOfNat 32 v.toNat
  | .irqEnSet v => bitsOfNat 32 v.toNat
  | .doneClr v => bitsOfNat 32 v.toNat
  | .inLenSet v => bitsOfNat 32 v.toNat
  | .outCapSet v => bitsOfNat 32 v.toNat

/-- The register offset a host command writes (spec/opcode_table.json "offset", 48_host_interface.md R231). -/
def Instr.hostOffset : Instr → Option Nat
  | .start _ | .irqEnSet _ => some 0x00
  | .doneClr _ => some 0x04
  | .inLenSet _ => some 0x08
  | .outCapSet _ => some 0x0C
  | _ => none

/-- The word a host command writes. -/
def Instr.hostWord : Instr → BitVec 32
  | .start v | .irqEnSet v | .doneClr v | .inLenSet v | .outCapSet v => v
  | _ => 0

/-! The table words of the host's question (log 12). -/

/-- The answer's instruction, if it is a token that uses all of the bits. -/
def Decoded.instr? (bits : List Bool) : Decoded → Option Instr
  | .token i n => if n = bits.length then some i else none
  | _ => none

/-- The instruction of one row's word. A word of the table carries no phase, so where several rows share a width the
reading is a DESIGN CHOICE (log 12): 48 bits a magic; 32 bits HDR where the magic stands, else a host register write
(START, DONE_CLR, IRQ_EN_SET by bits 0 and 1, the machine being idle after reset); 24 bits PTR; 16 bits MAP1; one byte a
delta, a unary selector of two or more one-bits, or else LEN5; no bits BUILD. -/
def decodeTableWord (nbits w : Nat) : Option Instr :=
  let c : Context := ⟨.idle, maxGroups, .ref, default, 0⟩
  let read (p : Phase) (n : Nat) : Option Instr :=
    (decode { c with phase := p } (bitsOfNat n w)).instr? (bitsOfNat n w)
  if 2 ^ nbits ≤ w then none
  else if nbits = 48 then read .magic 48
  else if nbits = 32 then
    match read .header 32 with
    | some i => some i
    | none =>
      let v := BitVec.ofNat 32 w
      if v.getLsbD 0 then decodeHost 0x00 v
      else if v.getLsbD 1 then decodeHost 0x04 v
      else decodeHost 0x00 v
  else if nbits = 24 then read .ptr 24
  else if nbits = 16 then read .map1 16
  else if nbits = 8 then
    if w = 0 then read .lenDelta 1
    else if w = 2 ∨ w = 3 then read .lenDelta 2
    else if w = 6 then read .selector 3
    else if w = 14 then read .selector 4
    else if w = 30 then read .selector 5
    else if w = 62 then read .selector 6
    else if w < 32 then read .lenStart 5
    else none
  else if nbits = 0 then read .build 0
  else none

end Sys2Proof
end

