-- ==== Sys2Proof/Machine/State.lean ====
section
/-! DEFINITION. The machine's state as plain data, why a step can stop, and the state after reset. INVENTORY.md lists
each field's rule, width and reset value. -/

namespace Sys2Proof.Machine

/-- A byte memory: the written addresses, strictly rising. An address that is not listed has never been written (log 3). -/
abbrev Memory := List Host.Cell

/-- The addresses `[lo, hi)` of OUT_MEM, left UNSPECIFIED to the host by run number `run` (log 7). -/
structure FreeSpan where
  lo  : Nat
  hi  : Nat
  run : Nat
  deriving DecidableEq, Repr

/-- Everything the spec gives the machine (10_state.md), and four fields of the model's own at the end. -/
structure State where
  /-- the parameters of 00_scope.md R7; no step writes them (log 1) -/
  cfg            : Params
  -- the register file, 10_state.md R22..R32
  irqEn          : Bool
  busy           : Bool
  done           : Bool
  err            : Bool
  errKind        : BitVec 4
  errCause       : BitVec 8
  inLen          : U32
  outCap         : U32
  outLen         : U32
  streamCrc      : U32
  errBitpos      : U32
  blockCount     : U32
  blockCrcCalc   : U32
  blockCrcStored : U32
  blockMax       : U32
  -- per-run working registers, R34 (`committed` is outLen, `acc` is streamCrc)
  phase          : Phase
  pos            : U32
  blkMax         : Nat
  -- per-block working registers, R35
  storedCrc      : U32
  origPtr        : BitVec 24
  map1           : BitVec 16
  mapI           : Nat
  seq            : List Byte
  nInUse         : Nat
  alpha          : Nat
  nGroups        : Nat
  nSel           : Nat
  selI           : Nat
  selMtf         : List Nat
  lenG           : Nat
  lenS           : Nat
  curLen         : Int
  gpos           : Nat
  gno            : Nat
  active         : Nat
  rep            : Nat
  reppow         : Nat
  mtf            : List Byte
  size           : Nat
  bcrc           : U32
  finLen         : Nat
  -- working memories, R36
  selector       : List Nat
  lens           : List (List Nat)
  tbl            : List CodeTable
  tt             : List Byte
  bucketCount    : List Nat
  bucketStart    : List Nat
  bucketIndex    : List Nat
  dst            : List Byte
  -- the byte memories, R38
  inMem          : Memory
  outMem         : Memory
  -- the model's own
  /-- what failed and aborted runs left UNSPECIFIED of OUT_MEM, the latest first (20_memory.md R66, log 7) -/
  outFree        : List FreeSpan
  /-- how many runs START has begun: the number of the latest, which its free draws carry (log 7) -/
  runIndex       : Nat
  /-- the turns still to come (48_host_interface.md R238, log 4) -/
  schedule       : List Turn
  /-- what the host's last read returned (log 6) -/
  busData        : U32
  deriving DecidableEq, Repr

/-- The one fault. No token, internal operation or host command raises it. -/
inductive Fault where
  /-- Raised by a host memory move at an address beyond IN_MEM_BYTES or OUT_MEM_BYTES (48_host_interface.md R237 gives
  the moves only below them). Safe: the model stops (log 9). -/
  | noSuchByte
  deriving DecidableEq, Repr

/-- Moves the machine has no meaning for. -/
inductive Refusal where
  /-- Raised by exec for an instruction with no meaning yet. Safe: the model stops. -/
  | notModelled (mnemonic : String)
  /-- Raised by a host register access outside the window at REG_BASE or not at a multiple of 4 (20_memory.md R67: "A
  model refuses it", 93_implementation_defined.md U7). Safe: the model stops (log 9). -/
  | registerAccess
  /-- Raised by a host write to IN_MEM or OUT_MEM while BUSY = 1 (48_host_interface.md R237,
  93_implementation_defined.md U8 "refuse"). The spec says of this choice that it "errs toward proving": unsafe for
  hosts that break the rule (log 9). -/
  | hostWriteWhileBusy
  deriving DecidableEq, Repr

/-- After power-on reset (70_reset_and_hazards.md R280, R282): every register 0, IDLE. Working state, UNSPECIFIED in
the spec, is zero or empty: DESIGN CHOICE (log 2, unsafe). Nothing of the memories has been written, so every byte is the
free one of power-on (R282, log 3). -/
def State.reset : State where
  cfg := Params.default
  irqEn := false
  busy := false
  done := false
  err := false
  errKind := 0
  errCause := 0
  inLen := 0
  outCap := 0
  outLen := 0
  streamCrc := 0
  errBitpos := 0
  blockCount := 0
  blockCrcCalc := 0
  blockCrcStored := 0
  blockMax := 0
  phase := .idle
  pos := 0
  blkMax := 0
  storedCrc := 0
  origPtr := 0
  map1 := 0
  mapI := 0
  seq := []
  nInUse := 0
  alpha := 0
  nGroups := 0
  nSel := 0
  selI := 0
  selMtf := []
  lenG := 0
  lenS := 0
  curLen := 0
  gpos := 0
  gno := 0
  active := 0
  rep := 0
  reppow := 0
  mtf := []
  size := 0
  bcrc := 0
  finLen := 0
  selector := []
  lens := []
  tbl := []
  tt := []
  bucketCount := []
  bucketStart := []
  bucketIndex := []
  dst := []
  inMem := []
  outMem := []
  outFree := []
  runIndex := 0
  schedule := []
  busData := 0

end Sys2Proof.Machine
end

