-- ==== Sys2Proof/Machine/Flags.lean ====
section
/-! DEFINITION. The status flags and the words the register file shows: kind and cause codes, CTRL and STATUS, the
interrupt line. The engine has no condition codes (10_state.md R33). -/

namespace Sys2Proof.Machine

/-- The kind codes of 60_exceptions.md R250. -/
def kindCode : ErrKind → BitVec 4
  | .formatError        => 1
  | .truncatedInput     => 2
  | .decodeError        => 3
  | .outputOverflow     => 4
  | .integrityError     => 5
  | .unsupportedFeature => 6

/-- The cause codes of 60_exceptions.md R251. -/
def causeCode : Cause → BitVec 8
  | .hdrShort           => 0x01
  | .hdrMagic           => 0x02
  | .hdrDigit           => 0x03
  | .badMagic           => 0x04
  | .noSymbols          => 0x05
  | .badNgroups         => 0x06
  | .badNselectors      => 0x07
  | .tooManySelectors   => 0x08
  | .selectorRun        => 0x09
  | .badCodeLen         => 0x0A
  | .trunc              => 0x10
  | .noCodeMatch        => 0x20
  | .selectorsExhausted => 0x21
  | .bwtPtrRange        => 0x22
  | .bwtIndexRange      => 0x23
  | .blockFull          => 0x30
  | .outCap             => 0x31
  | .blockCrc           => 0x40
  | .streamCrc          => 0x41
  | .randomised         => 0x50

/-- "Each cause belongs to exactly one kind" (60_exceptions.md R251). -/
def causeKind : Cause → ErrKind
  | .hdrShort | .hdrMagic | .hdrDigit | .badMagic | .noSymbols | .badNgroups | .badNselectors | .tooManySelectors
  | .selectorRun | .badCodeLen => .formatError
  | .trunc => .truncatedInput
  | .noCodeMatch | .selectorsExhausted | .bwtPtrRange | .bwtIndexRange => .decodeError
  | .blockFull | .outCap => .outputOverflow
  | .blockCrc | .streamCrc => .integrityError
  | .randomised => .unsupportedFeature

/-- CTRL as read: `IRQ_EN` in bit 1, every other bit 0 (48_host_interface.md R230, 10_state.md R23). -/
def ctrlWord (s : State) : U32 := (BitVec.ofBool s.irqEn).setWidth 32 <<< 1

/-- STATUS as read: the fields of 10_state.md R24 in their places, reserved bits 0. -/
def statusWord (s : State) : U32 :=
  (BitVec.ofBool s.busy).setWidth 32 ||| (BitVec.ofBool s.done).setWidth 32 <<< 1
    ||| (BitVec.ofBool s.err).setWidth 32 <<< 2 ||| s.errKind.setWidth 32 <<< 8 ||| s.errCause.setWidth 32 <<< 16

/-- The completion interrupt line (60_exceptions.md R260). -/
def irq (s : State) : Bool := s.done && s.irqEn

end Sys2Proof.Machine
end

