-- ==== Sys2Proof/Machine/Ops.lean ====
section
/-! DEFINITION. The named operations every meaning is built from: byte memories, working memories, the bit reader,
move-to-front, UNSPECIFIED spans of OUT_MEM, and the two ends of a run, Fail and Finish. -/

namespace Sys2Proof.Machine

/-! ### Byte memories (20_memory.md R60, R62, R63) -/

/-- What an address that nothing has written reads as: its power-on contents, "arbitrary byte arrays"
(70_reset_and_hazards.md R282, log 3). -/
def unlistedByte (sp : Space) (a : Nat) : Byte := Config.powerOnByte sp a

/-- Every listed address is at least `lo`, and addresses rise strictly. -/
def Memory.wfFrom (lo : Nat) : Memory → Bool
  | []          => true
  | (a, _) :: m => decide (lo ≤ a) && Memory.wfFrom (a + 1) m

/-- The canonical form of a memory: the same bytes written are the same data. -/
def Memory.wf (m : Memory) : Bool := Memory.wfFrom 0 m

/-- The byte at `a` of memory `m` in space `sp`; on IN_MEM, `MemRead(a, 1)` (20_memory.md R62). -/
def Memory.read (sp : Space) : Memory → Nat → Byte
  | [], a          => unlistedByte sp a
  | (b, v) :: m, a => if b = a then v else Memory.read sp m a

/-- `MemWrite(a, 1, v)` (20_memory.md R63), keeping the canonical form. -/
def Memory.write : Memory → Nat → Byte → Memory
  | [], a, v => [(a, v)]
  | (b, w) :: m, a, v =>
    if a < b then (a, v) :: (b, w) :: m
    else if a = b then (a, v) :: m
    else (b, w) :: Memory.write m a v

/-- `n` copies of `v` written from address `a` upward (46_final_rle.md R210). -/
def Memory.writeRun : Memory → Nat → Nat → Byte → Memory
  | m, _, 0, _     => m
  | m, a, n + 1, v => Memory.writeRun (Memory.write m a v) (a + 1) n v

/-- The listed bytes written from address `a` upward. -/
def Memory.writeBytes : Memory → Nat → List Byte → Memory
  | m, _, []      => m
  | m, a, b :: bs => Memory.writeBytes (Memory.write m a b) (a + 1) bs

/-! ### Working memories (10_state.md R36), lists that grow as they are written (log 11) -/

/-- The first `n` entries, `d` where none has been written. -/
def firstN {α : Type} (l : List α) (n : Nat) (d : α) : List α := l.take n ++ List.replicate (n - l.length) d

/-- Entries `i, i+1, …` overwritten by `vs`; every other entry kept. -/
def putAll {α : Type} (l : List α) (i : Nat) (vs : List α) (d : α) : List α :=
  firstN l i d ++ vs ++ l.drop (i + vs.length)

/-! ### The bit reader (41_stream_control.md R120..R122) -/

/-- Stream bit `p`: bit `7 − (p mod 8)` of input byte `p div 8` (00_scope.md R11). -/
def streamBit (s : State) (p : Nat) : Bool := (Memory.read .input s.inMem (p / 8)).getLsbD (7 - p % 8)

/-- The `n` stream bits from the cursor on. -/
def bitsAt (s : State) (n : Nat) : List Bool := (List.range n).map fun k => streamBit s (s.pos.toNat + k)

/-- The bits left from the cursor to the end of the input, `8 × IN_LEN − pos`. -/
def bitsLeft (s : State) : Nat := 8 * s.inLen.toNat - s.pos.toNat

/-- The cursor moved past `n` bits. -/
def advance (n : Nat) (s : State) : State := { s with pos := s.pos + BitVec.ofNat 32 n }

/-- `PeekBits(n)` (41_stream_control.md R121); `none` is its TruncatedInput, raised with `pos` unchanged. -/
def peekBits (n : Nat) (s : State) : Option Nat :=
  if s.pos.toNat + n > 8 * s.inLen.toNat then none else some (natOfBits (bitsAt s n))

/-- `ReadBits(n)` (41_stream_control.md R120): the value and the state with the cursor past it; `none` is its
TruncatedInput, raised with `pos` unchanged. -/
def readBits (n : Nat) (s : State) : Option (Nat × State) := (peekBits n s).map fun v => (v, advance n s)

/-! ### Move to front -/

/-- `mtf_take(L, i)` (43_selectors_and_tables.md R161): the entry and the list with it at the front. Outside the list,
which no run reaches, the default and the list unchanged (log 11). -/
def mtfTake {α : Type} (d : α) (l : List α) (i : Nat) : α × List α :=
  match l[i]? with
  | some v => (v, v :: (l.take i ++ l.drop (i + 1)))
  | none   => (d, l)

/-! ### UNSPECIFIED spans of OUT_MEM (20_memory.md R66, log 7) -/

/-- The latest run that left the byte at `a` UNSPECIFIED, if one has since it was last specified. -/
def leftBy (a : Nat) : List FreeSpan → Option Nat
  | []      => none
  | p :: ps => if p.lo ≤ a ∧ a < p.hi then some p.run else leftBy a ps

/-- The spans after run `run` left `[lo, hi)`. -/
def spanAdd (lo hi run : Nat) (spans : List FreeSpan) : List FreeSpan :=
  if lo < hi then ⟨lo, hi, run⟩ :: spans else spans

/-- The spans with `[lo, hi)` taken out. -/
def spanErase (lo hi : Nat) : List FreeSpan → List FreeSpan
  | []      => []
  | p :: ps => spanAdd p.lo (min p.hi lo) p.run (spanAdd (max p.lo hi) p.hi p.run (spanErase lo hi ps))

/-! ### The ends of a run (60_exceptions.md) -/

/-- The position `Fail` records (60_exceptions.md R254): the cursor at the `raise`, and 0 for HDR_SHORT. -/
def failPosition (c : Cause) (s : State) : U32 :=
  match c with
  | .hdrShort => 0
  | _ => s.pos

/-- `Fail(K, C)` (60_exceptions.md R252), the hardware's only trap entry, on the state the raising step has made so
far: kind, cause and position recorded, ERR and DONE set, BUSY clear, phase IDLE. OUT_MEM from OUT_LEN to OUT_CAP
becomes UNSPECIFIED to the host (20_memory.md R66). The working state, UNSPECIFIED after a failure, stays as the step
left it: DESIGN CHOICE (log 8). -/
def fail (c : Cause) (s : State) : State :=
  { s with
    errKind := kindCode (causeKind c)
    errCause := causeCode c
    errBitpos := failPosition c s
    err := true
    done := true
    busy := false
    phase := .idle
    outFree := spanAdd s.outLen.toNat s.outCap.toNat s.runIndex s.outFree }

/-- `Finish()` (60_exceptions.md R253). The working state keeps the last block's values: DESIGN CHOICE (log 8). -/
def finish (s : State) : State :=
  { s with err := false, errKind := 0, errCause := 0, done := true, busy := false, phase := .idle }

end Sys2Proof.Machine
end

