-- ==== Sys2Proof/Machine/Operands.lean ====
section
/-! DEFINITION. The derived operands of 30_encoding.md R93: the block size of a digit, the ranges and byte values of the
two bitmaps. -/

namespace Sys2Proof.Machine

/-- The digit byte is '1'..'9' (30_encoding.md R94). -/
def digitLegal (d : BitVec 8) : Bool := decide (0x31 ≤ d.toNat ∧ d.toNat ≤ 0x39)

/-- `blk_max = 100,000 × (byte − 0x30)` (30_encoding.md R93). -/
def blockSizeOf (d : BitVec 8) : Nat := blockUnit * (d.toNat - 0x30)

/-- MAP1 bit `15 − i`: range `i` is in use (30_encoding.md R93, decision D20). -/
def rangeUsed (map1 : BitVec 16) (i : Nat) : Bool := map1.getLsbD (15 - i)

/-- The loop of `NextRange()` (42_block_header.md R143): the first used range at or after `i`, or 16. The fuel, 16, is
one for each range. -/
def nextUsedRange (map1 : BitVec 16) : Nat → Nat → Nat
  | 0, i        => i
  | fuel + 1, i => if i < 16 ∧ rangeUsed map1 i = false then nextUsedRange map1 fuel (i + 1) else i

/-- The byte values a MAP2 token marks in range `i`: `16·i + j` for each set bit `15 − j`, ascending
(42_block_header.md R144). -/
def rangeBytes (m : BitVec 16) (i : Nat) : List Byte :=
  ((List.range 16).filter fun j => m.getLsbD (15 - j)).map fun j => BitVec.ofNat 8 (16 * i + j)

end Sys2Proof.Machine
end

