-- ==== Sys2Proof/Machine/Block.lean ====
section
/-! DEFINITION. Block header tokens BCRC, RAND, PTR, MAP1, MAP2, NGRP, NSEL (42_block_header.md R140..R147). -/

namespace Sys2Proof.Machine

/-- BCRC (R140). -/
def execBcrc (v : BitVec 32) (s : State) : Host.Outcome State Fault Refusal :=
  .next { advance 32 s with storedCrc := v, blockCrcStored := v, phase := .rand }

/-- RAND (R141): a randomised block is unsupported. -/
def execRand (r : BitVec 1) (s : State) : Host.Outcome State Fault Refusal :=
  let s := advance 1 s
  if r = 1 then .next (fail .randomised s) else .next { s with phase := .ptr }

/-- PTR (R142): no range check here. -/
def execPtr (p : BitVec 24) (s : State) : Host.Outcome State Fault Refusal :=
  .next { advance 24 s with origPtr := p, phase := .map1 }

/-- `BitmapDone()` (R145). -/
def bitmapDone (s : State) : State :=
  let s := { s with nInUse := s.seq.length }
  if s.nInUse = 0 then fail .noSymbols s
  else { s with alpha := s.nInUse + 2, mtf := s.seq, phase := .ngrp }

/-- `NextRange()` (R143). -/
def nextRange (s : State) : State :=
  let s := { s with mapI := nextUsedRange s.map1 16 s.mapI }
  if s.mapI = 16 then bitmapDone s else { s with phase := .map2 }

/-- MAP1 (R143). -/
def execMap1 (m : BitVec 16) (s : State) : Host.Outcome State Fault Refusal :=
  .next (nextRange { advance 16 s with map1 := m, mapI := 0 })

/-- MAP2 (R144). -/
def execMap2 (m : BitVec 16) (s : State) : Host.Outcome State Fault Refusal :=
  .next (nextRange { advance 16 s with seq := s.seq ++ rangeBytes m s.mapI, mapI := s.mapI + 1 })

/-- NGRP (R146). -/
def execNgrp (g : BitVec 3) (s : State) : Host.Outcome State Fault Refusal :=
  let s := { advance 3 s with nGroups := g.toNat }
  if s.nGroups < minGroups ∨ s.nGroups > maxGroups then .next (fail .badNgroups s)
  else .next { s with phase := .nsel }

/-- NSEL (R147). -/
def execNsel (n : BitVec 15) (s : State) : Host.Outcome State Fault Refusal :=
  let s := { advance 15 s with nSel := n.toNat }
  if s.nSel = 0 then .next (fail .badNselectors s)
  else if s.nSel > maxSelectors then .next (fail .tooManySelectors s)
  else .next { s with selMtf := List.range s.nGroups, selI := 0, phase := .selector }

end Sys2Proof.Machine
end

