-- ==== Sys2Proof/Machine/HostPort.lean ====
section
/-! DEFINITION. The host's side: register reads, the host commands START, IRQ_EN_SET, DONE_CLR, IN_LEN_SET, OUT_CAP_SET,
memory moves (48_host_interface.md R230..R237), and the reset input (70_reset_and_hazards.md R281). -/

namespace Sys2Proof.Machine

/-- `START()` (48 R233). The working state of blocks, UNSPECIFIED from here to the first BLOCK (10_state.md R35), keeps what
the run before left there: DESIGN CHOICE (log 8). The run's free draws get a number of their own (log 7). -/
def startRun (s : State) : State :=
  { s with
    busy := true
    done := false
    err := false
    errKind := 0
    errCause := 0
    errBitpos := 0
    outLen := 0
    streamCrc := 0
    blockCount := 0
    blockCrcCalc := 0
    blockCrcStored := 0
    blockMax := 0
    blkMax := 0
    pos := 0
    phase := .header
    runIndex := s.runIndex + 1 }

/-- A CTRL write (48 R232): IRQ_EN always takes bit 1; bit 0 starts a run when idle and is ignored when busy. -/
def ctrlWrite (v : U32) (s : State) : State :=
  let s := { s with irqEn := v.getLsbD 1 }
  if v.getLsbD 0 = true ∧ s.busy = false then startRun s else s

/-- START (48 R232, R233). -/
def execStart (v : BitVec 32) (s : State) : Host.Outcome State Fault Refusal := .next (ctrlWrite v s)

/-- IRQ_EN_SET (48 R232). -/
def execIrqEnSet (v : BitVec 32) (s : State) : Host.Outcome State Fault Refusal := .next (ctrlWrite v s)

/-- DONE_CLR, the write-one-to-clear of STATUS.DONE (48 R234). -/
def execDoneClr (v : BitVec 32) (s : State) : Host.Outcome State Fault Refusal :=
  .next (if v.getLsbD 1 then { s with done := false } else s)

/-- IN_LEN_SET (48 R235): clamped to IN_MEM_BYTES, ignored while busy. -/
def execInLenSet (v : BitVec 32) (s : State) : Host.Outcome State Fault Refusal :=
  .next (if s.busy then s else { s with inLen := BitVec.ofNat 32 (min v.toNat s.cfg.inMemBytes) })

/-- OUT_CAP_SET (48 R236): clamped to OUT_MEM_BYTES, ignored while busy. -/
def execOutCapSet (v : BitVec 32) (s : State) : Host.Outcome State Fault Refusal :=
  .next (if s.busy then s else { s with outCap := BitVec.ofNat 32 (min v.toNat s.cfg.outMemBytes.toNat) })

/-- `RegRead(off)` (48 R230, 10_state.md R22): the eleven registers; every other offset reads 0. -/
def regRead (off : Nat) (s : State) : U32 :=
  if off = 0x00 then ctrlWord s
  else if off = 0x04 then statusWord s
  else if off = 0x08 then s.inLen
  else if off = 0x0C then s.outCap
  else if off = 0x10 then s.outLen
  else if off = 0x14 then s.streamCrc
  else if off = 0x18 then s.errBitpos
  else if off = 0x1C then s.blockCount
  else if off = 0x20 then s.blockCrcCalc
  else if off = 0x24 then s.blockCrcStored
  else if off = 0x28 then s.blockMax
  else 0

/-- The offset of a host address in the register window (20_memory.md R60, R67): 256 bytes at REG_BASE, multiples of 4
only; `none` is an access the spec leaves UNSPECIFIED or not the engine's (log 9). -/
def regOffset (cfg : Params) (addr : Nat) : Option Nat :=
  if cfg.regBase ≤ addr ∧ addr < cfg.regBase + 256 ∧ (addr - cfg.regBase) % 4 = 0 then some (addr - cfg.regBase)
  else none

/-- OUT_MEM as the host sees it (20_memory.md R66): a free draw between OUT_LEN and OUT_CAP during a run and where a failed
or aborted run left the byte UNSPECIFIED, and the byte itself elsewhere (log 7). A function of the state: the memory is
plain, and a read has no side effect (20_memory.md R68). -/
def outByte (a : Nat) (s : State) : Byte :=
  if s.busy = true ∧ s.outLen.toNat ≤ a ∧ a < s.outCap.toNat then Config.runByte s.runIndex s.pos s.phase a
  else match leftBy a s.outFree with
    | some run => Config.leftByte run a
    | none     => Memory.read .output s.outMem a

/-- `HostOutRead(a)` (48 R237). -/
def hostOutRead (a : Nat) (s : State) : State := { s with busData := (outByte a s).setWidth 32 }

/-- `HostInWrite(a, b)` (48 R237), only while idle. -/
def hostInWrite (a : Nat) (b : Byte) (s : State) : Host.Outcome State Fault Refusal :=
  if s.cfg.inMemBytes ≤ a then .fault .noSuchByte
  else if s.busy then .refused .hostWriteWhileBusy
  else .next { s with inMem := Memory.write s.inMem a b }

/-- `HostOutWrite(a, b)` (48 R237), only while idle. The byte is then specified. -/
def hostOutWrite (a : Nat) (b : Byte) (s : State) : Host.Outcome State Fault Refusal :=
  if s.cfg.outMemBytes.toNat ≤ a then .fault .noSuchByte
  else if s.busy then .refused .hostWriteWhileBusy
  else .next { s with outMem := Memory.write s.outMem a b, outFree := spanErase a (a + 1) s.outFree }

/-- The reset input (70 R280, R281): every register as at reset, between two steps; the memories stay; a run it aborts
leaves all of OUT_MEM below OUT_CAP UNSPECIFIED. Working state is UNSPECIFIED and takes State.reset's values (log 8).
The model's schedule, count of runs and last host read are not the engine's. -/
def resetInput (s : State) : State :=
  { State.reset with
    cfg := s.cfg
    inMem := s.inMem
    outMem := s.outMem
    outFree := if s.busy then spanAdd 0 s.outCap.toNat s.runIndex s.outFree else s.outFree
    runIndex := s.runIndex
    schedule := s.schedule
    busData := s.busData }

end Sys2Proof.Machine
end

