-- ==== Sys2Proof/Machine/Stream.lean ====
section
/-! DEFINITION. Stream control tokens HDR, BLOCK, EOS, SCRC (41_stream_control.md R123..R127). A meaning moves the cursor
past its own token; the fetch has found the token's bits inside the input (log 14). -/

namespace Sys2Proof.Machine

/-- HDR (R123): length, then digit; the magic is the decoder's check (decision D34). -/
def execHdr (d : BitVec 8) (s : State) : Host.Outcome State Fault Refusal :=
  if s.inLen.toNat < minInputBytes then .next (fail .hdrShort s)
  else
    let s := advance 32 s
    if digitLegal d then
      .next { s with blkMax := blockSizeOf d, blockMax := BitVec.ofNat 32 (blockSizeOf d), phase := .magic }
    else .next (fail .hdrDigit s)

/-- `BlockInit()` (R125). The working registers and memories it does not write are UNSPECIFIED until their own tokens
write them (10_state.md R35, R36, 93_implementation_defined.md U9); they keep what the block or run before left there:
DESIGN CHOICE (log 8). -/
def blockInit (s : State) : State :=
  { s with
    seq := [], mapI := 0, nInUse := 0
    selI := 0, lenG := 0, lenS := 0
    gpos := 0, gno := 0, rep := 0, reppow := 0
    size := 0, finLen := 0 }

/-- BLOCK (R124, R125). -/
def execBlock (s : State) : Host.Outcome State Fault Refusal :=
  .next { blockInit (advance 48 s) with phase := .bcrc }

/-- EOS (R124). -/
def execEos (s : State) : Host.Outcome State Fault Refusal :=
  .next { advance 48 s with phase := .scrc }

/-- SCRC (R126). -/
def execScrc (v : BitVec 32) (s : State) : Host.Outcome State Fault Refusal :=
  let s := advance 32 s
  if v = s.streamCrc then .next (finish s) else .next (fail .streamCrc s)

end Sys2Proof.Machine
end

