-- ==== Sys2Proof/Machine/Symbols.lean ====
section
/-! DEFINITION. The symbol stream: RUNA, RUNB, MTF, EOB (44_symbol_decode.md R180..R186). -/

namespace Sys2Proof.Machine

/-- The SYMBOL step's group switch and countdown (R180), before any bit of the symbol is peeked; `none` is
SELECTORS_EXHAUSTED, raised before anything is written. -/
def groupSwitch (s : State) : Option State :=
  if s.gpos = 0 then
    if s.nSel ≤ s.gno then none
    else some { s with active := s.selector.getD s.gno 0, gno := s.gno + 1, gpos := gSize - 1 }
  else some { s with gpos := s.gpos - 1 }

/-- The active table (R180). -/
def activeTable (s : State) : CodeTable := s.tbl.getD s.active default

/-- One symbol token in its SYMBOL step: the group switch, the cursor past the symbol's code (R181 commits
`lens[active][sym]` bits), then the class rule. -/
def symbolStep (sym : Nat) (act : State → State) (s : State) : State :=
  match groupSwitch s with
  | none   => fail .selectorsExhausted s
  | some s => act (advance ((activeTable s).lens.getD sym 0) s)

/-- RUNA and RUNB add one run digit of weight `weight · reppow` (R182, R183); the first digit of a run has weight
base 1. -/
def runDigit (weight : Nat) (s : State) : State :=
  let pow := if s.rep = 0 then 1 else s.reppow
  { s with rep := s.rep + weight * pow, reppow := 2 * pow }

/-- `FlushRun()` (R184): the pending run, checked whole before any byte is stored; `none` is BLOCK_FULL. -/
def flushRun (s : State) : Option State :=
  if s.rep = 0 then some s
  else if s.size + s.rep > s.blkMax then none
  else some { s with
    tt := putAll s.tt s.size (List.replicate s.rep (s.mtf.getD 0 0)) 0
    size := s.size + s.rep
    rep := 0 }

/-- `MTFSYM(s)` after the flush (R185). -/
def emitMtf (sym : Nat) (s : State) : State :=
  if s.size + 1 > s.blkMax then fail .blockFull s
  else
    let taken := mtfTake 0 s.mtf (sym - 1)
    { s with mtf := taken.2, tt := putAll s.tt s.size [taken.1] 0, size := s.size + 1 }

/-- A symbol other than a run digit flushes first (R180, R184). -/
def flushThen (act : State → State) (s : State) : State :=
  match flushRun s with
  | none   => fail .blockFull s
  | some s => act s

/-- RUNA (R182). -/
def execRuna (s : State) : Host.Outcome State Fault Refusal := .next (symbolStep 0 (runDigit 1) s)

/-- RUNB (R183). -/
def execRunb (s : State) : Host.Outcome State Fault Refusal := .next (symbolStep 1 (runDigit 2) s)

/-- MTF, symbol index `sym` (R185). -/
def execMtf (sym : Nat) (s : State) : Host.Outcome State Fault Refusal :=
  .next (symbolStep sym (flushThen (emitMtf sym)) s)

/-- EOB, symbol `alpha − 1` (R186). -/
def execEob (s : State) : Host.Outcome State Fault Refusal :=
  .next (symbolStep (s.alpha - 1) (flushThen fun s => { s with phase := .ibwt }) s)

end Sys2Proof.Machine
end

