-- ==== Sys2Proof/Machine/Tables.lean ====
section
/-! DEFINITION. Selectors and code lengths: SEL, LEN5, LKEEP, LINC, LDEC, and the internal operation BUILD
(43_selectors_and_tables.md R160..R169). -/

namespace Sys2Proof.Machine

/-- SEL with `k` one-bits (R160, R161). A run that reaches the group count fails at the one-bit that reaches it; the
decoder never yields such a token, it names the illegal pattern. -/
def execSel (k : Nat) (s : State) : Host.Outcome State Fault Refusal :=
  if 0 < k ∧ s.nGroups ≤ k then .next (fail .selectorRun (advance (max 1 s.nGroups) s))
  else
    let s := advance (k + 1) s
    let taken := mtfTake 0 s.selMtf k
    let s := { s with selMtf := taken.2, selector := putAll s.selector s.selI [taken.1] 0, selI := s.selI + 1 }
    if s.selI = s.nSel then .next { s with lenG := 0, phase := .lenStart } else .next s

/-- LEN5 (R164). -/
def execLen5 (l : BitVec 5) (s : State) : Host.Outcome State Fault Refusal :=
  .next { advance 5 s with curLen := (l.toNat : Int), lenS := 0, phase := .lenDelta }

/-- The current code length lies in [1, 20] (R165, R166). -/
def codeLenLegal (n : Int) : Bool := decide ((minCodeLen : Int) ≤ n ∧ n ≤ (maxCodeLen : Int))

/-- LKEEP (R166): the length of symbol `len_s` of group `len_g` is recorded; after the last symbol, BUILD. -/
def execLkeep (s : State) : Host.Outcome State Fault Refusal :=
  let s := advance 1 s
  if codeLenLegal s.curLen then
    let row := putAll (s.lens.getD s.lenG []) s.lenS [s.curLen.toNat] 0
    let s := { s with lens := putAll s.lens s.lenG [row] [], lenS := s.lenS + 1 }
    if s.lenS = s.alpha then .next { s with phase := .build } else .next s
  else .next (fail .badCodeLen s)

/-- LINC (R167). -/
def execLinc (s : State) : Host.Outcome State Fault Refusal :=
  .next { advance 2 s with curLen := s.curLen + 1 }

/-- LDEC (R168). -/
def execLdec (s : State) : Host.Outcome State Fault Refusal :=
  .next { advance 2 s with curLen := s.curLen - 1 }

/-- Symbols ascending by length, equal lengths in symbol order: the stable sort of R169. -/
def sortedSymbols (lens : List Nat) : List Nat :=
  (List.range (lens.foldr max 0 + 1)).flatMap fun n => (List.range lens.length).filter fun s => lens.getD s 0 == n

/-- The code assignment loop of R169 along `perm`: the running code `c`, the length `prev` it has, and the codes so
far. One shift for each length step. -/
def assignCodes (lens : List Nat) : List Nat → Nat → Nat → List Nat → List Nat
  | [], _, _, codes => codes
  | s :: ss, c, prev, codes =>
    let len := lens.getD s 0
    let c := if len > prev then c <<< (len - prev) else c
    assignCodes lens ss (c + 1) (max prev len) (codes.set s c)

/-- The table built from the lengths of one group (R169). -/
def buildTable (lens : List Nat) : CodeTable :=
  let maxlen := lens.foldr max 0
  let minlen := lens.foldr min maxlen
  { minlen
    maxlen
    present := (List.range (maxlen + 1)).filter fun n => lens.contains n
    perm := sortedSymbols lens
    code := assignCodes lens (sortedSymbols lens) 0 minlen (List.replicate lens.length 0)
    lens }

/-- BUILD (R169). -/
def execBuild (s : State) : Host.Outcome State Fault Refusal :=
  let table := buildTable (firstN (s.lens.getD s.lenG []) s.alpha 0)
  let s := { s with tbl := putAll s.tbl s.lenG [table] default, lenG := s.lenG + 1 }
  if s.lenG < s.nGroups then .next { s with phase := .lenStart }
  else .next { s with gpos := 0, gno := 0, phase := .symbol }

end Sys2Proof.Machine
end

