-- ==== Sys2Proof/Machine/Crc.lean ====
section
/-! DEFINITION. The CRC engine, the block check and the commit: CHECK (47_crc.md R220..R224). -/

namespace Sys2Proof.Machine

/-- One shift of the MSB-first CRC register (R220). -/
def crcShift (c : U32) : U32 := if c.getLsbD 31 then (c <<< 1) ^^^ crcPoly else c <<< 1

/-- `n` shifts. -/
def crcShifts : Nat → U32 → U32
  | 0, c     => c
  | n + 1, c => crcShifts n (crcShift c)

/-- One byte step (R220). -/
def crcStep (c : U32) (b : Byte) : U32 := crcShifts 8 (c ^^^ (b.setWidth 32 <<< 24))

/-- `n` copies of a byte. -/
def crcRun : Nat → Byte → U32 → U32
  | 0, _, c     => c
  | n + 1, b, c => crcRun n b (crcStep c b)

/-- The register's start value and the final inversion (R220, conflict C5). -/
abbrev crcInit : U32 := 0xFFFFFFFF

/-- `CRC32` of a byte sequence (R220). -/
def crc32 (bytes : List Byte) : U32 := bytes.foldl crcStep crcInit ^^^ crcInit

/-- Entry `i` of the lookup table, a constant ROM (R221): a function, never state. -/
def crcTable (i : Byte) : U32 := crcStep 0 i

/-- `rotl32` (R224, 00_scope.md R9). -/
def rotl32 (v : U32) : U32 := (v <<< 1) ||| (v >>> 31)

/-- `Commit()` (R223). The committed bytes are specified to the host (20_memory.md R66). The block's working state, discarded
by the spec (10_state.md R35), stays as it was: DESIGN CHOICE (log 8). -/
def commit (s : State) : State :=
  { s with
    outLen := s.outLen + BitVec.ofNat 32 s.finLen
    streamCrc := rotl32 s.streamCrc ^^^ s.bcrc
    blockCount := s.blockCount + 1
    phase := .magic
    outFree := spanErase s.outLen.toNat (s.outLen.toNat + s.finLen) s.outFree }

/-- CHECK (R222). -/
def execCheck (s : State) : Host.Outcome State Fault Refusal :=
  let s := { s with blockCrcCalc := s.bcrc }
  if s.bcrc = s.storedCrc then .next (commit s) else .next (fail .blockCrc s)

end Sys2Proof.Machine
end

