-- ==== Sys2Proof/Machine/Transform.lean ====
section
/-! DEFINITION. The inverse Burrows-Wheeler transform and the final run-length expansion: IBWT, RLE
(45_inverse_bwt.md R200, R201; 46_final_rle.md R210). -/

namespace Sys2Proof.Machine

/-- `count[b]` for each byte value, over the block (45 R200). -/
def bucketCounts (src : List Byte) : List Nat := (List.range 256).map fun b => src.count (BitVec.ofNat 8 b)

/-- The running sums before each entry: `start[b] = Σ_{c<b} count[c]` (45 R200). -/
def runningSums : Nat → List Nat → List Nat
  | _, []      => []
  | a, n :: ns => a :: runningSums (a + n) ns

/-- `index[k]`, the rank of each position within its bucket: how many of the bytes `seen` before it are the same
(45 R200). -/
def bucketRanks : List Byte → List Byte → List Nat
  | _, []         => []
  | seen, b :: bs => seen.count b :: bucketRanks (b :: seen) bs

/-- The backward reconstruction (45 R201): `n` bytes still to place, the chase position `j`, the bytes placed so far.
`none` is BWT_INDEX_RANGE, checked after every update of `j` (decision D33). -/
def chase (src : List Byte) (starts ranks : List Nat) : Nat → Nat → List Byte → Option (List Byte)
  | 0, _, placed => some placed
  | n + 1, j, placed =>
    let b := src.getD j 0
    let j' := starts.getD b.toNat 0 + ranks.getD j 0
    if src.length ≤ j' then none else chase src starts ranks n j' (b :: placed)

/-- IBWT (45 R200, R201), one atomic step. The dead BWT_INDEX_RANGE branch leaves `dst` as it was (log 16). -/
def execIbwt (s : State) : Host.Outcome State Fault Refusal :=
  if s.size ≤ s.origPtr.toNat then .next (fail .bwtPtrRange s)
  else
    let src := firstN s.tt s.size 0
    let counts := bucketCounts src
    let starts := runningSums 0 counts
    let ranks := bucketRanks [] src
    let s := { s with bucketCount := counts, bucketStart := starts, bucketIndex := putAll s.bucketIndex 0 ranks 0 }
    match chase src starts ranks s.size s.origPtr.toNat [] with
    | some bytes => .next { s with dst := putAll s.dst 0 bytes 0, phase := .rle }
    | none       => .next (fail .bwtIndexRange s)

/-- The runs of the final run-length code (46 R210): four equal bytes and a count byte, four equal bytes that end the
block (decision D27), or one byte. -/
def rleRuns : List Byte → List (Nat × Byte)
  | a :: b :: c :: d :: rest =>
    if a = b ∧ b = c ∧ c = d then
      match rest with
      | []            => [(4, a)]
      | count :: more => (4 + count.toNat, a) :: rleRuns more
    else (1, a) :: rleRuns (b :: c :: d :: rest)
  | a :: rest => (1, a) :: rleRuns rest
  | [] => []

/-- The emission loop (46 R210): each run is checked whole against the room, then written to OUT_MEM after the
committed output and fed to the running CRC. The second answer is the CRC, or `none` where a run does not fit. -/
def emitRuns (room : Nat) : List (Nat × Byte) → U32 → State → State × Option U32
  | [], c, s => (s, some c)
  | (run, b) :: rest, c, s =>
    if s.finLen + run > room then (s, none)
    else emitRuns room rest (crcRun run b c)
      { s with outMem := Memory.writeRun s.outMem (s.outLen.toNat + s.finLen) run b, finLen := s.finLen + run }

/-- RLE (46 R210), one atomic step. -/
def execRle (s : State) : Host.Outcome State Fault Refusal :=
  let room := s.outCap.toNat - s.outLen.toNat
  match emitRuns room (rleRuns (firstN s.dst s.size 0)) crcInit { s with finLen := 0 } with
  | (s, some c) => .next { s with bcrc := c ^^^ crcInit, phase := .check }
  | (s, none)   => .next (fail .outCap s)

end Sys2Proof.Machine
end

