-- ==== Sys2Proof/Machine/Dispatch.lean ====
section
/-! DEFINITION. The meaning of each instruction: one arm a constructor. -/

namespace Sys2Proof.Machine

def exec (i : Instr) (s : State) : Host.Outcome State Fault Refusal :=
  match i with
  | .hdr d => Sys2Proof.Machine.execHdr d s
  | .block => Sys2Proof.Machine.execBlock s
  | .eos => Sys2Proof.Machine.execEos s
  | .scrc v => Sys2Proof.Machine.execScrc v s
  | .bcrc v => Sys2Proof.Machine.execBcrc v s
  | .rand r => Sys2Proof.Machine.execRand r s
  | .ptr p => Sys2Proof.Machine.execPtr p s
  | .map1 m => Sys2Proof.Machine.execMap1 m s
  | .map2 m => Sys2Proof.Machine.execMap2 m s
  | .ngrp g => Sys2Proof.Machine.execNgrp g s
  | .nsel n => Sys2Proof.Machine.execNsel n s
  | .sel k => Sys2Proof.Machine.execSel k s
  | .len5 l => Sys2Proof.Machine.execLen5 l s
  | .lkeep => Sys2Proof.Machine.execLkeep s
  | .linc => Sys2Proof.Machine.execLinc s
  | .ldec => Sys2Proof.Machine.execLdec s
  | .runa => Sys2Proof.Machine.execRuna s
  | .runb => Sys2Proof.Machine.execRunb s
  | .mtf sym => Sys2Proof.Machine.execMtf sym s
  | .eob => Sys2Proof.Machine.execEob s
  | .build => Sys2Proof.Machine.execBuild s
  | .ibwt => Sys2Proof.Machine.execIbwt s
  | .rle => Sys2Proof.Machine.execRle s
  | .check => Sys2Proof.Machine.execCheck s
  | .start v => Sys2Proof.Machine.execStart v s
  | .irqEnSet v => Sys2Proof.Machine.execIrqEnSet v s
  | .doneClr v => Sys2Proof.Machine.execDoneClr v s
  | .inLenSet v => Sys2Proof.Machine.execInLenSet v s
  | .outCapSet v => Sys2Proof.Machine.execOutCapSet v s

end Sys2Proof.Machine
end

