-- ==== Sys2Proof/Machine/Fetch.lean ====
section
/-! DEFINITION. Finding the next token: the checks a phase makes before any bit is read, the bits at the cursor, the
decoder's context, and the runs that end in the fetch (truncation, illegal pattern). -/

namespace Sys2Proof.Machine

/-- What the engine finds at its cursor: a token to execute, a run that ends before any token (the state `Fail` leaves),
or nothing, being idle. -/
inductive Fetched where
  | token (i : Instr)
  | ended (s : State)
  | idle
  deriving DecidableEq, Repr

/-- What the decoder needs from the state (30_encoding.md R92). -/
def context (s : State) : Context where
  phase   := s.phase
  nGroups := s.nGroups
  sense   := s.cfg.deltaSense
  table   := activeTable s
  alpha   := s.alpha

/-- The bits the decoder is shown: what is left of the input, at most 48 bits, the longest token (30_encoding.md R90,
log 14). -/
def window (s : State) : List Bool := bitsAt s (min 48 (bitsLeft s))

/-- The decoder's answer at the cursor; a truncation or an illegal pattern ends the run with the cursor where the read
or check that fails leaves it (60_exceptions.md R254). -/
def decodeAt (s : State) : Fetched :=
  match decode (context s) (window s) with
  | .token i _   => .token i
  | .truncated n => .ended (fail .trunc (advance n s))
  | .illegal c n => .ended (fail c (advance n s))
  | .noToken     => .idle

/-- The fetch of one engine step. HDR checks IN_LEN before it reads (41_stream_control.md R123), a delta token under
EVERY_STEP the current length (43_selectors_and_tables.md R165), and a symbol's group switch comes before its bits
(44_symbol_decode.md R180), its writes standing if the match then fails (60_exceptions.md R252). -/
def fetch (s : State) : Fetched :=
  match s.phase with
  | .header =>
    if s.inLen.toNat < minInputBytes then .ended (fail .hdrShort s) else decodeAt s
  | .lenDelta =>
    if s.cfg.lenCheck = .everyStep ∧ codeLenLegal s.curLen = false then .ended (fail .badCodeLen s) else decodeAt s
  | .symbol =>
    match groupSwitch s with
    | none   => .ended (fail .selectorsExhausted s)
    | some t => decodeAt t
  | _ => decodeAt s

/-- The bits as `n` bytes, zero bits after them. -/
def bytesOfBits (n : Nat) (bits : List Bool) : List Byte :=
  (List.range n).map fun k => BitVec.ofNat 8 (natOfBits (firstN (bits.drop (8 * k)) 8 false))

/-- `s` with instruction `i` as the next thing to run (log 12). A host command is the host's next register write. A
token stands at the first bits of IN_MEM, zero bits after it up to MIN_INPUT_BYTES, the engine busy in the token's
phase with the cursor at 0; the group count admits any selector and the current length is legal. A symbol token also
needs its table, which no table word gives. -/
def placeInstr (i : Instr) (s : State) : State :=
  match i.hostOffset with
  | some off => { s with schedule := .host (.regWrite (s.cfg.regBase + off) i.hostWord) :: s.schedule }
  | none =>
    let c : Context := { context s with phase := i.phase }
    { s with
      schedule := .engine :: s.schedule
      busy := true
      phase := i.phase
      pos := 0
      inLen := BitVec.ofNat 32 minInputBytes
      inMem := Memory.writeBytes s.inMem 0 (bytesOfBits minInputBytes (encode c i))
      nGroups := if i.phase = .selector then maxGroups else s.nGroups
      curLen := if i.phase = .lenDelta then 1 else s.curLen }

end Sys2Proof.Machine
end

