-- ==== Sys2Proof/Machine/Engine.lean ====
section
/-! DEFINITION. One turn of each agent (48_host_interface.md R238). -/

namespace Sys2Proof.Machine

/-- An engine step: the token at the cursor runs, or the run ends in the fetch. IDLE has no engine step (10_state.md
R40): the turn changes nothing (log 5). -/
def engineTurn (s : State) : Host.Outcome State Fault Refusal :=
  match fetch s with
  | .token i => exec i s
  | .ended t => .next t
  | .idle    => .next s

/-- A host move (48_host_interface.md R230, R231, R237). A register write that is no command is ignored (R231). -/
def hostTurn (m : HostMove) (s : State) : Host.Outcome State Fault Refusal :=
  match m with
  | .regRead addr =>
    match regOffset s.cfg addr with
    | none     => .refused .registerAccess
    | some off => .next { s with busData := regRead off s }
  | .regWrite addr v =>
    match regOffset s.cfg addr with
    | none     => .refused .registerAccess
    | some off =>
      match decodeHost off v with
      | some i => exec i s
      | none   => .next s
  | .inWrite a b  => hostInWrite a b s
  | .outWrite a b => hostOutWrite a b s
  | .outRead a    => if s.cfg.outMemBytes.toNat ≤ a then .fault .noSuchByte else .next (hostOutRead a s)

/-- The turn the schedule names; with none left the engine runs on alone (log 4). -/
def takeTurn (s : State) : Host.Outcome State Fault Refusal :=
  match s.schedule with
  | []                => engineTurn s
  | .engine :: rest   => engineTurn { s with schedule := rest }
  | .host m :: rest   => hostTurn m { s with schedule := rest }
  | .reset :: rest    => .next (resetInput { s with schedule := rest })

end Sys2Proof.Machine
end

