-- ==== Sys2Proof/Machine/Step.lean ====
section
/-! DEFINITION. One step of the machine, and the placing of an instruction where it runs next. -/

namespace Sys2Proof.Machine

/-- One transition of 48_host_interface.md R238. -/
def step (s : State) : Host.Outcome State Fault Refusal := takeTurn s

/-- `s` with the instruction of a table word as what the very next step runs (log 12); a word that is no instruction
changes nothing. -/
def State.withFetchWord (s : State) (nbits w : Nat) : State :=
  match decodeTableWord nbits w with
  | some i => placeInstr i s
  | none   => s

end Sys2Proof.Machine
end

