-- ==== Sys2Proof/Safety.lean ====
section
/-! DEFINITION. What the spec says of every state a run reaches: the facts claims are stated in. Each is a predicate on
one state; `Inv` and `BlockInv` are the two that every step keeps; and
the phase relation. -/

namespace Sys2Proof.Machine

/-- "`BUSY = 1` exactly when `phase ≠ IDLE`" (10_state.md R40). -/
def BusyIffRunning (s : State) : Prop := s.busy = true ↔ s.phase ≠ .idle

/-- Both byte memories are in canonical form and list no address beyond their size (20_memory.md R60). -/
def MemoriesLegal (s : State) : Prop :=
  Memory.wf s.inMem = true ∧ Memory.wf s.outMem = true
    ∧ (∀ e ∈ s.inMem, e.1 < s.cfg.inMemBytes) ∧ ∀ e ∈ s.outMem, e.1 < s.cfg.outMemBytes.toNat

/-- IN_LEN and OUT_CAP stay within their memories (10_state.md R25, R26). -/
def LengthsLegal (s : State) : Prop :=
  s.inLen.toNat ≤ s.cfg.inMemBytes ∧ s.outCap.toNat ≤ s.cfg.outMemBytes.toNat

/-- During a run the cursor never passes the end of the input (10_state.md R21). -/
def CursorInInput (s : State) : Prop := s.busy = true → s.pos.toNat ≤ 8 * s.inLen.toNat

/-- During a run OUT_LEN stays within OUT_CAP, and so does what CHECK is about to commit (10_state.md R27, 47_crc.md
R223). While idle the host may lower OUT_CAP below OUT_LEN (48_host_interface.md R236, log 13). -/
def OutputInCapacity (s : State) : Prop :=
  (s.busy = true → s.outLen.toNat ≤ s.outCap.toNat)
    ∧ (s.phase = .check → s.outLen.toNat + s.finLen ≤ s.outCap.toNat)

/-- The error fields hold no code outside 60_exceptions.md R250, R251, and show an error exactly with ERR; during a run
DONE and ERR are clear (48_host_interface.md R233). -/
def ErrorFieldsLegal (s : State) : Prop :=
  ((s.err = false ∧ s.errKind = 0 ∧ s.errCause = 0)
    ∨ ∃ c : Cause, s.err = true ∧ s.errKind = kindCode (causeKind c) ∧ s.errCause = causeCode c)
  ∧ (s.busy = true → s.done = false ∧ s.err = false)

/-- The whole-machine invariant. -/
structure Inv (s : State) : Prop where
  params   : s.cfg.legal
  busy     : BusyIffRunning s
  memories : MemoriesLegal s
  lengths  : LengthsLegal s
  cursor   : CursorInInput s
  output   : OutputInCapacity s
  errors   : ErrorFieldsLegal s

/-- A recorded code length (43_selectors_and_tables.md R166). -/
def LengthRecorded (n : Nat) : Prop := minCodeLen ≤ n ∧ n ≤ maxCodeLen

/-- The phases from the bitmap's completion to the end of the symbol stream. -/
def AlphabetKnown : Phase → Prop
  | .ngrp | .nsel | .selector | .lenStart | .lenDelta | .build | .symbol => True
  | _ => False

/-- The phases of a block up to its inverse transform. -/
def InBlock : Phase → Prop
  | .bcrc | .rand | .ptr | .map1 | .map2 | .ngrp | .nsel | .selector | .lenStart | .lenDelta | .build | .symbol
  | .ibwt => True
  | _ => False

/-- The invariant of the block being decoded: code lengths are recorded before BUILD reads them and lie in [1, 20]
(43_selectors_and_tables.md R166), so every built table has only such lengths; the alphabet has its size and its MTF
table (42_block_header.md R145, 44_symbol_decode.md R185); the selector MTF table is a permutation of the group numbers
(43_selectors_and_tables.md R161); the decoded length stays within `blk_max` (10_state.md R35). -/
structure BlockInv (s : State) : Prop where
  tables   : ∀ t ∈ s.tbl, ∀ n ∈ t.present, LengthRecorded n
  lenDelta : s.phase = .lenDelta →
    s.lenS < s.alpha ∧ ∀ k < s.lenS, LengthRecorded ((s.lens.getD s.lenG []).getD k 0)
  build    : s.phase = .build → ∀ k < s.alpha, LengthRecorded ((s.lens.getD s.lenG []).getD k 0)
  alphabet : AlphabetKnown s.phase → 3 ≤ s.alpha ∧ s.mtf.length + 2 = s.alpha
  selMtf   : s.phase = .selector → s.selMtf.Perm (List.range s.nGroups)
  size     : InBlock s.phase → s.size ≤ s.blkMax

/-- The transitions of 41_stream_control.md R128 within a run, without their conditions; `idle` is the end of a run. -/
def successors : Phase → List Phase
  | .idle     => []
  | .header   => [.magic]
  | .magic    => [.bcrc, .scrc]
  | .scrc     => []
  | .bcrc     => [.rand]
  | .rand     => [.ptr]
  | .ptr      => [.map1]
  | .map1     => [.map2, .ngrp]
  | .map2     => [.map2, .ngrp]
  | .ngrp     => [.nsel]
  | .nsel     => [.selector]
  | .selector => [.selector, .lenStart]
  | .lenStart => [.lenDelta]
  | .lenDelta => [.lenDelta, .build]
  | .build    => [.lenStart, .symbol]
  | .symbol   => [.symbol, .ibwt]
  | .ibwt     => [.rle]
  | .rle      => [.check]
  | .check    => [.magic]

/-- Two memories of one space agree below `n`. -/
def AgreeBelow (sp : Space) (n : Nat) (m m' : Memory) : Prop := ∀ a < n, Memory.read sp m a = Memory.read sp m' a

end Sys2Proof.Machine
end

