-- ==== Sys2Proof/Certificates/Slice0/Obligations.lean ====
section
/-! DEFINITION. The statements for the provers. Each formalises the rules its docstring names. Where a meaning writes one
entry of a working memory, the statement says what every entry reads as afterwards and gives the rest of the state as a
record update, which is its frame: every field not named is unchanged, memories included. -/

open Sys2Proof Sys2Proof.Machine

namespace Sys2Proof.Claims

/-- The engine runs alone: no other agent's turn stands before it. -/
def Alone (s : State) : Prop := s.schedule = []

/-- In phase `p` a step reads `n` bits and runs the token they are, and fails with TRUNC, nothing consumed, where the
input is too short (41_stream_control.md R120). -/
def StepReads (p : Phase) (n : Nat) (mk : Nat → Instr) : Prop :=
  ∀ s, s.phase = p → Alone s →
    (∀ v t, readBits n s = some (v, t) → step s = exec (mk v) s)
      ∧ (readBits n s = none → step s = .next (fail .trunc s))

/-- Bits written as the spec prints them. -/
def bits (l : List Nat) : List Bool := l.map fun b => b == 1

/-- A context for a phase whose tokens need nothing else. -/
def plain (p : Phase) : Context := ⟨p, 0, .ref, default, 0⟩

/-- The effect of completing the bitmap, `BitmapDone()` (42_block_header.md R145). -/
def bitmapEnd (s : State) : State :=
  if s.seq = [] then fail .noSymbols { s with nInUse := 0 }
  else { s with nInUse := s.seq.length, alpha := s.seq.length + 2, mtf := s.seq, phase := .ngrp }

/-- A group is active or a selector is left for the next one (44_symbol_decode.md R180). -/
def SelectorReady (s : State) : Prop := s.gpos ≠ 0 ∨ s.gno < s.nSel

/-- The group switch and countdown (44_symbol_decode.md R180). -/
def switched (s : State) : State :=
  if s.gpos = 0 then { s with active := s.selector.getD s.gno 0, gno := s.gno + 1, gpos := 49 }
  else { s with gpos := s.gpos - 1 }

/-- `s` in its SYMBOL step with symbol `sym`'s code consumed: `lens[active][sym]` bits (30_encoding.md R90). -/
def symbolRead (sym : Nat) (s : State) : State :=
  { switched s with
    pos := s.pos + BitVec.ofNat 32 (((switched s).tbl.getD (switched s).active default).lens.getD sym 0) }

/-- `memory[i] <- v` on a working memory read through `getD`. -/
def Stores {α : Type} (new old : List α) (i : Nat) (v d : α) : Prop :=
  ∀ k, new.getD k d = if k = i then v else old.getD k d

/-- The byte `tt[k]` of the block buffer. -/
def src (s : State) (k : Nat) : Byte := s.tt.getD k 0

/-- `k ↦ start[tt[k]] + index[k]` (45_inverse_bwt.md R200). -/
def chain (s : State) (k : Nat) : Nat := s.bucketStart.getD (src s k).toNat 0 + s.bucketIndex.getD k 0

/-- One iteration of the scan of 46_final_rle.md R210 at position `p`: the run's length and the step. -/
def scanAt (dst : List Byte) (p : Nat) : Nat × Nat :=
  if p + 3 < dst.length ∧ dst.getD p 0 = dst.getD (p + 1) 0 ∧ dst.getD (p + 1) 0 = dst.getD (p + 2) 0
      ∧ dst.getD (p + 2) 0 = dst.getD (p + 3) 0 then
    if p + 4 < dst.length then (4 + (dst.getD (p + 4) 0).toNat, 5) else (4, 4)
  else (1, 1)

/-- The scan loop of 46_final_rle.md R210 from position `p`, on fuel. -/
def scan (dst : List Byte) : Nat → Nat → List (Nat × Byte)
  | 0, _        => []
  | fuel + 1, p =>
    if p < dst.length then ((scanAt dst p).1, dst.getD p 0) :: scan dst fuel (p + (scanAt dst p).2) else []

/-- The block's final bytes: each run written out. -/
def finalBytes (dst : List Byte) : List Byte := (rleRuns dst).flatMap fun r => List.replicate r.1 r.2

/-- The block `dst[0 .. size−1]`. -/
def block (s : State) : List Byte := (List.range s.size).map fun k => s.dst.getD k 0

/-- One RUNA (`false`) or RUNB (`true`) digit on the run accumulators (44_symbol_decode.md R182, R183). -/
def digitStep (s : State) (d : Bool) : State := runDigit (if d then 2 else 1) s

/-- The value of a digit string, least significant first: `Σ d_i · 2^i` (44_symbol_decode.md R183). -/
def digitsValue : List Bool → Nat
  | []      => 0
  | d :: ds => (if d then 2 else 1) + 2 * digitsValue ds

/-- An instruction the host gives, not a token. -/
def HostCommand (i : Instr) : Prop := i.hostOffset.isSome = true

end Sys2Proof.Claims

open Sys2Proof.Claims

/-! ### Encoding -/

/-- The words the spec prints for its formats, tables and examples (30_encoding.md R90, R94, R96; 95_test_vectors.md
V43t1, V44h1) decode to the tokens they stand for. -/
def Obligations.DecodesTheSpecsWords : Prop :=
  decode (plain .header) (bits [0,1,0,0,0,0,1,0, 0,1,0,1,1,0,1,0, 0,1,1,0,1,0,0,0, 0,0,1,1,1,0,0,1]) = .token (.hdr 0x39) 32
  ∧ decode (plain .magic) (bits [0,0,1,1,0,0,0,1, 0,1,0,0,0,0,0,1, 0,1,0,1,1,0,0,1, 0,0,1,0,0,1,1,0, 0,1,0,1,0,0,1,1, 0,1,0,1,1,0,0,1])
      = .token .block 48
  ∧ decode (plain .magic) (bits [0,0,0,1,0,1,1,1, 0,1,1,1,0,0,1,0, 0,1,0,0,0,1,0,1, 0,0,1,1,1,0,0,0, 0,1,0,1,0,0,0,0, 1,0,0,1,0,0,0,0])
      = .token .eos 48
  ∧ decode (plain .map1) (bits [0,0,0,0,0,0,1,0, 0,0,0,0,0,0,0,0]) = .token (.map1 0x0200) 16
  ∧ decode (plain .ngrp) (bits [1,1,1]) = .token (.ngrp 7) 3
  ∧ decode ⟨.selector, 6, .ref, default, 0⟩ (bits [1,1,1,1,1,0]) = .token (.sel 5) 6
  ∧ decode (plain .lenDelta) (bits [1,0]) = .token .linc 2
  ∧ decode ⟨.lenDelta, 0, .doc, default, 0⟩ (bits [1,0]) = .token .ldec 2
  ∧ decode ⟨.symbol, 2, .ref, buildTable [2,2,2,3,4,4], 6⟩ (bits [1,1,1,0,0]) = .token (.mtf 4) 4
  ∧ decodeHost 0x00 0x3 = some (.start 3) ∧ decodeHost 0x04 0x2 = some (.doneClr 2)

/-- Decoding what encode writes gives the instruction back: every stream, header and table token and internal operation,
whatever bits follow, and every host command from the offset and the 32-bit word it writes; at every operand its encoding
admits (30_encoding.md R90, R94, R96, R97; 48_host_interface.md R231). -/
def Obligations.DecodeEncodeStreamTokens : Prop :=
  (∀ (c : Context) (i : Instr) (rest : List Bool),
    i.wellFormed = true → i.hostOffset = none → i.symbol? c.alpha = none → c.phase = i.phase →
    (∀ k, i = .sel k → k < c.nGroups) →
    decode c (encode c i ++ rest) = .token i (encode c i).length)
  ∧ ∀ (c : Context) (i : Instr) (off : Nat), i.wellFormed = true → i.hostOffset = some off →
    decodeHost off (BitVec.ofNat 32 (natOfBits (encode c i))) = some i

/-- Decoding a symbol's canonical code gives the symbol back, whatever bits follow, in every table BUILD makes, of any
lengths, for every symbol whose code has a form of its length (43_selectors_and_tables.md R169, 44_symbol_decode.md
R181). -/
def Obligations.DecodeEncodeSymbolTokens : Prop :=
  ∀ (c : Context) (lens : List Nat) (i : Instr) (sym : Nat) (rest : List Bool),
    c.phase = .symbol → c.table = buildTable lens → c.alpha = lens.length → 3 ≤ c.alpha →
    i.symbol? c.alpha = some sym → (∀ s, i = .mtf s → 2 ≤ s ∧ s + 2 ≤ c.alpha) →
    c.table.code.getD sym 0 < 2 ^ lens.getD sym 0 →
    decode c (encode c i ++ rest) = .token i (lens.getD sym 0)

/-- The canonical-code match of 44_symbol_decode.md R181: candidate lengths in the order of `present`; at the first with
a match the first matching symbol of `perm` is the answer; a length that does not fit, reached with no match, is a
truncation; no match at any length is NO_CODE_MATCH; and 30_encoding.md R95 gives the symbol's class. -/
def Obligations.HuffDecodeTriesLengthsInOrder : Prop :=
  ∀ (c : Context) (w : List Bool), c.phase = .symbol →
    let hit (n s : Nat) : Prop := c.table.lens.getD s 0 = n ∧ c.table.code.getD s 0 = natOfBits (w.take n)
    let missed (n : Nat) : Prop := n ≤ w.length ∧ ∀ s ∈ c.table.perm, ¬ hit n s
    (∀ pre n post p s q, c.table.present = pre ++ n :: post → (∀ m ∈ pre, missed m) → n ≤ w.length →
        c.table.perm = p ++ s :: q → (∀ r ∈ p, ¬ hit n r) → hit n s →
        decode c w = .token (symbolToken c.alpha s) n)
    ∧ (∀ pre n post, c.table.present = pre ++ n :: post → (∀ m ∈ pre, missed m) → w.length < n →
        decode c w = .truncated 0)
    ∧ ((∀ m ∈ c.table.present, missed m) → decode c w = .illegal .noCodeMatch 0)
    ∧ (3 ≤ c.alpha → symbolToken c.alpha 0 = .runa ∧ symbolToken c.alpha 1 = .runb
        ∧ symbolToken c.alpha (c.alpha - 1) = .eob ∧ ∀ s, 2 ≤ s → s ≤ c.alpha - 2 → symbolToken c.alpha s = .mtf s)

/-! ### Bit reader and step -/

/-- `ReadBits(n)` (41_stream_control.md R120): the next `n` bits as the sum of 00_scope.md R11, first bit most
significant, the cursor `n` further; and no bit consumed where fewer than `n` remain. `PeekBits(n)` (R121) returns the
same value and fails under the same condition, moving nothing. -/
def Obligations.ReadBitsReturnsTheField : Prop :=
  ∀ (n : Nat) (s : State), 1 ≤ n → n ≤ 48 →
    (s.pos.toNat + n ≤ 8 * s.inLen.toNat →
      ∃ v, readBits n s = some (v, { s with pos := s.pos + BitVec.ofNat 32 n })
        ∧ v < 2 ^ n
        ∧ v = ((List.range n).map fun k =>
            (((Memory.read .input s.inMem ((s.pos.toNat + k) / 8)).toNat >>> (7 - (s.pos.toNat + k) % 8)) % 2)
              * 2 ^ (n - 1 - k)).sum)
    ∧ (8 * s.inLen.toNat < s.pos.toNat + n → readBits n s = none)
    ∧ (∀ v t, readBits n s = some (v, t) → peekBits n s = some v) ∧ (readBits n s = none → peekBits n s = none)

/-- A step runs the decoded instruction: `step` is `exec` of it, the turn taken off the schedule and nothing else added.
The three phases with a check before their bits do it once that check passes (41_stream_control.md R123,
43_selectors_and_tables.md R165, 44_symbol_decode.md R180). A host register write runs the command it is
(48_host_interface.md R231). In IDLE there is no engine step (10_state.md R40): the turn changes nothing, the stutter being
the model's choice (log 5). -/
def Obligations.StepRunsDecodedInstruction : Prop :=
  ∀ (s : State) (i : Instr) (n : Nat) (rest : List Turn),
    (s.phase ≠ .header → s.phase ≠ .lenDelta → s.phase ≠ .symbol →
      decode (context s) (window s) = .token i n → Alone s → step s = exec i s)
    ∧ (s.phase = .header → 14 ≤ s.inLen.toNat →
      decode (context s) (window s) = .token i n → Alone s → step s = exec i s)
    ∧ (s.phase = .lenDelta → (s.cfg.lenCheck = .everyStep → 1 ≤ s.curLen ∧ s.curLen ≤ 20) →
      decode (context s) (window s) = .token i n → Alone s → step s = exec i s)
    ∧ (s.phase = .symbol → SelectorReady s →
      decode (context (switched s)) (window (switched s)) = .token i n → Alone s → step s = exec i s)
    ∧ (Alone s → step { s with schedule := .engine :: rest } = engineTurn { s with schedule := rest } ∧ step s = engineTurn s)
    ∧ (∀ addr off v, regOffset s.cfg addr = some off → decodeHost off v = some i →
      step { s with schedule := .host (.regWrite addr v) :: rest } = exec i { s with schedule := rest })
    ∧ (s.phase = .idle → Alone s → step s = .next s)

/-! ### Stream tokens -/

/-- HDR (41_stream_control.md R123): length, magic and digit in that order, then the block size. -/
def Obligations.HeaderToken : Prop :=
  (∀ (d : BitVec 8) (s : State), 14 ≤ s.inLen.toNat → 0x31 ≤ d.toNat → d.toNat ≤ 0x39 →
    exec (.hdr d) s = .next { s with
      pos := s.pos + 32
      blkMax := 100000 * (d.toNat - 0x30)
      blockMax := BitVec.ofNat 32 (100000 * (d.toNat - 0x30))
      phase := .magic })
  ∧ (∀ s : State, s.phase = .header → Alone s → s.inLen.toNat < 14 → step s = .next (fail .hdrShort s))
  ∧ (∀ (s t : State) (h : Nat), s.phase = .header → Alone s → 14 ≤ s.inLen.toNat → readBits 32 s = some (h, t) →
    step s = .next
      (if h / 256 ≠ 0x425A68 then fail .hdrMagic t
       else if h % 256 < 0x31 ∨ 0x39 < h % 256 then fail .hdrDigit t
       else { t with
         blkMax := 100000 * (h % 256 - 0x30)
         blockMax := BitVec.ofNat 32 (100000 * (h % 256 - 0x30))
         phase := .magic }))
  ∧ (∀ s : State, s.pos = 0 → 14 ≤ s.inLen.toNat → readBits 32 s ≠ none)

/-- MAGIC (41_stream_control.md R124) and `BlockInit()` (R125): all 48 bits decide, BLOCK starts a fresh block with the
stream's own registers unchanged. That BLOCK keeps what a block before left in the working state R125 does not write, which
is UNSPECIFIED until its own token writes it, is the model's choice (log 8). -/
def Obligations.MagicTokens : Prop :=
  (∀ s : State, exec .block s = .next { s with
      pos := s.pos + 48
      seq := [], mapI := 0, nInUse := 0, selI := 0, lenG := 0, lenS := 0
      gpos := 0, gno := 0, rep := 0, reppow := 0, size := 0, finLen := 0
      phase := .bcrc })
  ∧ (∀ s : State, exec .eos s = .next { s with pos := s.pos + 48, phase := .scrc })
  ∧ (∀ s : State, s.phase = .magic → Alone s →
    (readBits 48 s = none → step s = .next (fail .trunc s))
    ∧ ∀ m t, readBits 48 s = some (m, t) → step s =
        if m = 0x314159265359 then exec .block s
        else if m = 0x177245385090 then exec .eos s
        else .next (fail .badMagic t))

/-- SCRC (41_stream_control.md R126): the transmitted checksum against the accumulated one, then Finish
(60_exceptions.md R253). That Finish keeps the working state of the last block is the model's choice (log 8). -/
def Obligations.StreamChecksumToken : Prop :=
  (∀ (v : U32) (s : State), v = s.streamCrc → exec (.scrc v) s = .next { s with
      pos := s.pos + 32, err := false, errKind := 0, errCause := 0, done := true, busy := false, phase := .idle })
  ∧ (∀ (v : U32) (s : State), v ≠ s.streamCrc →
      exec (.scrc v) s = .next (fail .streamCrc { s with pos := s.pos + 32 }))
  ∧ StepReads .scrc 32 fun v => .scrc (BitVec.ofNat 32 v)

/-! ### Block header tokens -/

/-- BCRC (42_block_header.md R140). -/
def Obligations.BlockChecksumToken : Prop :=
  (∀ (v : U32) (s : State), exec (.bcrc v) s =
      .next { s with pos := s.pos + 32, storedCrc := v, blockCrcStored := v, phase := .rand })
  ∧ StepReads .bcrc 32 fun v => .bcrc (BitVec.ofNat 32 v)

/-- RAND (42_block_header.md R141): a set flag fails at once. -/
def Obligations.RandomisedFlagToken : Prop :=
  (∀ s : State, exec (.rand 0) s = .next { s with pos := s.pos + 1, phase := .ptr })
  ∧ (∀ s : State, exec (.rand 1) s = .next (fail .randomised { s with pos := s.pos + 1 }))
  ∧ StepReads .rand 1 fun v => .rand (BitVec.ofNat 1 v)

/-- PTR (42_block_header.md R142): any value, no check. -/
def Obligations.PointerToken : Prop :=
  (∀ (p : BitVec 24) (s : State), exec (.ptr p) s = .next { s with pos := s.pos + 24, origPtr := p, phase := .map1 })
  ∧ StepReads .ptr 24 fun v => .ptr (BitVec.ofNat 24 v)

/-- MAP1 (42_block_header.md R143): the next token is a MAP2 for the first used range, range `i` being bit `15 − i`; with
none used the bitmap is complete (R145). -/
def Obligations.SparseBitmapToken : Prop :=
  (∀ (m : BitVec 16) (s : State) (j : Nat), j < 16 → m.getLsbD (15 - j) = true → (∀ i < j, m.getLsbD (15 - i) = false) →
    exec (.map1 m) s = .next { s with pos := s.pos + 16, map1 := m, mapI := j, phase := .map2 })
  ∧ (∀ s : State, exec (.map1 0) s = .next (bitmapEnd { s with pos := s.pos + 16, map1 := 0, mapI := 16 }))
  ∧ StepReads .map1 16 fun v => .map1 (BitVec.ofNat 16 v)

/-- MAP2 (42_block_header.md R144): the byte values `16·i + j` of the set bits `15 − j`, ascending; then the next used
range, or the bitmap's completion (R145). -/
def Obligations.DenseBitmapToken : Prop :=
  (∀ (m : BitVec 16) (s : State),
    let added := ((List.range 16).filter fun j => m.getLsbD (15 - j)).map fun j => BitVec.ofNat 8 (16 * s.mapI + j)
    (∀ j, s.mapI < j → j < 16 → s.map1.getLsbD (15 - j) = true →
        (∀ i, s.mapI < i → i < j → s.map1.getLsbD (15 - i) = false) →
        exec (.map2 m) s = .next { s with pos := s.pos + 16, seq := s.seq ++ added, mapI := j, phase := .map2 })
    ∧ (s.mapI < 16 → (∀ i, s.mapI < i → i < 16 → s.map1.getLsbD (15 - i) = false) →
        exec (.map2 m) s = .next (bitmapEnd { s with pos := s.pos + 16, seq := s.seq ++ added, mapI := 16 })))
  ∧ StepReads .map2 16 fun v => .map2 (BitVec.ofNat 16 v)

/-- NGRP (42_block_header.md R146): 2 to 6 groups. -/
def Obligations.GroupCountToken : Prop :=
  (∀ (g : BitVec 3) (s : State), 2 ≤ g.toNat → g.toNat ≤ 6 →
    exec (.ngrp g) s = .next { s with pos := s.pos + 3, nGroups := g.toNat, phase := .nsel })
  ∧ (∀ (g : BitVec 3) (s : State), g.toNat < 2 ∨ 6 < g.toNat →
    exec (.ngrp g) s = .next (fail .badNgroups { s with pos := s.pos + 3, nGroups := g.toNat }))
  ∧ StepReads .ngrp 3 fun v => .ngrp (BitVec.ofNat 3 v)

/-- NSEL (42_block_header.md R147): 1 to 18,002 selectors; the selector MTF table starts in order. -/
def Obligations.SelectorCountToken : Prop :=
  (∀ (n : BitVec 15) (s : State), 1 ≤ n.toNat → n.toNat ≤ 18002 →
    exec (.nsel n) s = .next { s with
      pos := s.pos + 15, nSel := n.toNat, selMtf := List.range s.nGroups, selI := 0, phase := .selector })
  ∧ (∀ s : State, exec (.nsel 0) s = .next (fail .badNselectors { s with pos := s.pos + 15, nSel := 0 }))
  ∧ (∀ (n : BitVec 15) (s : State), 18002 < n.toNat →
    exec (.nsel n) s = .next (fail .tooManySelectors { s with pos := s.pos + 15, nSel := n.toNat }))
  ∧ StepReads .nsel 15 fun v => .nsel (BitVec.ofNat 15 v)

/-! ### Selectors, code lengths, tables -/

/-- SEL (43_selectors_and_tables.md R160, R161): the group at position `k` is recorded and moves to the front; the last
selector leads to the tables. -/
def Obligations.SelectorToken : Prop :=
  (∀ (k g : Nat) (s : State), k < s.nGroups → s.selMtf[k]? = some g →
    ∃ sel, Stores sel s.selector s.selI g 0 ∧
      exec (.sel k) s = .next { s with
        pos := s.pos + BitVec.ofNat 32 (k + 1)
        selMtf := g :: s.selMtf.eraseIdx k
        selector := sel
        selI := s.selI + 1
        lenG := if s.selI + 1 = s.nSel then 0 else s.lenG
        phase := if s.selI + 1 = s.nSel then .lenStart else s.phase })
  ∧ (∀ (k : Nat) (s : State), s.phase = .selector → Alone s → s.nGroups ≤ 6 →
    (k < s.nGroups → s.pos.toNat + k + 1 ≤ 8 * s.inLen.toNat → bitsAt s (k + 1) = List.replicate k true ++ [false] →
        step s = exec (.sel k) s)
    ∧ (1 ≤ s.nGroups → s.pos.toNat + s.nGroups ≤ 8 * s.inLen.toNat →
        bitsAt s s.nGroups = List.replicate s.nGroups true →
        step s = .next (fail .selectorRun { s with pos := s.pos + BitVec.ofNat 32 s.nGroups }))
    ∧ (k < s.nGroups → s.pos.toNat + k = 8 * s.inLen.toNat → bitsAt s k = List.replicate k true →
        step s = .next (fail .trunc { s with pos := s.pos + BitVec.ofNat 32 k })))

/-- LEN5 (43_selectors_and_tables.md R164): any start length. -/
def Obligations.StartLengthToken : Prop :=
  (∀ (l : BitVec 5) (s : State), exec (.len5 l) s =
    .next { s with pos := s.pos + 5, curLen := (l.toNat : Int), lenS := 0, phase := .lenDelta })
  ∧ StepReads .lenStart 5 fun v => .len5 (BitVec.ofNat 5 v)

/-- LKEEP, LINC, LDEC (43_selectors_and_tables.md R166, R167, R168). -/
def Obligations.DeltaTokens : Prop :=
  (∀ s : State, 1 ≤ s.curLen → s.curLen ≤ 20 →
    ∃ lens, (∀ g k, (lens.getD g []).getD k 0 =
        if g = s.lenG ∧ k = s.lenS then s.curLen.toNat else (s.lens.getD g []).getD k 0) ∧
      exec .lkeep s = .next { s with
        pos := s.pos + 1
        lens := lens
        lenS := s.lenS + 1
        phase := if s.lenS + 1 = s.alpha then .build else s.phase })
  ∧ (∀ s : State, s.curLen < 1 ∨ 20 < s.curLen → exec .lkeep s = .next (fail .badCodeLen { s with pos := s.pos + 1 }))
  ∧ (∀ s : State, exec .linc s = .next { s with pos := s.pos + 2, curLen := s.curLen + 1 })
  ∧ (∀ s : State, exec .ldec s = .next { s with pos := s.pos + 2, curLen := s.curLen - 1 })

/-- The LEN_DELTA step (43_selectors_and_tables.md R165): the EVERY_STEP check, then one bit, then for a 1 a direction
bit, whose sense is P_DELTA_SENSE. -/
def Obligations.DeltaStep : Prop :=
  ∀ s : State, Inv s → s.phase = .lenDelta → Alone s →
    (s.cfg.lenCheck = .everyStep → (s.curLen < 1 ∨ 20 < s.curLen) → step s = .next (fail .badCodeLen s))
    ∧ ((s.cfg.lenCheck = .recorded ∨ (1 ≤ s.curLen ∧ s.curLen ≤ 20)) →
      (readBits 1 s = none → step s = .next (fail .trunc s))
      ∧ (∀ t, readBits 1 s = some (0, t) → step s = exec .lkeep s)
      ∧ (∀ t, readBits 1 s = some (1, t) →
        (readBits 1 t = none → step s = .next (fail .trunc t))
        ∧ ∀ x u, readBits 1 t = some (x, u) →
          step s = exec (if x = (if s.cfg.deltaSense = .ref then 0 else 1) then .linc else .ldec) s))

/-- BUILD (43_selectors_and_tables.md R169): the table of the group just read, from its `alpha` recorded lengths; then
the next group or the symbol stream. -/
def Obligations.BuildOperation : Prop :=
  (∀ s : State, ∃ lens tbl, lens.length = s.alpha
      ∧ (∀ k < s.alpha, lens.getD k 0 = (s.lens.getD s.lenG []).getD k 0)
      ∧ Stores tbl s.tbl s.lenG (buildTable lens) default
      ∧ exec .build s = .next { s with
          tbl := tbl
          lenG := s.lenG + 1
          gpos := if s.lenG + 1 < s.nGroups then s.gpos else 0
          gno := if s.lenG + 1 < s.nGroups then s.gno else 0
          phase := if s.lenG + 1 < s.nGroups then .lenStart else .symbol })
  ∧ ∀ s : State, s.phase = .build → Alone s → step s = exec .build s

/-- The canonical table (43_selectors_and_tables.md R169): `perm` holds each symbol once, by length and then by symbol;
`present` the lengths that occur, ascending; and a symbol's code is what every earlier symbol contributes, one unit at
its own length, shifted to this one. "No two symbols share a (length, code) pair". -/
def Obligations.CanonicalTable : Prop :=
  ∀ lens : List Nat, lens ≠ [] →
    let t := buildTable lens
    let before (a b : Nat) : Prop := lens.getD a 0 < lens.getD b 0 ∨ (lens.getD a 0 = lens.getD b 0 ∧ a < b)
    t.lens = lens
    ∧ t.perm.Perm (List.range lens.length) ∧ t.perm.Pairwise before
    ∧ (∀ n, n ∈ t.present ↔ n ∈ lens) ∧ t.present.Pairwise (· < ·)
    ∧ t.minlen ∈ lens ∧ t.maxlen ∈ lens ∧ (∀ n ∈ lens, t.minlen ≤ n ∧ n ≤ t.maxlen)
    ∧ (∀ s < lens.length, t.code.getD s 0 =
        (((List.range lens.length).filter fun r =>
            decide (lens.getD r 0 < lens.getD s 0 ∨ (lens.getD r 0 = lens.getD s 0 ∧ r < s))).map fun r =>
          2 ^ (lens.getD s 0 - lens.getD r 0)).sum)
    ∧ ∀ a < lens.length, ∀ b < lens.length, a ≠ b → lens.getD a 0 = lens.getD b 0 →
        t.code.getD a 0 ≠ t.code.getD b 0

/-! ### Symbols -/

/-- The SYMBOL step (44_symbol_decode.md R180): the exhausted selectors before any bit, the group switch at the start and
every 50 symbols, its writes standing where the match then fails (60_exceptions.md R252). -/
def Obligations.SymbolStep : Prop :=
  ∀ s : State, s.phase = .symbol → Alone s →
    (s.gpos = 0 → s.nSel ≤ s.gno → step s = .next (fail .selectorsExhausted s))
    ∧ (SelectorReady s → ∀ n,
      (∀ i, decode (context (switched s)) (window (switched s)) = .token i n → step s = exec i s)
      ∧ (decode (context (switched s)) (window (switched s)) = .truncated n →
          step s = .next (fail .trunc { switched s with pos := s.pos + BitVec.ofNat 32 n }))
      ∧ ∀ c, decode (context (switched s)) (window (switched s)) = .illegal c n →
          step s = .next (fail c { switched s with pos := s.pos + BitVec.ofNat 32 n }))

/-- RUNA and RUNB (44_symbol_decode.md R182, R183): one digit of weight `reppow` or twice it, the first of a run at
weight base 1. -/
def Obligations.RunTokens : Prop :=
  ∀ s : State, SelectorReady s →
    exec .runa s = .next { symbolRead 0 s with
      rep := s.rep + (if s.rep = 0 then 1 else s.reppow)
      reppow := 2 * (if s.rep = 0 then 1 else s.reppow) }
    ∧ exec .runb s = .next { symbolRead 1 s with
      rep := s.rep + 2 * (if s.rep = 0 then 1 else s.reppow)
      reppow := 2 * (if s.rep = 0 then 1 else s.reppow) }

/-- A run of digits `d_0 d_1 …` has value `Σ d_i · 2^i` (44_symbol_decode.md R183), each value has exactly one digit
string, and nothing but the accumulators changes. -/
def Obligations.RunDigitsAccumulate : Prop :=
  (∀ (ds : List Bool) (s : State), s.rep = 0 → ds ≠ [] →
    ds.foldl digitStep s = { s with rep := digitsValue ds, reppow := 2 ^ ds.length })
  ∧ (∀ ds es : List Bool, digitsValue ds = digitsValue es → ds = es)
  ∧ ∀ n : Nat, 1 ≤ n → ∃ ds, digitsValue ds = n

/-- `FlushRun()` (44_symbol_decode.md R184): the whole run is checked against `blk_max` before any byte is stored. -/
def Obligations.FlushRun : Prop :=
  ∀ s : State,
    (s.rep = 0 → flushRun s = some s)
    ∧ (0 < s.rep → s.size + s.rep ≤ s.blkMax →
      ∃ tt, (∀ k, tt.getD k 0 = if s.size ≤ k ∧ k < s.size + s.rep then s.mtf.getD 0 0 else s.tt.getD k 0) ∧
        flushRun s = some { s with tt := tt, size := s.size + s.rep, rep := 0 })
    ∧ (0 < s.rep → s.blkMax < s.size + s.rep → flushRun s = none)

/-- An MTF symbol (44_symbol_decode.md R185): after the flush, the byte at position `s − 1` is emitted and moves to the
front; a full block fails before anything is stored. -/
def Obligations.MtfToken : Prop :=
  ∀ (sym : Nat) (s u : State), SelectorReady s →
    (flushRun (symbolRead sym s) = none → exec (.mtf sym) s = .next (fail .blockFull (symbolRead sym s)))
    ∧ (flushRun (symbolRead sym s) = some u → u.blkMax < u.size + 1 → exec (.mtf sym) s = .next (fail .blockFull u))
    ∧ (∀ v, flushRun (symbolRead sym s) = some u → u.size + 1 ≤ u.blkMax → u.mtf[sym - 1]? = some v →
      ∃ tt, Stores tt u.tt u.size v 0 ∧
        exec (.mtf sym) s = .next { u with mtf := v :: u.mtf.eraseIdx (sym - 1), tt := tt, size := u.size + 1 })

/-- EOB (44_symbol_decode.md R186): the pending run is flushed and the block goes to its inverse transform. -/
def Obligations.EndOfBlockToken : Prop :=
  ∀ s u : State, SelectorReady s →
    (flushRun (symbolRead (s.alpha - 1) s) = some u → exec .eob s = .next { u with phase := .ibwt })
    ∧ (flushRun (symbolRead (s.alpha - 1) s) = none →
        exec .eob s = .next (fail .blockFull (symbolRead (s.alpha - 1) s)))

/-! ### Inverse transform and final run lengths -/

/-- The pointer check and the bucket pass (45_inverse_bwt.md R200) with the invariants it lists: the counts sum to the
size, the starts are their running sums, each rank is below its bucket's count, and `k ↦ start[tt[k]] + index[k]` is a
permutation of the block's positions. -/
def Obligations.BucketPass : Prop :=
  ∀ s : State,
    (s.size ≤ s.origPtr.toNat → exec .ibwt s = .next (fail .bwtPtrRange s))
    ∧ (s.origPtr.toNat < s.size → ∃ t, exec .ibwt s = .next t
      ∧ t = { s with
          bucketCount := t.bucketCount, bucketStart := t.bucketStart, bucketIndex := t.bucketIndex
          dst := t.dst, phase := .rle }
      ∧ (∀ b < 256, t.bucketCount.getD b 0 = ((List.range s.size).filter fun k => (src s k).toNat == b).length)
      ∧ t.bucketCount.sum = s.size
      ∧ (∀ b < 256, t.bucketStart.getD b 0 = (t.bucketCount.take b).sum)
      ∧ (∀ k < s.size, t.bucketIndex.getD k 0 = ((List.range k).filter fun j => src s j == src s k).length)
      ∧ (∀ k < s.size, t.bucketIndex.getD k 0 < t.bucketCount.getD (src s k).toNat 0)
      ∧ ((List.range s.size).map (chain t)).Perm (List.range s.size))

/-- The reconstruction (45_inverse_bwt.md R201): from the last byte down, `dst` holds the bytes met by chasing the
permutation from the pointer, and the range check never fires: with the pointer in range, IBWT always reaches RLE. -/
def Obligations.Reconstruction : Prop :=
  ∀ s : State, s.origPtr.toNat < s.size → ∃ t, exec .ibwt s = .next t ∧ t.phase = .rle ∧ t.err = s.err
    ∧ (∀ m < s.size, t.dst.getD (s.size - 1 - m) 0 = src s ((chain t)^[m] s.origPtr.toNat))
    ∧ ∀ k, s.size ≤ k → t.dst.getD k 0 = s.dst.getD k 0

/-- The runs RLE emits are those of the scan loop of 46_final_rle.md R210, position by position. -/
def Obligations.RunsAreTheScanLoop : Prop :=
  ∀ dst : List Byte, rleRuns dst = scan dst dst.length 0

/-- RLE (46_final_rle.md R210): when the block's final bytes fit the room left, they are written from OUT_LEN upward and
every other byte of OUT_MEM stays, `fin_len` is their number and `bcrc` their CRC-32; when they do not fit, OUT_CAP fails,
with every byte outside `[OUT_LEN, OUT_CAP)` as before. -/
def Obligations.RleOperation : Prop :=
  ∀ s : State,
    let out := finalBytes (block s)
    (s.outLen.toNat + out.length ≤ s.outCap.toNat →
      ∃ t, exec .rle s = .next t
        ∧ t = { s with outMem := t.outMem, finLen := out.length, bcrc := crc32 out, phase := .check }
        ∧ ∀ a, Memory.read .output t.outMem a =
            if s.outLen.toNat ≤ a ∧ a < s.outLen.toNat + out.length then out.getD (a - s.outLen.toNat) 0
            else Memory.read .output s.outMem a)
    ∧ (s.outLen.toNat ≤ s.outCap.toNat → s.outCap.toNat < s.outLen.toNat + out.length →
      ∃ u, exec .rle s = .next (fail .outCap u)
        ∧ u = { s with outMem := u.outMem, finLen := u.finLen }
        ∧ s.outLen.toNat + u.finLen ≤ s.outCap.toNat
        ∧ ∀ a, a < s.outLen.toNat ∨ s.outCap.toNat ≤ a → Memory.read .output u.outMem a = Memory.read .output s.outMem a)

/-! ### CRC, check and commit -/

/-- The check values of 47_crc.md R220 and table entries of R221. -/
def Obligations.CrcCheckValues : Prop :=
  crc32 [] = 0x00000000
  ∧ crc32 [0x61] = 0x19939B6B
  ∧ crc32 [0x68, 0x65, 0x6C, 0x6C, 0x6F] = 0x1931653D
  ∧ crc32 [0x31, 0x32, 0x33, 0x34, 0x35, 0x36, 0x37, 0x38, 0x39] = 0xFC891918
  ∧ crc32 [0xFF] = 0x000000FF
  ∧ crcTable 0x01 = 0x04C11DB7 ∧ crcTable 0x80 = 0x690CE0EE ∧ crcTable 0xFF = 0xB1F740B4

/-- One byte step by the lookup table equals the bitwise form for every register value and byte (47_crc.md R221). -/
def Obligations.CrcTableStep : Prop :=
  ∀ (c : U32) (b : Byte), crcStep c b = (c <<< 8) ^^^ crcTable ((c >>> 24).setWidth 8 ^^^ b)

/-- CHECK (47_crc.md R222), `Commit()` (R223) and the stream combine (R224). The model's spans of UNSPECIFIED bytes
are UnspecifiedOutputBytes' matter (log 7). That a commit keeps the block's working state, which the spec discards, is the
model's choice (log 8). -/
def Obligations.CheckOperation : Prop :=
  (∀ s : State, s.bcrc = s.storedCrc →
    ∃ free, exec .check s = .next { s with
        blockCrcCalc := s.bcrc
        outLen := s.outLen + BitVec.ofNat 32 s.finLen
        streamCrc := ((s.streamCrc <<< 1) ||| (s.streamCrc >>> 31)) ^^^ s.bcrc
        blockCount := s.blockCount + 1
        phase := .magic
        outFree := free })
  ∧ (∀ s : State, s.bcrc ≠ s.storedCrc → exec .check s = .next (fail .blockCrc { s with blockCrcCalc := s.bcrc }))
  ∧ ∀ s : State, s.phase = .check → Alone s → step s = exec .check s

/-! ### Host interface -/

/-- CTRL writes (48_host_interface.md R232) and `START()` (R233): IRQ_EN always takes bit 1; bit 0 starts a run when idle
and does nothing when busy. That START keeps the working state of blocks, which the spec leaves UNSPECIFIED from there to
the first BLOCK, is the model's choice (log 8), and so is the number `runIndex` of the run's free draws (log 7). -/
def Obligations.ControlWrite : Prop :=
  ∀ (v : U32) (s : State) (i : Instr), i = .start v ∨ i = .irqEnSet v →
    (v.getLsbD 0 = true → s.busy = false → exec i s = .next { s with
      irqEn := v.getLsbD 1
      busy := true, done := false, err := false, errKind := 0, errCause := 0, errBitpos := 0
      outLen := 0, streamCrc := 0, blockCount := 0, blockCrcCalc := 0, blockCrcStored := 0
      blockMax := 0, blkMax := 0, pos := 0, phase := .header
      runIndex := s.runIndex + 1 })
    ∧ (v.getLsbD 0 = false ∨ s.busy = true → exec i s = .next { s with irqEn := v.getLsbD 1 })

/-- DONE_CLR (48_host_interface.md R234): bit 1 clears DONE, every other bit is ignored. -/
def Obligations.DoneClear : Prop :=
  ∀ (v : U32) (s : State),
    (v.getLsbD 1 = true → exec (.doneClr v) s = .next { s with done := false })
    ∧ (v.getLsbD 1 = false → exec (.doneClr v) s = .next s)

/-- IN_LEN and OUT_CAP writes (48_host_interface.md R235, R236): the written value or the memory's size, whichever is
less, while idle; nothing while busy. -/
def Obligations.LengthWrites : Prop :=
  ∀ (v : U32) (s : State),
    (s.busy = true → exec (.inLenSet v) s = .next s ∧ exec (.outCapSet v) s = .next s)
    ∧ (s.busy = false → s.cfg.inMemBytes < 2 ^ 32 →
      ∃ n m : U32, n.toNat = min v.toNat s.cfg.inMemBytes ∧ m.toNat = min v.toNat s.cfg.outMemBytes.toNat
        ∧ exec (.inLenSet v) s = .next { s with inLen := n } ∧ exec (.outCapSet v) s = .next { s with outCap := m })

/-- Register reads (48_host_interface.md R230) of every offset, CTRL and STATUS bit by bit (10_state.md R23, R24),
reserved offsets 0; nothing else changes. -/
def Obligations.RegisterRead : Prop :=
  ∀ (s : State) (off : Nat) (rest : List Turn), off % 4 = 0 → off < 256 →
    ∃ w : U32,
      step { s with schedule := .host (.regRead (s.cfg.regBase + off)) :: rest }
        = .next { s with schedule := rest, busData := w }
      ∧ (off = 0x00 → ∀ k < 32, w.getLsbD k = (decide (k = 1) && s.irqEn))
      ∧ (off = 0x04 → w.getLsbD 0 = s.busy ∧ w.getLsbD 1 = s.done ∧ w.getLsbD 2 = s.err
          ∧ (∀ k < 4, w.getLsbD (8 + k) = s.errKind.getLsbD k) ∧ (∀ k < 8, w.getLsbD (16 + k) = s.errCause.getLsbD k)
          ∧ ∀ k, (3 ≤ k ∧ k < 8) ∨ (12 ≤ k ∧ k < 16) ∨ 24 ≤ k → w.getLsbD k = false)
      ∧ (off = 0x08 → w = s.inLen) ∧ (off = 0x0C → w = s.outCap) ∧ (off = 0x10 → w = s.outLen)
      ∧ (off = 0x14 → w = s.streamCrc) ∧ (off = 0x18 → w = s.errBitpos) ∧ (off = 0x1C → w = s.blockCount)
      ∧ (off = 0x20 → w = s.blockCrcCalc) ∧ (off = 0x24 → w = s.blockCrcStored) ∧ (off = 0x28 → w = s.blockMax)
      ∧ (0x2C ≤ off → w = 0)

/-- Register writes by offset (48_host_interface.md R231): the four writable registers run their command, every other
write is ignored; an access outside the window or not at a multiple of 4 is refused (20_memory.md R67, log 9). -/
def Obligations.RegisterWrite : Prop :=
  ∀ (s : State) (v : U32) (rest : List Turn),
    let idle := { s with schedule := rest }
    let write (addr : Nat) := step { s with schedule := .host (.regWrite addr v) :: rest }
    write s.cfg.regBase = exec (if v.getLsbD 0 then .start v else .irqEnSet v) idle
    ∧ write (s.cfg.regBase + 0x04) = (if v.getLsbD 1 then exec (.doneClr v) idle else .next idle)
    ∧ write (s.cfg.regBase + 0x08) = exec (.inLenSet v) idle
    ∧ write (s.cfg.regBase + 0x0C) = exec (.outCapSet v) idle
    ∧ (∀ off, 0x10 ≤ off → off < 0x100 → off % 4 = 0 → write (s.cfg.regBase + off) = .next idle)
    ∧ (∀ addr, addr < s.cfg.regBase ∨ s.cfg.regBase + 0x100 ≤ addr ∨ (addr - s.cfg.regBase) % 4 ≠ 0 →
        write addr = .refused .registerAccess)

/-- Host writes to the memories (48_host_interface.md R237): one byte, while idle, specified from then on; the model gives
no such move while busy (70_reset_and_hazards.md R290, log 9) and faults on an address that does not exist. -/
def Obligations.HostMemoryWrites : Prop :=
  ∀ (s : State) (a : Nat) (b : Byte) (rest : List Turn),
    let inWrite := step { s with schedule := .host (.inWrite a b) :: rest }
    let outWrite := step { s with schedule := .host (.outWrite a b) :: rest }
    (a < s.cfg.inMemBytes → s.busy = false → ∃ m, inWrite = .next { s with schedule := rest, inMem := m }
        ∧ ∀ x, Memory.read .input m x = if x = a then b else Memory.read .input s.inMem x)
    ∧ (a < s.cfg.outMemBytes.toNat → s.busy = false →
        ∃ m free, outWrite = .next { s with schedule := rest, outMem := m, outFree := free }
          ∧ (∀ x, Memory.read .output m x = if x = a then b else Memory.read .output s.outMem x)
          ∧ ∀ x, leftBy x free = if x = a then none else leftBy x s.outFree)
    ∧ (a < s.cfg.inMemBytes → s.busy = true → inWrite = .refused .hostWriteWhileBusy)
    ∧ (a < s.cfg.outMemBytes.toNat → s.busy = true → outWrite = .refused .hostWriteWhileBusy)
    ∧ (s.cfg.inMemBytes ≤ a → inWrite = .fault .noSuchByte)
    ∧ (s.cfg.outMemBytes.toNat ≤ a → outWrite = .fault .noSuchByte)

/-- Host reads of OUT_MEM (48_host_interface.md R237, 20_memory.md R66): the byte, where R66 specifies it (one
nothing has written is free too, log 3); a free value where it does not, the model's choice of form (log 7). A read
has no side effect (20_memory.md R68): nothing but what the read returned changes, and reading again returns the same. -/
def Obligations.HostOutputRead : Prop :=
  ∀ (s : State) (a : Nat) (rest : List Turn), a < s.cfg.outMemBytes.toNat →
    let read (u : State) := step { u with schedule := .host (.outRead a) :: rest }
    let inRun := s.busy = true ∧ s.outLen.toNat ≤ a ∧ a < s.outCap.toNat
    ∃ (b : Byte) (t : State), t = { s with schedule := rest, busData := b.setWidth 32 } ∧ read s = .next t ∧ read t = .next t
      ∧ (inRun → b = Config.runByte s.runIndex s.pos s.phase a)
      ∧ (¬ inRun → ∀ run, leftBy a s.outFree = some run → b = Config.leftByte run a)
      ∧ (¬ inRun → leftBy a s.outFree = none → b = Memory.read .output s.outMem a)

/-! ### Errors, interrupt, reset -/

/-- `Fail(K, C)` (60_exceptions.md R252) writes the error fields, ends the run and changes nothing else of the engine; the
position is R254's; kinds and causes have the codes of R250 and R251. That the working state of the block, which R252
leaves UNSPECIFIED after a failure, is kept is the model's choice (log 8); the spans of UNSPECIFIED bytes of OUT_MEM are
UnspecifiedOutputBytes' matter (log 7). -/
def Obligations.FailEndsTheRun : Prop :=
  (∀ (c : Cause) (s : State), ∃ free,
    fail c s = { s with
        errKind := kindCode (causeKind c)
        errCause := causeCode c
        errBitpos := if c = .hdrShort then 0 else s.pos
        err := true, done := true, busy := false, phase := .idle
        outFree := free })
  ∧ ∀ c : Cause, ((kindCode (causeKind c)).toNat, (causeCode c).toNat) = match c with
    | .hdrShort => (1, 0x01) | .hdrMagic => (1, 0x02) | .hdrDigit => (1, 0x03) | .badMagic => (1, 0x04)
    | .noSymbols => (1, 0x05) | .badNgroups => (1, 0x06) | .badNselectors => (1, 0x07)
    | .tooManySelectors => (1, 0x08) | .selectorRun => (1, 0x09) | .badCodeLen => (1, 0x0A)
    | .trunc => (2, 0x10)
    | .noCodeMatch => (3, 0x20) | .selectorsExhausted => (3, 0x21) | .bwtPtrRange => (3, 0x22)
    | .bwtIndexRange => (3, 0x23)
    | .blockFull => (4, 0x30) | .outCap => (4, 0x31)
    | .blockCrc => (5, 0x40) | .streamCrc => (5, 0x41)
    | .randomised => (6, 0x50)

/-- The interrupt line (60_exceptions.md R260): the AND of the two register bits, raised by either end of a run, lowered
by DONE_CLR, by START and by IRQ_EN = 0, and low after reset. -/
def Obligations.InterruptLine : Prop :=
  (∀ s : State, irq s = ((regRead 0x04 s).getLsbD 1 && (regRead 0x00 s).getLsbD 1))
  ∧ (∀ (s : State) (c : Cause), irq (fail c s) = s.irqEn ∧ irq (finish s) = s.irqEn)
  ∧ (∀ s t : State, exec (.doneClr 2) s = .next t → irq t = false)
  ∧ (∀ (s t : State) (v : U32), v.getLsbD 1 = false → exec (.irqEnSet v) s = .next t → irq t = false)
  ∧ (∀ (s t : State) (v : U32), v.getLsbD 0 = true → s.busy = false → exec (.start v) s = .next t → irq t = false)
  ∧ irq State.reset = false

/-- Reset (70_reset_and_hazards.md R280, R281) at any time: every register reads 0, the engine is idle, no interrupt is
raised, nothing is committed, the memories stay. -/
def Obligations.ResetInput : Prop :=
  (∀ off, regRead off State.reset = 0) ∧ State.reset.phase = .idle ∧
  ∀ (s : State) (rest : List Turn), ∃ t, step { s with schedule := .reset :: rest } = .next t
    ∧ (∀ off, regRead off t = 0) ∧ t.phase = .idle ∧ irq t = false
    ∧ t.inMem = s.inMem ∧ t.outMem = s.outMem ∧ t.cfg = s.cfg ∧ t.schedule = rest

/-- Which bytes of OUT_MEM a run leaves UNSPECIFIED, and whose they are (20_memory.md R66, 70_reset_and_hazards.md R281;
kept as the spans `outFree`, the model's choice, log 7): a failed run leaves those from OUT_LEN to OUT_CAP, a reset
that aborts one all below OUT_CAP; a commit makes the block's bytes specified; every other byte stays as it was, and at a
successful end all do. -/
def Obligations.UnspecifiedOutputBytes : Prop :=
  ∀ (s t : State) (a : Nat),
    (∀ c, leftBy a (fail c s).outFree =
        if s.outLen.toNat ≤ a ∧ a < s.outCap.toNat then some s.runIndex else leftBy a s.outFree)
    ∧ leftBy a (finish s).outFree = leftBy a s.outFree
    ∧ (s.bcrc = s.storedCrc → exec .check s = .next t → leftBy a t.outFree =
        if s.outLen.toNat ≤ a ∧ a < s.outLen.toNat + s.finLen then none else leftBy a s.outFree)
    ∧ ∀ rest, step { s with schedule := .reset :: rest } = .next t → leftBy a t.outFree =
        if s.busy = true ∧ a < s.outCap.toNat then some s.runIndex else leftBy a s.outFree

/-! ### Frames and whole-machine rules -/

/-- No instruction faults or is refused: every one answers a next state, in every state (30_encoding.md R97, R98). -/
def Obligations.EveryInstructionAnswersANextState : Prop :=
  ∀ (i : Instr) (s : State), ∃ t, exec i s = .next t

/-- What the engine never writes (10_state.md R25, R26, 20_memory.md R63): a token or internal operation leaves IN_MEM,
IN_LEN, OUT_CAP, IRQ_EN and the parameters alone, and so does each host command but for the register it writes. -/
def Obligations.InputsChangeOnlyByTheirWrites : Prop :=
  ∀ (i : Instr) (s t : State), exec i s = .next t →
    t.cfg = s.cfg ∧ (∀ a, Memory.read .input t.inMem a = Memory.read .input s.inMem a)
    ∧ ((∀ v, i ≠ .inLenSet v) → t.inLen = s.inLen)
    ∧ ((∀ v, i ≠ .outCapSet v) → t.outCap = s.outCap)
    ∧ ((∀ v, i ≠ .start v ∧ i ≠ .irqEnSet v) → t.irqEn = s.irqEn)

/-- "No token writes any of them except as part of completion" (10_state.md R33): after a token that does not end the
run, BUSY, DONE and ERR, and the error fields with them, are as before. -/
def Obligations.TokensWriteNoFlags : Prop :=
  ∀ (i : Instr) (s t : State), ¬ HostCommand i → exec i s = .next t → t.phase ≠ .idle →
    t.busy = s.busy ∧ t.done = s.done ∧ t.err = s.err ∧ t.errKind = s.errKind ∧ t.errCause = s.errCause
      ∧ t.errBitpos = s.errBitpos

/-- Every instruction but RLE leaves every byte of OUT_MEM as it was, and RLE writes only at addresses from OUT_LEN to
OUT_CAP (20_memory.md R63). -/
def Obligations.OutputMemoryFrame : Prop :=
  ∀ (i : Instr) (s t : State), exec i s = .next t →
    (i ≠ .rle → ∀ a, Memory.read .output t.outMem a = Memory.read .output s.outMem a)
    ∧ (i = .rle → s.outLen.toNat ≤ s.outCap.toNat →
        ∀ a, a < s.outLen.toNat ∨ s.outCap.toNat ≤ a → Memory.read .output t.outMem a = Memory.read .output s.outMem a)

/-- OUT_LEN, STREAM_CRC and BLOCK_COUNT change only at a block commit and at START (10_state.md R27, R28, R30). -/
def Obligations.ResultsChangeOnlyAtCommit : Prop :=
  ∀ (i : Instr) (s t : State), exec i s = .next t →
    t.outLen ≠ s.outLen ∨ t.streamCrc ≠ s.streamCrc ∨ t.blockCount ≠ s.blockCount →
    (i = .check ∧ s.bcrc = s.storedCrc ∧ t.phase = .magic)
      ∨ (∃ v, (i = .start v ∨ i = .irqEnSet v) ∧ v.getLsbD 0 = true ∧ s.busy = false ∧ t.phase = .header)

/-- The engine's control flow stays in the phase relation of 41_stream_control.md R128: an engine step from a busy phase
goes to one of its successors or ends the run. (`successors` also lets MAP1 complete the bitmap, which takes a `seq`
no run has there, BLOCK having emptied it.) -/
def Obligations.PhasesFollowTheTransitionTable : Prop :=
  ∀ s t : State, Alone s → s.phase ≠ .idle → step s = .next t → t.phase = .idle ∨ t.phase ∈ successors s.phase

/-- "Each token advances it by exactly the number of bits the token consumes" (10_state.md R21): a decoded token that does
not end the run moves the cursor by the decoder's count, a symbol in its SYMBOL step too; an internal operation moves
it by none. -/
def Obligations.TokensAdvanceByTheirLength : Prop :=
  ∀ (s t : State) (i : Instr) (n : Nat), exec i s = .next t → t.phase ≠ .idle →
    (s.phase ≠ .symbol → decode (context s) (window s) = .token i n → t.pos = s.pos + BitVec.ofNat 32 n)
    ∧ (s.phase = .symbol → SelectorReady s → decode (context (switched s)) (window (switched s)) = .token i n →
        t.pos = s.pos + BitVec.ofNat 32 n)

/-! ### Invariants -/

/-- The machine's and the block's invariants hold at reset. It rests on what State.reset chooses where the spec gives no
value: the parameters (log 1) and the working state (log 2). -/
def Obligations.ResetMeetsTheInvariants : Prop := Inv State.reset ∧ BlockInv State.reset

/-- Every step, of either agent, keeps the machine's invariant: BUSY with the phase, canonical memories, the cursor in
the input, the output in its capacity, legal error fields (10_state.md R21, R24, R25, R26, R40). -/
def Obligations.StepKeepsInv : Prop :=
  ∀ s t : State, Inv s → step s = .next t → Inv t

/-- Every step keeps the block's invariant: recorded code lengths, built tables, alphabet and MTF tables, decoded size
(43_selectors_and_tables.md R161, R166; 44_symbol_decode.md R184, R185). -/
def Obligations.StepKeepsBlockInv : Prop :=
  ∀ s t : State, BlockInv s → step s = .next t → BlockInv t

/-- Every run ends (41_stream_control.md R129, 70_reset_and_hazards.md R293): from any busy state that meets the
invariants, the engine alone is idle again within four steps for each bit left, and four. -/
def Obligations.EveryRunEnds : Prop :=
  ∀ s : State, Inv s → BlockInv s → Alone s →
    ∃ k t, k ≤ 4 * bitsLeft s + 4 ∧ Host.Core.run Sys2Proof.core k s = .next t ∧ t.phase = .idle

/-- Bytes at and beyond IN_LEN "are never read and play no part in any result" (20_memory.md R62): an engine step is the
same whatever they are. -/
def Obligations.BytesBeyondInputPlayNoPart : Prop :=
  ∀ (s t : State) (m : Memory), Alone s → AgreeBelow .input s.inLen.toNat m s.inMem → step s = .next t →
    step { s with inMem := m } = .next { t with inMem := m }

/-- "The engine never reads `OUT_MEM`" (20_memory.md R63): with any other output memory an engine step makes the same
state but for that memory, and leaves the same byte wherever it wrote or the two agreed. -/
def Obligations.OutputMemoryIsNeverRead : Prop :=
  ∀ (s t : State) (m : Memory), Alone s → step s = .next t →
    ∃ m', step { s with outMem := m } = .next { t with outMem := m' }
      ∧ ∀ a, Memory.read .output m a = Memory.read .output s.outMem a
            ∨ Memory.read .output t.outMem a ≠ Memory.read .output s.outMem a →
          Memory.read .output m' a = Memory.read .output t.outMem a

/-- Nothing of an earlier run survives START but IN_LEN, OUT_CAP, the parameters and the input (48_host_interface.md
R233): two runs over the same input and lengths, started in whatever idle states, show the host the same registers after
every number of engine steps, and the same committed bytes. -/
def Obligations.RunsDependOnlyOnTheirInputs : Prop :=
  ∀ (a b a' b' : State) (v : U32), Inv a → Inv b → Alone a → Alone b → a.busy = false → b.busy = false → v.getLsbD 0 = true →
    a.cfg = b.cfg → a.inLen = b.inLen → a.outCap = b.outCap → AgreeBelow .input a.inLen.toNat a.inMem b.inMem →
    exec (.start v) a = .next a' → exec (.start v) b = .next b' →
    ∀ (k : Nat) (ta tb : State),
      Host.Core.run Sys2Proof.core k a' = .next ta → Host.Core.run Sys2Proof.core k b' = .next tb →
      (∀ off, regRead off ta = regRead off tb) ∧ irq ta = irq tb
        ∧ AgreeBelow .output ta.outLen.toNat ta.outMem tb.outMem
end

