-- ==== Sys2Proof/Laws/State.lean ====
section
/-! SUPPORT. One lemma per field per named update of State, true by rfl, so that no proof unfolds a record update. -/

namespace Sys2Proof.Machine

section
variable (n : Nat) (s : State)
@[simp] theorem advance_cfg : (advance n s).cfg = s.cfg := rfl
@[simp] theorem advance_irqEn : (advance n s).irqEn = s.irqEn := rfl
@[simp] theorem advance_busy : (advance n s).busy = s.busy := rfl
@[simp] theorem advance_done : (advance n s).done = s.done := rfl
@[simp] theorem advance_err : (advance n s).err = s.err := rfl
@[simp] theorem advance_errKind : (advance n s).errKind = s.errKind := rfl
@[simp] theorem advance_errCause : (advance n s).errCause = s.errCause := rfl
@[simp] theorem advance_inLen : (advance n s).inLen = s.inLen := rfl
@[simp] theorem advance_outCap : (advance n s).outCap = s.outCap := rfl
@[simp] theorem advance_outLen : (advance n s).outLen = s.outLen := rfl
@[simp] theorem advance_streamCrc : (advance n s).streamCrc = s.streamCrc := rfl
@[simp] theorem advance_errBitpos : (advance n s).errBitpos = s.errBitpos := rfl
@[simp] theorem advance_blockCount : (advance n s).blockCount = s.blockCount := rfl
@[simp] theorem advance_blockCrcCalc : (advance n s).blockCrcCalc = s.blockCrcCalc := rfl
@[simp] theorem advance_blockCrcStored : (advance n s).blockCrcStored = s.blockCrcStored := rfl
@[simp] theorem advance_blockMax : (advance n s).blockMax = s.blockMax := rfl
@[simp] theorem advance_phase : (advance n s).phase = s.phase := rfl
@[simp] theorem advance_pos : (advance n s).pos = s.pos + BitVec.ofNat 32 n := rfl
@[simp] theorem advance_blkMax : (advance n s).blkMax = s.blkMax := rfl
@[simp] theorem advance_storedCrc : (advance n s).storedCrc = s.storedCrc := rfl
@[simp] theorem advance_origPtr : (advance n s).origPtr = s.origPtr := rfl
@[simp] theorem advance_map1 : (advance n s).map1 = s.map1 := rfl
@[simp] theorem advance_mapI : (advance n s).mapI = s.mapI := rfl
@[simp] theorem advance_seq : (advance n s).seq = s.seq := rfl
@[simp] theorem advance_nInUse : (advance n s).nInUse = s.nInUse := rfl
@[simp] theorem advance_alpha : (advance n s).alpha = s.alpha := rfl
@[simp] theorem advance_nGroups : (advance n s).nGroups = s.nGroups := rfl
@[simp] theorem advance_nSel : (advance n s).nSel = s.nSel := rfl
@[simp] theorem advance_selI : (advance n s).selI = s.selI := rfl
@[simp] theorem advance_selMtf : (advance n s).selMtf = s.selMtf := rfl
@[simp] theorem advance_lenG : (advance n s).lenG = s.lenG := rfl
@[simp] theorem advance_lenS : (advance n s).lenS = s.lenS := rfl
@[simp] theorem advance_curLen : (advance n s).curLen = s.curLen := rfl
@[simp] theorem advance_gpos : (advance n s).gpos = s.gpos := rfl
@[simp] theorem advance_gno : (advance n s).gno = s.gno := rfl
@[simp] theorem advance_active : (advance n s).active = s.active := rfl
@[simp] theorem advance_rep : (advance n s).rep = s.rep := rfl
@[simp] theorem advance_reppow : (advance n s).reppow = s.reppow := rfl
@[simp] theorem advance_mtf : (advance n s).mtf = s.mtf := rfl
@[simp] theorem advance_size : (advance n s).size = s.size := rfl
@[simp] theorem advance_bcrc : (advance n s).bcrc = s.bcrc := rfl
@[simp] theorem advance_finLen : (advance n s).finLen = s.finLen := rfl
@[simp] theorem advance_selector : (advance n s).selector = s.selector := rfl
@[simp] theorem advance_lens : (advance n s).lens = s.lens := rfl
@[simp] theorem advance_tbl : (advance n s).tbl = s.tbl := rfl
@[simp] theorem advance_tt : (advance n s).tt = s.tt := rfl
@[simp] theorem advance_bucketCount : (advance n s).bucketCount = s.bucketCount := rfl
@[simp] theorem advance_bucketStart : (advance n s).bucketStart = s.bucketStart := rfl
@[simp] theorem advance_bucketIndex : (advance n s).bucketIndex = s.bucketIndex := rfl
@[simp] theorem advance_dst : (advance n s).dst = s.dst := rfl
@[simp] theorem advance_inMem : (advance n s).inMem = s.inMem := rfl
@[simp] theorem advance_outMem : (advance n s).outMem = s.outMem := rfl
@[simp] theorem advance_outFree : (advance n s).outFree = s.outFree := rfl
@[simp] theorem advance_runIndex : (advance n s).runIndex = s.runIndex := rfl
@[simp] theorem advance_schedule : (advance n s).schedule = s.schedule := rfl
@[simp] theorem advance_busData : (advance n s).busData = s.busData := rfl
end

section
variable (c : Cause) (s : State)
@[simp] theorem fail_cfg : (fail c s).cfg = s.cfg := rfl
@[simp] theorem fail_irqEn : (fail c s).irqEn = s.irqEn := rfl
@[simp] theorem fail_busy : (fail c s).busy = false := rfl
@[simp] theorem fail_done : (fail c s).done = true := rfl
@[simp] theorem fail_err : (fail c s).err = true := rfl
@[simp] theorem fail_errKind : (fail c s).errKind = kindCode (causeKind c) := rfl
@[simp] theorem fail_errCause : (fail c s).errCause = causeCode c := rfl
@[simp] theorem fail_inLen : (fail c s).inLen = s.inLen := rfl
@[simp] theorem fail_outCap : (fail c s).outCap = s.outCap := rfl
@[simp] theorem fail_outLen : (fail c s).outLen = s.outLen := rfl
@[simp] theorem fail_streamCrc : (fail c s).streamCrc = s.streamCrc := rfl
@[simp] theorem fail_errBitpos : (fail c s).errBitpos = failPosition c s := rfl
@[simp] theorem fail_blockCount : (fail c s).blockCount = s.blockCount := rfl
@[simp] theorem fail_blockCrcCalc : (fail c s).blockCrcCalc = s.blockCrcCalc := rfl
@[simp] theorem fail_blockCrcStored : (fail c s).blockCrcStored = s.blockCrcStored := rfl
@[simp] theorem fail_blockMax : (fail c s).blockMax = s.blockMax := rfl
@[simp] theorem fail_phase : (fail c s).phase = .idle := rfl
@[simp] theorem fail_pos : (fail c s).pos = s.pos := rfl
@[simp] theorem fail_blkMax : (fail c s).blkMax = s.blkMax := rfl
@[simp] theorem fail_storedCrc : (fail c s).storedCrc = s.storedCrc := rfl
@[simp] theorem fail_origPtr : (fail c s).origPtr = s.origPtr := rfl
@[simp] theorem fail_map1 : (fail c s).map1 = s.map1 := rfl
@[simp] theorem fail_mapI : (fail c s).mapI = s.mapI := rfl
@[simp] theorem fail_seq : (fail c s).seq = s.seq := rfl
@[simp] theorem fail_nInUse : (fail c s).nInUse = s.nInUse := rfl
@[simp] theorem fail_alpha : (fail c s).alpha = s.alpha := rfl
@[simp] theorem fail_nGroups : (fail c s).nGroups = s.nGroups := rfl
@[simp] theorem fail_nSel : (fail c s).nSel = s.nSel := rfl
@[simp] theorem fail_selI : (fail c s).selI = s.selI := rfl
@[simp] theorem fail_selMtf : (fail c s).selMtf = s.selMtf := rfl
@[simp] theorem fail_lenG : (fail c s).lenG = s.lenG := rfl
@[simp] theorem fail_lenS : (fail c s).lenS = s.lenS := rfl
@[simp] theorem fail_curLen : (fail c s).curLen = s.curLen := rfl
@[simp] theorem fail_gpos : (fail c s).gpos = s.gpos := rfl
@[simp] theorem fail_gno : (fail c s).gno = s.gno := rfl
@[simp] theorem fail_active : (fail c s).active = s.active := rfl
@[simp] theorem fail_rep : (fail c s).rep = s.rep := rfl
@[simp] theorem fail_reppow : (fail c s).reppow = s.reppow := rfl
@[simp] theorem fail_mtf : (fail c s).mtf = s.mtf := rfl
@[simp] theorem fail_size : (fail c s).size = s.size := rfl
@[simp] theorem fail_bcrc : (fail c s).bcrc = s.bcrc := rfl
@[simp] theorem fail_finLen : (fail c s).finLen = s.finLen := rfl
@[simp] theorem fail_selector : (fail c s).selector = s.selector := rfl
@[simp] theorem fail_lens : (fail c s).lens = s.lens := rfl
@[simp] theorem fail_tbl : (fail c s).tbl = s.tbl := rfl
@[simp] theorem fail_tt : (fail c s).tt = s.tt := rfl
@[simp] theorem fail_bucketCount : (fail c s).bucketCount = s.bucketCount := rfl
@[simp] theorem fail_bucketStart : (fail c s).bucketStart = s.bucketStart := rfl
@[simp] theorem fail_bucketIndex : (fail c s).bucketIndex = s.bucketIndex := rfl
@[simp] theorem fail_dst : (fail c s).dst = s.dst := rfl
@[simp] theorem fail_inMem : (fail c s).inMem = s.inMem := rfl
@[simp] theorem fail_outMem : (fail c s).outMem = s.outMem := rfl
@[simp] theorem fail_outFree : (fail c s).outFree = spanAdd s.outLen.toNat s.outCap.toNat s.runIndex s.outFree := rfl
@[simp] theorem fail_runIndex : (fail c s).runIndex = s.runIndex := rfl
@[simp] theorem fail_schedule : (fail c s).schedule = s.schedule := rfl
@[simp] theorem fail_busData : (fail c s).busData = s.busData := rfl
end

section
variable (s : State)
@[simp] theorem finish_cfg : (finish s).cfg = s.cfg := rfl
@[simp] theorem finish_irqEn : (finish s).irqEn = s.irqEn := rfl
@[simp] theorem finish_busy : (finish s).busy = false := rfl
@[simp] theorem finish_done : (finish s).done = true := rfl
@[simp] theorem finish_err : (finish s).err = false := rfl
@[simp] theorem finish_errKind : (finish s).errKind = 0 := rfl
@[simp] theorem finish_errCause : (finish s).errCause = 0 := rfl
@[simp] theorem finish_inLen : (finish s).inLen = s.inLen := rfl
@[simp] theorem finish_outCap : (finish s).outCap = s.outCap := rfl
@[simp] theorem finish_outLen : (finish s).outLen = s.outLen := rfl
@[simp] theorem finish_streamCrc : (finish s).streamCrc = s.streamCrc := rfl
@[simp] theorem finish_errBitpos : (finish s).errBitpos = s.errBitpos := rfl
@[simp] theorem finish_blockCount : (finish s).blockCount = s.blockCount := rfl
@[simp] theorem finish_blockCrcCalc : (finish s).blockCrcCalc = s.blockCrcCalc := rfl
@[simp] theorem finish_blockCrcStored : (finish s).blockCrcStored = s.blockCrcStored := rfl
@[simp] theorem finish_blockMax : (finish s).blockMax = s.blockMax := rfl
@[simp] theorem finish_phase : (finish s).phase = .idle := rfl
@[simp] theorem finish_pos : (finish s).pos = s.pos := rfl
@[simp] theorem finish_blkMax : (finish s).blkMax = s.blkMax := rfl
@[simp] theorem finish_storedCrc : (finish s).storedCrc = s.storedCrc := rfl
@[simp] theorem finish_origPtr : (finish s).origPtr = s.origPtr := rfl
@[simp] theorem finish_map1 : (finish s).map1 = s.map1 := rfl
@[simp] theorem finish_mapI : (finish s).mapI = s.mapI := rfl
@[simp] theorem finish_seq : (finish s).seq = s.seq := rfl
@[simp] theorem finish_nInUse : (finish s).nInUse = s.nInUse := rfl
@[simp] theorem finish_alpha : (finish s).alpha = s.alpha := rfl
@[simp] theorem finish_nGroups : (finish s).nGroups = s.nGroups := rfl
@[simp] theorem finish_nSel : (finish s).nSel = s.nSel := rfl
@[simp] theorem finish_selI : (finish s).selI = s.selI := rfl
@[simp] theorem finish_selMtf : (finish s).selMtf = s.selMtf := rfl
@[simp] theorem finish_lenG : (finish s).lenG = s.lenG := rfl
@[simp] theorem finish_lenS : (finish s).lenS = s.lenS := rfl
@[simp] theorem finish_curLen : (finish s).curLen = s.curLen := rfl
@[simp] theorem finish_gpos : (finish s).gpos = s.gpos := rfl
@[simp] theorem finish_gno : (finish s).gno = s.gno := rfl
@[simp] theorem finish_active : (finish s).active = s.active := rfl
@[simp] theorem finish_rep : (finish s).rep = s.rep := rfl
@[simp] theorem finish_reppow : (finish s).reppow = s.reppow := rfl
@[simp] theorem finish_mtf : (finish s).mtf = s.mtf := rfl
@[simp] theorem finish_size : (finish s).size = s.size := rfl
@[simp] theorem finish_bcrc : (finish s).bcrc = s.bcrc := rfl
@[simp] theorem finish_finLen : (finish s).finLen = s.finLen := rfl
@[simp] theorem finish_selector : (finish s).selector = s.selector := rfl
@[simp] theorem finish_lens : (finish s).lens = s.lens := rfl
@[simp] theorem finish_tbl : (finish s).tbl = s.tbl := rfl
@[simp] theorem finish_tt : (finish s).tt = s.tt := rfl
@[simp] theorem finish_bucketCount : (finish s).bucketCount = s.bucketCount := rfl
@[simp] theorem finish_bucketStart : (finish s).bucketStart = s.bucketStart := rfl
@[simp] theorem finish_bucketIndex : (finish s).bucketIndex = s.bucketIndex := rfl
@[simp] theorem finish_dst : (finish s).dst = s.dst := rfl
@[simp] theorem finish_inMem : (finish s).inMem = s.inMem := rfl
@[simp] theorem finish_outMem : (finish s).outMem = s.outMem := rfl
@[simp] theorem finish_outFree : (finish s).outFree = s.outFree := rfl
@[simp] theorem finish_runIndex : (finish s).runIndex = s.runIndex := rfl
@[simp] theorem finish_schedule : (finish s).schedule = s.schedule := rfl
@[simp] theorem finish_busData : (finish s).busData = s.busData := rfl
end

section
variable (s : State)
@[simp] theorem blockInit_cfg : (blockInit s).cfg = s.cfg := rfl
@[simp] theorem blockInit_irqEn : (blockInit s).irqEn = s.irqEn := rfl
@[simp] theorem blockInit_busy : (blockInit s).busy = s.busy := rfl
@[simp] theorem blockInit_done : (blockInit s).done = s.done := rfl
@[simp] theorem blockInit_err : (blockInit s).err = s.err := rfl
@[simp] theorem blockInit_errKind : (blockInit s).errKind = s.errKind := rfl
@[simp] theorem blockInit_errCause : (blockInit s).errCause = s.errCause := rfl
@[simp] theorem blockInit_inLen : (blockInit s).inLen = s.inLen := rfl
@[simp] theorem blockInit_outCap : (blockInit s).outCap = s.outCap := rfl
@[simp] theorem blockInit_outLen : (blockInit s).outLen = s.outLen := rfl
@[simp] theorem blockInit_streamCrc : (blockInit s).streamCrc = s.streamCrc := rfl
@[simp] theorem blockInit_errBitpos : (blockInit s).errBitpos = s.errBitpos := rfl
@[simp] theorem blockInit_blockCount : (blockInit s).blockCount = s.blockCount := rfl
@[simp] theorem blockInit_blockCrcCalc : (blockInit s).blockCrcCalc = s.blockCrcCalc := rfl
@[simp] theorem blockInit_blockCrcStored : (blockInit s).blockCrcStored = s.blockCrcStored := rfl
@[simp] theorem blockInit_blockMax : (blockInit s).blockMax = s.blockMax := rfl
@[simp] theorem blockInit_phase : (blockInit s).phase = s.phase := rfl
@[simp] theorem blockInit_pos : (blockInit s).pos = s.pos := rfl
@[simp] theorem blockInit_blkMax : (blockInit s).blkMax = s.blkMax := rfl
@[simp] theorem blockInit_storedCrc : (blockInit s).storedCrc = s.storedCrc := rfl
@[simp] theorem blockInit_origPtr : (blockInit s).origPtr = s.origPtr := rfl
@[simp] theorem blockInit_map1 : (blockInit s).map1 = s.map1 := rfl
@[simp] theorem blockInit_mapI : (blockInit s).mapI = 0 := rfl
@[simp] theorem blockInit_seq : (blockInit s).seq = [] := rfl
@[simp] theorem blockInit_nInUse : (blockInit s).nInUse = 0 := rfl
@[simp] theorem blockInit_alpha : (blockInit s).alpha = s.alpha := rfl
@[simp] theorem blockInit_nGroups : (blockInit s).nGroups = s.nGroups := rfl
@[simp] theorem blockInit_nSel : (blockInit s).nSel = s.nSel := rfl
@[simp] theorem blockInit_selI : (blockInit s).selI = 0 := rfl
@[simp] theorem blockInit_selMtf : (blockInit s).selMtf = s.selMtf := rfl
@[simp] theorem blockInit_lenG : (blockInit s).lenG = 0 := rfl
@[simp] theorem blockInit_lenS : (blockInit s).lenS = 0 := rfl
@[simp] theorem blockInit_curLen : (blockInit s).curLen = s.curLen := rfl
@[simp] theorem blockInit_gpos : (blockInit s).gpos = 0 := rfl
@[simp] theorem blockInit_gno : (blockInit s).gno = 0 := rfl
@[simp] theorem blockInit_active : (blockInit s).active = s.active := rfl
@[simp] theorem blockInit_rep : (blockInit s).rep = 0 := rfl
@[simp] theorem blockInit_reppow : (blockInit s).reppow = 0 := rfl
@[simp] theorem blockInit_mtf : (blockInit s).mtf = s.mtf := rfl
@[simp] theorem blockInit_size : (blockInit s).size = 0 := rfl
@[simp] theorem blockInit_bcrc : (blockInit s).bcrc = s.bcrc := rfl
@[simp] theorem blockInit_finLen : (blockInit s).finLen = 0 := rfl
@[simp] theorem blockInit_selector : (blockInit s).selector = s.selector := rfl
@[simp] theorem blockInit_lens : (blockInit s).lens = s.lens := rfl
@[simp] theorem blockInit_tbl : (blockInit s).tbl = s.tbl := rfl
@[simp] theorem blockInit_tt : (blockInit s).tt = s.tt := rfl
@[simp] theorem blockInit_bucketCount : (blockInit s).bucketCount = s.bucketCount := rfl
@[simp] theorem blockInit_bucketStart : (blockInit s).bucketStart = s.bucketStart := rfl
@[simp] theorem blockInit_bucketIndex : (blockInit s).bucketIndex = s.bucketIndex := rfl
@[simp] theorem blockInit_dst : (blockInit s).dst = s.dst := rfl
@[simp] theorem blockInit_inMem : (blockInit s).inMem = s.inMem := rfl
@[simp] theorem blockInit_outMem : (blockInit s).outMem = s.outMem := rfl
@[simp] theorem blockInit_outFree : (blockInit s).outFree = s.outFree := rfl
@[simp] theorem blockInit_runIndex : (blockInit s).runIndex = s.runIndex := rfl
@[simp] theorem blockInit_schedule : (blockInit s).schedule = s.schedule := rfl
@[simp] theorem blockInit_busData : (blockInit s).busData = s.busData := rfl
end

section
variable (s : State)
@[simp] theorem startRun_cfg : (startRun s).cfg = s.cfg := rfl
@[simp] theorem startRun_irqEn : (startRun s).irqEn = s.irqEn := rfl
@[simp] theorem startRun_busy : (startRun s).busy = true := rfl
@[simp] theorem startRun_done : (startRun s).done = false := rfl
@[simp] theorem startRun_err : (startRun s).err = false := rfl
@[simp] theorem startRun_errKind : (startRun s).errKind = 0 := rfl
@[simp] theorem startRun_errCause : (startRun s).errCause = 0 := rfl
@[simp] theorem startRun_inLen : (startRun s).inLen = s.inLen := rfl
@[simp] theorem startRun_outCap : (startRun s).outCap = s.outCap := rfl
@[simp] theorem startRun_outLen : (startRun s).outLen = 0 := rfl
@[simp] theorem startRun_streamCrc : (startRun s).streamCrc = 0 := rfl
@[simp] theorem startRun_errBitpos : (startRun s).errBitpos = 0 := rfl
@[simp] theorem startRun_blockCount : (startRun s).blockCount = 0 := rfl
@[simp] theorem startRun_blockCrcCalc : (startRun s).blockCrcCalc = 0 := rfl
@[simp] theorem startRun_blockCrcStored : (startRun s).blockCrcStored = 0 := rfl
@[simp] theorem startRun_blockMax : (startRun s).blockMax = 0 := rfl
@[simp] theorem startRun_phase : (startRun s).phase = .header := rfl
@[simp] theorem startRun_pos : (startRun s).pos = 0 := rfl
@[simp] theorem startRun_blkMax : (startRun s).blkMax = 0 := rfl
@[simp] theorem startRun_storedCrc : (startRun s).storedCrc = s.storedCrc := rfl
@[simp] theorem startRun_origPtr : (startRun s).origPtr = s.origPtr := rfl
@[simp] theorem startRun_map1 : (startRun s).map1 = s.map1 := rfl
@[simp] theorem startRun_mapI : (startRun s).mapI = s.mapI := rfl
@[simp] theorem startRun_seq : (startRun s).seq = s.seq := rfl
@[simp] theorem startRun_nInUse : (startRun s).nInUse = s.nInUse := rfl
@[simp] theorem startRun_alpha : (startRun s).alpha = s.alpha := rfl
@[simp] theorem startRun_nGroups : (startRun s).nGroups = s.nGroups := rfl
@[simp] theorem startRun_nSel : (startRun s).nSel = s.nSel := rfl
@[simp] theorem startRun_selI : (startRun s).selI = s.selI := rfl
@[simp] theorem startRun_selMtf : (startRun s).selMtf = s.selMtf := rfl
@[simp] theorem startRun_lenG : (startRun s).lenG = s.lenG := rfl
@[simp] theorem startRun_lenS : (startRun s).lenS = s.lenS := rfl
@[simp] theorem startRun_curLen : (startRun s).curLen = s.curLen := rfl
@[simp] theorem startRun_gpos : (startRun s).gpos = s.gpos := rfl
@[simp] theorem startRun_gno : (startRun s).gno = s.gno := rfl
@[simp] theorem startRun_active : (startRun s).active = s.active := rfl
@[simp] theorem startRun_rep : (startRun s).rep = s.rep := rfl
@[simp] theorem startRun_reppow : (startRun s).reppow = s.reppow := rfl
@[simp] theorem startRun_mtf : (startRun s).mtf = s.mtf := rfl
@[simp] theorem startRun_size : (startRun s).size = s.size := rfl
@[simp] theorem startRun_bcrc : (startRun s).bcrc = s.bcrc := rfl
@[simp] theorem startRun_finLen : (startRun s).finLen = s.finLen := rfl
@[simp] theorem startRun_selector : (startRun s).selector = s.selector := rfl
@[simp] theorem startRun_lens : (startRun s).lens = s.lens := rfl
@[simp] theorem startRun_tbl : (startRun s).tbl = s.tbl := rfl
@[simp] theorem startRun_tt : (startRun s).tt = s.tt := rfl
@[simp] theorem startRun_bucketCount : (startRun s).bucketCount = s.bucketCount := rfl
@[simp] theorem startRun_bucketStart : (startRun s).bucketStart = s.bucketStart := rfl
@[simp] theorem startRun_bucketIndex : (startRun s).bucketIndex = s.bucketIndex := rfl
@[simp] theorem startRun_dst : (startRun s).dst = s.dst := rfl
@[simp] theorem startRun_inMem : (startRun s).inMem = s.inMem := rfl
@[simp] theorem startRun_outMem : (startRun s).outMem = s.outMem := rfl
@[simp] theorem startRun_outFree : (startRun s).outFree = s.outFree := rfl
@[simp] theorem startRun_runIndex : (startRun s).runIndex = s.runIndex + 1 := rfl
@[simp] theorem startRun_schedule : (startRun s).schedule = s.schedule := rfl
@[simp] theorem startRun_busData : (startRun s).busData = s.busData := rfl
end

section
variable (s : State)
@[simp] theorem commit_cfg : (commit s).cfg = s.cfg := rfl
@[simp] theorem commit_irqEn : (commit s).irqEn = s.irqEn := rfl
@[simp] theorem commit_busy : (commit s).busy = s.busy := rfl
@[simp] theorem commit_done : (commit s).done = s.done := rfl
@[simp] theorem commit_err : (commit s).err = s.err := rfl
@[simp] theorem commit_errKind : (commit s).errKind = s.errKind := rfl
@[simp] theorem commit_errCause : (commit s).errCause = s.errCause := rfl
@[simp] theorem commit_inLen : (commit s).inLen = s.inLen := rfl
@[simp] theorem commit_outCap : (commit s).outCap = s.outCap := rfl
@[simp] theorem commit_outLen : (commit s).outLen = s.outLen + BitVec.ofNat 32 s.finLen := rfl
@[simp] theorem commit_streamCrc : (commit s).streamCrc = rotl32 s.streamCrc ^^^ s.bcrc := rfl
@[simp] theorem commit_errBitpos : (commit s).errBitpos = s.errBitpos := rfl
@[simp] theorem commit_blockCount : (commit s).blockCount = s.blockCount + 1 := rfl
@[simp] theorem commit_blockCrcCalc : (commit s).blockCrcCalc = s.blockCrcCalc := rfl
@[simp] theorem commit_blockCrcStored : (commit s).blockCrcStored = s.blockCrcStored := rfl
@[simp] theorem commit_blockMax : (commit s).blockMax = s.blockMax := rfl
@[simp] theorem commit_phase : (commit s).phase = .magic := rfl
@[simp] theorem commit_pos : (commit s).pos = s.pos := rfl
@[simp] theorem commit_blkMax : (commit s).blkMax = s.blkMax := rfl
@[simp] theorem commit_storedCrc : (commit s).storedCrc = s.storedCrc := rfl
@[simp] theorem commit_origPtr : (commit s).origPtr = s.origPtr := rfl
@[simp] theorem commit_map1 : (commit s).map1 = s.map1 := rfl
@[simp] theorem commit_mapI : (commit s).mapI = s.mapI := rfl
@[simp] theorem commit_seq : (commit s).seq = s.seq := rfl
@[simp] theorem commit_nInUse : (commit s).nInUse = s.nInUse := rfl
@[simp] theorem commit_alpha : (commit s).alpha = s.alpha := rfl
@[simp] theorem commit_nGroups : (commit s).nGroups = s.nGroups := rfl
@[simp] theorem commit_nSel : (commit s).nSel = s.nSel := rfl
@[simp] theorem commit_selI : (commit s).selI = s.selI := rfl
@[simp] theorem commit_selMtf : (commit s).selMtf = s.selMtf := rfl
@[simp] theorem commit_lenG : (commit s).lenG = s.lenG := rfl
@[simp] theorem commit_lenS : (commit s).lenS = s.lenS := rfl
@[simp] theorem commit_curLen : (commit s).curLen = s.curLen := rfl
@[simp] theorem commit_gpos : (commit s).gpos = s.gpos := rfl
@[simp] theorem commit_gno : (commit s).gno = s.gno := rfl
@[simp] theorem commit_active : (commit s).active = s.active := rfl
@[simp] theorem commit_rep : (commit s).rep = s.rep := rfl
@[simp] theorem commit_reppow : (commit s).reppow = s.reppow := rfl
@[simp] theorem commit_mtf : (commit s).mtf = s.mtf := rfl
@[simp] theorem commit_size : (commit s).size = s.size := rfl
@[simp] theorem commit_bcrc : (commit s).bcrc = s.bcrc := rfl
@[simp] theorem commit_finLen : (commit s).finLen = s.finLen := rfl
@[simp] theorem commit_selector : (commit s).selector = s.selector := rfl
@[simp] theorem commit_lens : (commit s).lens = s.lens := rfl
@[simp] theorem commit_tbl : (commit s).tbl = s.tbl := rfl
@[simp] theorem commit_tt : (commit s).tt = s.tt := rfl
@[simp] theorem commit_bucketCount : (commit s).bucketCount = s.bucketCount := rfl
@[simp] theorem commit_bucketStart : (commit s).bucketStart = s.bucketStart := rfl
@[simp] theorem commit_bucketIndex : (commit s).bucketIndex = s.bucketIndex := rfl
@[simp] theorem commit_dst : (commit s).dst = s.dst := rfl
@[simp] theorem commit_inMem : (commit s).inMem = s.inMem := rfl
@[simp] theorem commit_outMem : (commit s).outMem = s.outMem := rfl
@[simp] theorem commit_outFree : (commit s).outFree = spanErase s.outLen.toNat (s.outLen.toNat + s.finLen) s.outFree := rfl
@[simp] theorem commit_runIndex : (commit s).runIndex = s.runIndex := rfl
@[simp] theorem commit_schedule : (commit s).schedule = s.schedule := rfl
@[simp] theorem commit_busData : (commit s).busData = s.busData := rfl
end

end Sys2Proof.Machine
end

