-- ==== Sys2Proof/Laws/Bits.lean ====
section
/-! SUPPORT. Laws of bit fields, the bit reader and the decoder's window. -/

namespace Sys2Proof

/-! ### Fields -/

@[simp] theorem length_bitsOfNat : ∀ n v : Nat, (bitsOfNat n v).length = n
  | 0, _ => rfl
  | n + 1, v => by simp [bitsOfNat, length_bitsOfNat n v]

theorem foldl_bits (l : List Bool) (a : Nat) :
    l.foldl (fun v b => 2 * v + b.toNat) a = 2 ^ l.length * a + natOfBits l := by
  induction l generalizing a with
  | nil => simp [natOfBits]
  | cons b l ih =>
    have h : natOfBits (b :: l) = 2 ^ l.length * (2 * 0 + b.toNat) + natOfBits l := ih _
    rw [List.foldl_cons, ih, h, List.length_cons, pow_succ]
    ring

theorem natOfBits_cons (b : Bool) (l : List Bool) : natOfBits (b :: l) = 2 ^ l.length * b.toNat + natOfBits l := by
  rw [natOfBits, List.foldl_cons, foldl_bits]; simp

theorem natOfBits_append (l m : List Bool) : natOfBits (l ++ m) = 2 ^ m.length * natOfBits l + natOfBits m := by
  rw [natOfBits, List.foldl_append, foldl_bits]; rfl

theorem natOfBits_lt (l : List Bool) : natOfBits l < 2 ^ l.length := by
  induction l with
  | nil => simp [natOfBits]
  | cons b l ih =>
    rw [natOfBits_cons, List.length_cons, pow_succ]
    cases b <;> simp <;> omega

/-- A field's value is its bits' weighted sum (00_scope.md R11). -/
theorem natOfBits_eq_sum (l : List Bool) :
    natOfBits l = ((List.range l.length).map fun k => (l.getD k false).toNat * 2 ^ (l.length - 1 - k)).sum := by
  induction l with
  | nil => rfl
  | cons b l ih =>
    rw [natOfBits_cons, List.length_cons, List.range_succ_eq_map, List.map_cons, List.sum_cons, List.map_map, ih]
    congr 1
    · simp [Nat.mul_comm]
    · congr 1
      apply List.map_congr_left
      intro k hk
      have : k < l.length := by simpa using hk
      simp only [Function.comp, List.getD_cons_succ]
      congr 2; omega

theorem natOfBits_bitsOfNat (n v : Nat) : natOfBits (bitsOfNat n v) = v % 2 ^ n := by
  induction n with
  | zero => simp [bitsOfNat, natOfBits, Nat.mod_one]
  | succ n ih =>
    rw [bitsOfNat, natOfBits_cons, ih, length_bitsOfNat, Nat.mod_pow_succ, Nat.testBit_eq_decide_div_mod_eq]
    have : v / 2 ^ n % 2 = 0 ∨ v / 2 ^ n % 2 = 1 := by omega
    rcases this with h | h <;> simp [h, Nat.add_comm]

theorem natOfBits_bitsOfNat_toNat {w : Nat} (v : BitVec w) : natOfBits (bitsOfNat w v.toNat) = v.toNat := by
  rw [natOfBits_bitsOfNat, Nat.mod_eq_of_lt v.isLt]

/-- A field decoded from the bits written for its value. -/
theorem decodeField_bitsOfNat (n v : Nat) (rest : List Bool) (mk : Nat → Decoded) :
    decodeField n (bitsOfNat n v ++ rest) mk = mk (v % 2 ^ n) := by
  simp [decodeField, natOfBits_bitsOfNat]

theorem decodeField_short {n : Nat} {bits : List Bool} (h : bits.length < n) (mk : Nat → Decoded) :
    decodeField n bits mk = .truncated 0 := by simp [decodeField, h]

theorem decodeField_long {n : Nat} {bits : List Bool} (h : n ≤ bits.length) (mk : Nat → Decoded) :
    decodeField n bits mk = mk (natOfBits (bits.take n)) := by
  simp [decodeField, Nat.not_lt.2 h]

/-- What a unary decode answers (43_selectors_and_tables.md R160). -/
theorem decodeUnary_ones_zero (nGroups : Nat) (rest : List Bool) : ∀ (k j : Nat), (k = 0 ∨ j + k < nGroups) →
    decodeUnary nGroups j (List.replicate k true ++ false :: rest) = .token (.sel (j + k)) (j + k + 1)
  | 0, j, _ => by simp [decodeUnary]
  | k + 1, j, h => by
    have h' : ¬ nGroups ≤ j + 1 := by omega
    rw [List.replicate_succ, List.cons_append, decodeUnary, if_neg h',
      decodeUnary_ones_zero nGroups rest k (j + 1) (by omega)]
    congr 2 <;> omega

theorem decodeUnary_all_ones (nGroups : Nat) : ∀ (k j : Nat), j + k < nGroups →
    decodeUnary nGroups j (List.replicate k true) = .truncated (j + k)
  | 0, j, _ => by simp [decodeUnary]
  | k + 1, j, h => by
    have h' : ¬ nGroups ≤ j + 1 := by omega
    rw [List.replicate_succ, decodeUnary, if_neg h', decodeUnary_all_ones nGroups k (j + 1) (by omega)]
    congr 1; omega

theorem decodeUnary_too_many (nGroups : Nat) (rest : List Bool) : ∀ (k j : Nat), 1 ≤ k → j + k = nGroups →
    decodeUnary nGroups j (List.replicate k true ++ rest) = .illegal .selectorRun nGroups
  | 1, j, _, h => by simp [decodeUnary, h]
  | k + 2, j, _, h => by
    have h' : ¬ nGroups ≤ j + 1 := by omega
    rw [List.replicate_succ, List.cons_append, decodeUnary, if_neg h',
      decodeUnary_too_many nGroups rest (k + 1) (j + 1) (by omega) (by omega)]

end Sys2Proof

namespace Sys2Proof.Machine

/-! ### The bit reader -/

@[simp] theorem length_bitsAt (s : State) (n : Nat) : (bitsAt s n).length = n := by simp [bitsAt]

theorem getElem?_bitsAt (s : State) (n k : Nat) :
    (bitsAt s n)[k]? = if k < n then some (streamBit s (s.pos.toNat + k)) else none := by
  simp only [bitsAt, List.getElem?_map]
  split <;> simp_all

theorem take_bitsAt (s : State) {m n : Nat} (h : m ≤ n) : (bitsAt s n).take m = bitsAt s m := by
  simp [bitsAt, ← List.map_take, List.take_range, h]

theorem bitsAt_add (s : State) (m n : Nat) :
    bitsAt s (m + n) = bitsAt s m ++ (List.range n).map fun k => streamBit s (s.pos.toNat + m + k) := by
  simp only [bitsAt, List.range_add, List.map_append, List.map_map]
  congr 1
  apply List.map_congr_left
  intro k _
  simp [Nat.add_assoc]

/-- The window is the next bits of the input, all that are left or 48 of them. -/
@[simp] theorem length_window (s : State) : (window s).length = min 48 (bitsLeft s) := by simp [window]

theorem take_window {s : State} {n : Nat} (h : n ≤ 48) (hn : n ≤ bitsLeft s) : (window s).take n = bitsAt s n :=
  take_bitsAt s (by omega)

theorem peekBits_eq (n : Nat) (s : State) :
    peekBits n s = if 8 * s.inLen.toNat < s.pos.toNat + n then none else some (natOfBits (bitsAt s n)) := rfl

/-- All that ReadBits can answer (41_stream_control.md R120). -/
theorem readBits_some {n : Nat} {s t : State} {v : Nat} (h : readBits n s = some (v, t)) :
    s.pos.toNat + n ≤ 8 * s.inLen.toNat ∧ v = natOfBits (bitsAt s n) ∧ t = advance n s := by
  simp only [readBits, peekBits, Option.map_eq_some_iff] at h
  obtain ⟨w, hw, h⟩ := h
  split at hw
  · simp at hw
  · simp only [Option.some.injEq, Prod.mk.injEq] at hw h
    exact ⟨by omega, h.1 ▸ hw.symm, h.2.symm⟩

theorem readBits_none {n : Nat} {s : State} (h : readBits n s = none) : 8 * s.inLen.toNat < s.pos.toNat + n := by
  simp only [readBits, peekBits, Option.map_eq_none_iff] at h
  split at h
  · omega
  · simp at h

theorem readBits_of_le {n : Nat} {s : State} (h : s.pos.toNat + n ≤ 8 * s.inLen.toNat) :
    readBits n s = some (natOfBits (bitsAt s n), advance n s) := by
  simp [readBits, peekBits, Nat.not_lt.2 h]

theorem readBits_of_lt {n : Nat} {s : State} (h : 8 * s.inLen.toNat < s.pos.toNat + n) : readBits n s = none := by
  simp [readBits, peekBits, h]

@[simp] theorem advance_zero (s : State) : advance 0 s = s := by simp [advance]

/-- A field decoded in the window is the field ReadBits reads. -/
theorem decodeField_window_some {n : Nat} {s t : State} {v : Nat} (h48 : n ≤ 48) (h : readBits n s = some (v, t))
    (mk : Nat → Decoded) : decodeField n (window s) mk = mk v := by
  obtain ⟨hle, rfl, -⟩ := readBits_some h
  have hb : n ≤ bitsLeft s := by simp only [bitsLeft]; omega
  rw [decodeField_long (by simp; omega), take_window h48 hb]

theorem decodeField_window_none {n : Nat} {s : State} (h : readBits n s = none) (hn : 1 ≤ n) (mk : Nat → Decoded) :
    decodeField n (window s) mk = .truncated 0 := by
  have := readBits_none h
  exact decodeField_short (by simp only [length_window, bitsLeft]; omega) mk

end Sys2Proof.Machine
end

