-- ==== Sys2Proof/Laws/Decode.lean ====
section
/-! SUPPORT. What the decoder can answer: kinds, lengths and bounds. -/

namespace Sys2Proof

/-- The bits a decoded token takes are in the window (30_encoding.md R90). -/
theorem decodeField_token {n : Nat} {bits : List Bool} {mk : Nat → Decoded} {d : Decoded}
    (h : decodeField n bits mk = d) : (bits.length < n ∧ d = .truncated 0) ∨ (n ≤ bits.length ∧ mk (natOfBits (bits.take n)) = d) := by
  by_cases hl : bits.length < n
  · exact .inl ⟨hl, by rw [← h, decodeField_short hl]⟩
  · exact .inr ⟨by omega, by rw [← h, decodeField_long (by omega)]⟩

theorem decodeUnary_cases (nGroups : Nat) : ∀ (bits : List Bool) (k : Nat),
    (∃ j, k ≤ j ∧ decodeUnary nGroups k bits = .token (.sel j) (j + 1) ∧ j + 1 ≤ k + bits.length)
      ∨ (decodeUnary nGroups k bits = .truncated (k + bits.length))
      ∨ ∃ n, k < n ∧ decodeUnary nGroups k bits = .illegal .selectorRun n ∧ n ≤ k + bits.length
  | [], k => .inr (.inl rfl)
  | false :: bits, k => .inl ⟨k, le_refl k, rfl, by simp⟩
  | true :: bits, k => by
    rw [decodeUnary]
    split
    · exact .inr (.inr ⟨k + 1, by omega, rfl, by simp⟩)
    · rcases decodeUnary_cases nGroups bits (k + 1) with ⟨j, h1, h2, h3⟩ | h | ⟨n, h1, h2, h3⟩
      · exact .inl ⟨j, by omega, h2, by simp only [List.length_cons]; omega⟩
      · exact .inr (.inl (by rw [h]; simp only [List.length_cons]; congr 1; omega))
      · exact .inr (.inr ⟨n, by omega, h2, by simp only [List.length_cons]; omega⟩)

theorem decodeHuff_cases (alpha : Nat) (t : CodeTable) (bits : List Bool) : ∀ ls : List Nat,
    (∃ s n, decodeHuff alpha t bits ls = .token (symbolToken alpha s) n ∧ n ∈ ls ∧ n ≤ bits.length
        ∧ s ∈ t.perm ∧ t.lens.getD s 0 = n)
      ∨ decodeHuff alpha t bits ls = .truncated 0 ∨ decodeHuff alpha t bits ls = .illegal .noCodeMatch 0
  | [] => .inr (.inr rfl)
  | n :: ls => by
    rw [decodeHuff]
    split
    · exact .inr (.inl rfl)
    · split
      · rename_i s h
        have h1 := List.find?_some h
        simp only [Bool.and_eq_true, beq_iff_eq] at h1
        exact .inl ⟨s, n, rfl, List.mem_cons_self, by omega, List.mem_of_find?_eq_some h, h1.1⟩
      · rcases decodeHuff_cases alpha t bits ls with ⟨s, m, h1, h2, h3⟩ | h | h
        · exact .inl ⟨s, m, h1, List.mem_cons_of_mem n h2, h3⟩
        · exact .inr (.inl h)
        · exact .inr (.inr h)

theorem symbolToken_symbol (alpha s : Nat) : (symbolToken alpha s).symbol? alpha = some s := by
  unfold symbolToken
  repeat' split
  all_goals simp_all [Instr.symbol?]

theorem symbolToken_hostOffset (alpha s : Nat) : (symbolToken alpha s).hostOffset = none := by
  unfold symbolToken
  repeat' split
  all_goals rfl

theorem symbolToken_phase (alpha s : Nat) : (symbolToken alpha s).phase = .symbol := by
  unfold symbolToken
  repeat' split
  all_goals rfl

/-- A symbol's token has the bits of its code. -/
theorem length_encode_symbolToken (c : Context) (s : Nat) :
    (encode c (symbolToken c.alpha s)).length = c.table.lens.getD s 0 := by
  unfold symbolToken
  split
  · subst ‹s = 0›; exact length_bitsOfNat _ _
  · split
    · subst ‹s = 1›; exact length_bitsOfNat _ _
    · split
      · subst ‹s = c.alpha - 1›; exact length_bitsOfNat _ _
      · exact length_bitsOfNat _ _

/-- What a decode can answer: a token of the phase's kind, no host command, as long as its encoding and within the bits
shown; a truncation or an illegal pattern whose failing read or check is within them; or nothing, being idle. -/
def DecodeBounds (c : Context) (bits : List Bool) (d : Decoded) : Prop :=
  (∃ i n, d = .token i n ∧ i.phase = c.phase ∧ i.hostOffset = none ∧ n = (encode c i).length ∧ n ≤ bits.length)
    ∨ (∃ n, d = .truncated n ∧ n ≤ bits.length) ∨ (∃ e n, d = .illegal e n ∧ n ≤ bits.length)
    ∨ (d = .noToken ∧ c.phase = .idle)

theorem decodeField_bounds {c : Context} {bits : List Bool} (n : Nat) (f : Nat → Instr)
    (hf : ∀ v, (f v).phase = c.phase ∧ (f v).hostOffset = none ∧ (encode c (f v)).length = n) :
    DecodeBounds c bits (decodeField n bits fun v => .token (f v) n) := by
  rcases decodeField_token (rfl : decodeField n bits (fun v => .token (f v) n) = _) with ⟨-, h⟩ | ⟨hl, h⟩
  · exact .inr (.inl ⟨0, h, Nat.zero_le _⟩)
  · obtain ⟨h1, h2, h3⟩ := hf (natOfBits (bits.take n))
    exact .inl ⟨_, n, h.symm, h1, h2, h3.symm, hl⟩

theorem decode_bounds (c : Context) (bits : List Bool) : DecodeBounds c bits (decode c bits) := by
  unfold decode
  cases hp : c.phase with
  | idle => exact .inr (.inr (.inr ⟨rfl, hp⟩))
  | header =>
    rcases decodeField_token (rfl : decodeField 32 bits decodeHdr = _) with ⟨-, h⟩ | ⟨hl, h⟩
    · exact .inr (.inl ⟨0, h, Nat.zero_le _⟩)
    · unfold decodeHdr at h
      split at h
      · exact .inl ⟨_, 32, h.symm, hp.symm, rfl, rfl, hl⟩
      · exact .inr (.inr (.inl ⟨_, 32, h.symm, hl⟩))
  | magic =>
    rcases decodeField_token (rfl : decodeField 48 bits decodeMagic = _) with ⟨-, h⟩ | ⟨hl, h⟩
    · exact .inr (.inl ⟨0, h, Nat.zero_le _⟩)
    · unfold decodeMagic at h
      split at h
      · exact .inl ⟨_, 48, h.symm, hp.symm, rfl, rfl, hl⟩
      · split at h
        · exact .inl ⟨_, 48, h.symm, hp.symm, rfl, rfl, hl⟩
        · exact .inr (.inr (.inl ⟨_, 48, h.symm, hl⟩))
  | selector =>
    rcases decodeUnary_cases c.nGroups bits 0 with ⟨j, -, h, hl⟩ | h | ⟨n, -, h, hl⟩
    · exact .inl ⟨_, _, h, hp.symm, rfl, by simp [encode], by omega⟩
    · exact .inr (.inl ⟨_, h, by omega⟩)
    · exact .inr (.inr (.inl ⟨_, n, h, by omega⟩))
  | lenDelta =>
    rcases bits with _ | ⟨_ | _, _ | ⟨x, bits⟩⟩
    · exact .inr (.inl ⟨0, rfl, le_refl _⟩)
    · exact .inl ⟨_, _, rfl, hp.symm, rfl, rfl, by simp⟩
    · exact .inl ⟨_, _, rfl, hp.symm, rfl, rfl, by simp⟩
    · exact .inr (.inl ⟨1, rfl, le_refl _⟩)
    · simp only [decodeDelta]
      split
      · exact .inl ⟨_, _, rfl, hp.symm, rfl, rfl, by simp⟩
      · exact .inl ⟨_, _, rfl, hp.symm, rfl, rfl, by simp⟩
  | symbol =>
    rcases decodeHuff_cases c.alpha c.table bits c.table.present with ⟨s, n, h, -, hl, -, hn⟩ | h | h
    · exact .inl ⟨_, n, h, (symbolToken_phase _ _).trans hp.symm, symbolToken_hostOffset _ _,
        by rw [length_encode_symbolToken, hn], hl⟩
    · exact .inr (.inl ⟨0, h, Nat.zero_le _⟩)
    · exact .inr (.inr (.inl ⟨_, 0, h, Nat.zero_le _⟩))
  | build => exact .inl ⟨.build, 0, rfl, hp.symm, rfl, rfl, Nat.zero_le _⟩
  | ibwt => exact .inl ⟨.ibwt, 0, rfl, hp.symm, rfl, rfl, Nat.zero_le _⟩
  | rle => exact .inl ⟨.rle, 0, rfl, hp.symm, rfl, rfl, Nat.zero_le _⟩
  | check => exact .inl ⟨.check, 0, rfl, hp.symm, rfl, rfl, Nat.zero_le _⟩
  | scrc => exact decodeField_bounds 32 (fun v => .scrc (BitVec.ofNat 32 v)) fun v => ⟨hp.symm, rfl, length_bitsOfNat _ _⟩
  | bcrc => exact decodeField_bounds 32 (fun v => .bcrc (BitVec.ofNat 32 v)) fun v => ⟨hp.symm, rfl, length_bitsOfNat _ _⟩
  | rand => exact decodeField_bounds 1 (fun v => .rand (BitVec.ofNat 1 v)) fun v => ⟨hp.symm, rfl, length_bitsOfNat _ _⟩
  | ptr => exact decodeField_bounds 24 (fun v => .ptr (BitVec.ofNat 24 v)) fun v => ⟨hp.symm, rfl, length_bitsOfNat _ _⟩
  | map1 => exact decodeField_bounds 16 (fun v => .map1 (BitVec.ofNat 16 v)) fun v => ⟨hp.symm, rfl, length_bitsOfNat _ _⟩
  | map2 => exact decodeField_bounds 16 (fun v => .map2 (BitVec.ofNat 16 v)) fun v => ⟨hp.symm, rfl, length_bitsOfNat _ _⟩
  | ngrp => exact decodeField_bounds 3 (fun v => .ngrp (BitVec.ofNat 3 v)) fun v => ⟨hp.symm, rfl, length_bitsOfNat _ _⟩
  | nsel => exact decodeField_bounds 15 (fun v => .nsel (BitVec.ofNat 15 v)) fun v => ⟨hp.symm, rfl, length_bitsOfNat _ _⟩
  | lenStart => exact decodeField_bounds 5 (fun v => .len5 (BitVec.ofNat 5 v)) fun v => ⟨hp.symm, rfl, length_bitsOfNat _ _⟩

end Sys2Proof
end

