-- ==== Sys2Proof/Laws/Memory.lean ====
section
/-! SUPPORT. Laws of the byte memories: every operation keeps the canonical form; a read after a write gives the byte at
its address and leaves every other alone. -/

namespace Sys2Proof.Machine

theorem Memory.wfFrom_write (a : Nat) (v : Byte) : ∀ {m : Memory} {lo : Nat}, lo ≤ a → Memory.wfFrom lo m = true →
    Memory.wfFrom lo (Memory.write m a v) = true
  | [], lo, ha, _ => by simp [Memory.write, Memory.wfFrom, ha]
  | (b, w) :: m, lo, ha, hm => by
    simp only [Memory.wfFrom, Bool.and_eq_true, decide_eq_true_eq] at hm
    unfold Memory.write
    split
    · simp only [Memory.wfFrom, Bool.and_eq_true, decide_eq_true_eq]
      exact ⟨ha, by omega, hm.2⟩
    · split
      · subst ‹a = b›
        simpa [Memory.wfFrom] using hm
      · simp only [Memory.wfFrom, Bool.and_eq_true, decide_eq_true_eq]
        exact ⟨hm.1, Memory.wfFrom_write a v (by omega) hm.2⟩

/-- A write keeps the canonical form. -/
theorem Memory.wf_write {m : Memory} (h : Memory.wf m = true) (a : Nat) (v : Byte) :
    Memory.wf (Memory.write m a v) = true := Memory.wfFrom_write a v (Nat.zero_le a) h

theorem Memory.wf_writeRun (v : Byte) : ∀ (n : Nat) {m : Memory} (a : Nat), Memory.wf m = true →
    Memory.wf (Memory.writeRun m a n v) = true
  | 0, _, _, h => h
  | n + 1, _, a, h => Memory.wf_writeRun v n (a + 1) (Memory.wf_write h a v)

theorem Memory.wf_writeBytes : ∀ (bs : List Byte) {m : Memory} (a : Nat), Memory.wf m = true →
    Memory.wf (Memory.writeBytes m a bs) = true
  | [], _, _, h => h
  | b :: bs, _, a, h => Memory.wf_writeBytes bs (a + 1) (Memory.wf_write h a b)

theorem Memory.wf_nil : Memory.wf [] = true := rfl

/-- The canonical form holds after reset. -/
theorem Memory.wf_reset : Memory.wf State.reset.inMem = true ∧ Memory.wf State.reset.outMem = true := ⟨rfl, rfl⟩

/-- Right after reset every byte of either memory is its power-on byte (70_reset_and_hazards.md R282, log 3). -/
theorem Memory.read_reset (sp : Space) (a : Nat) :
    Memory.read sp State.reset.inMem a = Config.powerOnByte sp a
      ∧ Memory.read sp State.reset.outMem a = Config.powerOnByte sp a := ⟨rfl, rfl⟩

/-- Every other address reads as before a write. -/
theorem Memory.read_write_ne {sp : Space} {a x : Nat} (h : x ≠ a) (v : Byte) : ∀ m : Memory,
    Memory.read sp (Memory.write m a v) x = Memory.read sp m x
  | [] => by simp [Memory.write, Memory.read, Ne.symm h]
  | (b, w) :: m => by
    unfold Memory.write
    split
    · simp [Memory.read, Ne.symm h]
    · split
      · subst ‹a = b›; simp [Memory.read, Ne.symm h]
      · simp [Memory.read, Memory.read_write_ne h v m]

theorem Memory.read_write_self {sp : Space} (a : Nat) (v : Byte) : ∀ m : Memory,
    Memory.read sp (Memory.write m a v) a = v
  | [] => by simp [Memory.write, Memory.read]
  | (b, w) :: m => by
    unfold Memory.write
    split
    · simp [Memory.read]
    · split
      · simp [Memory.read]
      · simp [Memory.read, Ne.symm ‹¬a = b›, Memory.read_write_self a v m]

/-- Read after write. -/
theorem Memory.read_write {sp : Space} (m : Memory) (a : Nat) (v : Byte) (x : Nat) :
    Memory.read sp (Memory.write m a v) x = if x = a then v else Memory.read sp m x := by
  split
  · subst ‹x = a›; exact Memory.read_write_self x v m
  · exact Memory.read_write_ne ‹_› v m

theorem Memory.read_writeRun {sp : Space} (v : Byte) (x : Nat) : ∀ (n : Nat) (m : Memory) (a : Nat),
    Memory.read sp (Memory.writeRun m a n v) x = if a ≤ x ∧ x < a + n then v else Memory.read sp m x
  | 0, m, a => by simp only [Memory.writeRun]; rw [if_neg (by omega)]
  | n + 1, m, a => by
    rw [Memory.writeRun, Memory.read_writeRun v x n, Memory.read_write]
    by_cases h1 : a + 1 ≤ x ∧ x < a + 1 + n
    · rw [if_pos h1, if_pos (by omega)]
    · rw [if_neg h1]
      by_cases h2 : x = a
      · rw [if_pos h2, if_pos (by omega)]
      · rw [if_neg h2, if_neg (by omega)]

/-- The addresses a run does not cover read as before. -/
theorem Memory.read_writeRun_outside {sp : Space} {x : Nat} (v : Byte) (n : Nat) (m : Memory) (a : Nat)
    (h : x < a ∨ a + n ≤ x) : Memory.read sp (Memory.writeRun m a n v) x = Memory.read sp m x := by
  rw [Memory.read_writeRun, if_neg (by omega)]

/-- A written memory lists no address but those listed before and the one written. -/
theorem Memory.mem_write {a : Nat} {v : Byte} {e : Host.Cell} : ∀ {m : Memory}, e ∈ Memory.write m a v →
    e.1 = a ∨ e ∈ m
  | [], h => by simp_all [Memory.write]
  | (b, w) :: m, h => by
    unfold Memory.write at h
    split at h
    · rcases List.mem_cons.1 h with rfl | h
      · exact .inl rfl
      · exact .inr h
    · split at h
      · rcases List.mem_cons.1 h with rfl | h
        · exact .inl rfl
        · exact .inr (List.mem_cons_of_mem _ h)
      · rcases List.mem_cons.1 h with rfl | h
        · exact .inr List.mem_cons_self
        · exact (Memory.mem_write h).imp id (List.mem_cons_of_mem _)

theorem Memory.mem_writeRun {v : Byte} {e : Host.Cell} : ∀ {n : Nat} {m : Memory} {a : Nat},
    e ∈ Memory.writeRun m a n v → (a ≤ e.1 ∧ e.1 < a + n) ∨ e ∈ m
  | 0, _, _, h => .inr h
  | n + 1, m, a, h => by
    rcases Memory.mem_writeRun (n := n) h with h | h
    · exact .inl (by omega)
    · rcases Memory.mem_write h with h | h
      · exact .inl (by omega)
      · exact .inr h

end Sys2Proof.Machine
end

