-- ==== Sys2Proof/Laws/Work.lean ====
section
/-! SUPPORT. Laws of the working memories, move-to-front and the UNSPECIFIED spans. -/

namespace Sys2Proof.Machine

section
variable {α : Type}

@[simp] theorem length_firstN (l : List α) (n : Nat) (d : α) : (firstN l n d).length = n := by
  simp [firstN]; omega

/-- What `firstN` holds: the entries of the memory, the default where none has been written. -/
theorem getD_firstN (l : List α) (n : Nat) (d : α) (k : Nat) :
    (firstN l n d).getD k d = if k < n then l.getD k d else d := by
  simp only [firstN, List.getD_eq_getElem?_getD, List.getElem?_append, List.length_take, List.getElem?_take,
    List.getElem?_replicate]
  split <;> split <;> simp_all

/-- What an overwritten memory reads as. -/
theorem getD_putAll (l : List α) (i : Nat) (vs : List α) (d : α) (k : Nat) :
    (putAll l i vs d).getD k d = if i ≤ k ∧ k < i + vs.length then vs.getD (k - i) d else l.getD k d := by
  rw [putAll, List.getD_eq_getElem?_getD, List.append_assoc, List.getElem?_append, length_firstN]
  split
  · rw [← List.getD_eq_getElem?_getD, getD_firstN, if_pos ‹_›, if_neg (by omega)]
  · rw [List.getElem?_append]
    split
    · rw [if_pos (by omega), List.getD_eq_getElem?_getD]
    · rw [if_neg (by omega), List.getElem?_drop, List.getD_eq_getElem?_getD]
      congr 2; omega

/-- One entry written. -/
theorem getD_put (l : List α) (i : Nat) (v d : α) (k : Nat) :
    (putAll l i [v] d).getD k d = if k = i then v else l.getD k d := by
  rw [getD_putAll]
  by_cases h : k = i
  · subst h; simp
  · rw [if_neg h, if_neg (by simp; omega)]

/-- Two lists of one length with the same entries are one list. -/
theorem eq_of_getD {l l' : List α} (d : α) (hl : l.length = l'.length)
    (h : ∀ k < l.length, l.getD k d = l'.getD k d) : l = l' := by
  apply List.ext_getElem hl
  intro k hk hk'
  have := h k hk
  simpa [List.getD_eq_getElem?_getD, hk, hk'] using this

theorem mem_putAll {l : List α} {i : Nat} {vs : List α} {d x : α} (h : x ∈ putAll l i vs d) :
    x ∈ l ∨ x = d ∨ x ∈ vs := by
  simp only [putAll, firstN, List.mem_append] at h
  rcases h with ((h | h) | h) | h
  · exact .inl (List.mem_of_mem_take h)
  · exact .inr (.inl (List.eq_of_mem_replicate h))
  · exact .inr (.inr h)
  · exact .inl (List.mem_of_mem_drop h)

/-- `mtf_take` inside the list (43_selectors_and_tables.md R161). -/
theorem mtfTake_of_getElem? {d v : α} {l : List α} {i : Nat} (h : l[i]? = some v) :
    mtfTake d l i = (v, v :: l.eraseIdx i) := by
  simp [mtfTake, h, List.eraseIdx_eq_take_drop_succ]

theorem mtfTake_of_none {d : α} {l : List α} {i : Nat} (h : l[i]? = none) : mtfTake d l i = (d, l) := by
  simp [mtfTake, h]

/-- `mtf_take` permutes the list. -/
theorem mtfTake_perm (d : α) (l : List α) (i : Nat) : (mtfTake d l i).2.Perm l := by
  cases h : l[i]? with
  | none => rw [mtfTake_of_none h]
  | some v =>
    rw [mtfTake_of_getElem? h]
    obtain ⟨hi, rfl⟩ := List.getElem?_eq_some_iff.1 h
    exact List.getElem_cons_eraseIdx_perm hi

theorem mtfTake_mem {d : α} {l : List α} {i : Nat} (h : i < l.length) : (mtfTake d l i).1 ∈ l := by
  have h' : l[i]? = some l[i] := by simp [h]
  rw [mtfTake_of_getElem? h']
  exact List.getElem_mem h

end

/-- Adding a span: its bytes are the run's, every other as before. -/
theorem leftBy_spanAdd (a lo hi run : Nat) (spans : List FreeSpan) :
    leftBy a (spanAdd lo hi run spans) = if lo ≤ a ∧ a < hi then some run else leftBy a spans := by
  unfold spanAdd
  split
  · rfl
  · rw [if_neg (by omega)]

/-- Taking a span out: its bytes are specified, every other as before. -/
theorem leftBy_spanErase (a lo hi : Nat) : ∀ spans : List FreeSpan,
    leftBy a (spanErase lo hi spans) = if lo ≤ a ∧ a < hi then none else leftBy a spans
  | []      => by simp [spanErase, leftBy]
  | p :: ps => by
    rw [spanErase, leftBy_spanAdd, leftBy_spanAdd, leftBy_spanErase a lo hi ps, leftBy]
    by_cases h : lo ≤ a ∧ a < hi
    · rw [if_neg (by omega), if_neg (by omega), if_pos h, if_pos h]
    · rw [if_neg h, if_neg h]
      by_cases hp : p.lo ≤ a ∧ a < p.hi
      · rw [if_pos hp]
        by_cases hl : a < lo
        · rw [if_pos (by omega)]
        · rw [if_neg (by omega), if_pos (by omega)]
      · rw [if_neg (by omega), if_neg (by omega), if_neg hp]

end Sys2Proof.Machine
end

