-- ==== Sys2Proof/Laws/Ops.lean ====
section
/-! SUPPORT. What each shared operation can do, said once; later proofs cite these instead of unfolding. -/

namespace Sys2Proof.Machine

/-- The first used range at or after `i` is found where the ranges before it are clear (42_block_header.md R143). -/
theorem nextUsedRange_eq (m : BitVec 16) {j : Nat} (hj : j = 16 ∨ (j < 16 ∧ m.getLsbD (15 - j) = true)) :
    ∀ (fuel i : Nat), i ≤ j → j ≤ i + fuel → (∀ k, i ≤ k → k < j → m.getLsbD (15 - k) = false) →
      nextUsedRange m fuel i = j
  | 0, i, h1, h2, _ => by simp only [nextUsedRange]; omega
  | fuel + 1, i, h1, h2, h3 => by
    unfold nextUsedRange
    by_cases hij : i = j
    · subst hij
      rw [if_neg]
      rintro ⟨h16, hf⟩
      rcases hj with rfl | ⟨_, hj⟩
      · omega
      · simp [rangeUsed, hj] at hf
    · rw [if_pos ⟨by omega, h3 i (le_refl _) (by omega)⟩]
      exact nextUsedRange_eq m hj fuel (i + 1) (by omega) (by omega) fun k hk => h3 k (by omega)

/-- The bitmap's completion, from the bytes collected (42_block_header.md R145). -/
theorem bitmapDone_empty {s : State} (h : s.seq = []) : bitmapDone s = fail .noSymbols { s with nInUse := 0 } := by
  simp [bitmapDone, h]

theorem bitmapDone_used {s : State} (h : s.seq ≠ []) : bitmapDone s =
    { s with nInUse := s.seq.length, alpha := s.seq.length + 2, mtf := s.seq, phase := .ngrp } := by
  have : s.seq.length ≠ 0 := by simpa using h
  simp [bitmapDone, this]

/-- The group switch (44_symbol_decode.md R180). -/
theorem groupSwitch_none {s : State} (h0 : s.gpos = 0) (h : s.nSel ≤ s.gno) : groupSwitch s = none := by
  simp [groupSwitch, h0, h]

theorem groupSwitch_due {s : State} (h0 : s.gpos = 0) (h : s.gno < s.nSel) : groupSwitch s =
    some { s with active := s.selector.getD s.gno 0, gno := s.gno + 1, gpos := 49 } := by
  simp [groupSwitch, h0, Nat.not_le.2 h, gSize]

theorem groupSwitch_running {s : State} (h0 : s.gpos ≠ 0) : groupSwitch s = some { s with gpos := s.gpos - 1 } := by
  simp [groupSwitch, h0]

/-- All that the group switch writes: `active`, `gno`, `gpos`. -/
theorem groupSwitch_eq {s t : State} (h : groupSwitch s = some t) :
    t = { s with active := t.active, gno := t.gno, gpos := t.gpos } := by
  unfold groupSwitch at h
  split at h
  · split at h
    · simp at h
    · simp only [Option.some.injEq] at h; subst h; rfl
  · simp only [Option.some.injEq] at h; subst h; rfl

/-- The flush (44_symbol_decode.md R184): all that it writes is `tt`, `size`, `rep`. -/
theorem flushRun_zero {s : State} (h : s.rep = 0) : flushRun s = some s := by simp [flushRun, h]

theorem flushRun_fits {s : State} (h : 0 < s.rep) (hf : s.size + s.rep ≤ s.blkMax) : flushRun s =
    some { s with tt := putAll s.tt s.size (List.replicate s.rep (s.mtf.getD 0 0)) 0, size := s.size + s.rep, rep := 0 } := by
  simp [flushRun, Nat.pos_iff_ne_zero.1 h, Nat.not_lt.2 hf]

theorem flushRun_full {s : State} (h : 0 < s.rep) (hf : s.blkMax < s.size + s.rep) : flushRun s = none := by
  simp [flushRun, Nat.pos_iff_ne_zero.1 h, hf]

theorem flushRun_eq {s t : State} (h : flushRun s = some t) :
    t = { s with tt := t.tt, size := t.size, rep := 0 } ∧ (s.size ≤ s.blkMax → t.size ≤ t.blkMax) := by
  unfold flushRun at h
  split at h
  · simp only [Option.some.injEq] at h; subst h
    exact ⟨by rw [← ‹s.rep = 0›], id⟩
  · split at h
    · simp at h
    · simp only [Option.some.injEq] at h; subst h
      exact ⟨rfl, fun _ => by show s.size + s.rep ≤ s.blkMax; omega⟩

/-- A symbol's step, its two outcomes. -/
theorem symbolStep_none {s : State} (h : groupSwitch s = none) (sym : Nat) (act : State → State) :
    symbolStep sym act s = fail .selectorsExhausted s := by simp [symbolStep, h]

theorem symbolStep_some {s t : State} (h : groupSwitch s = some t) (sym : Nat) (act : State → State) :
    symbolStep sym act s = act (advance ((activeTable t).lens.getD sym 0) t) := by simp [symbolStep, h]

/-- The emission loop (46_final_rle.md R210): it writes OUT_MEM and `fin_len` and nothing else; the length it reaches
stays in the room; no byte outside the room is touched; addresses it lists lie in the room. -/
theorem emitRuns_frame (room : Nat) : ∀ (runs : List (Nat × Byte)) (c : U32) (s : State), s.finLen ≤ room →
    let t := (emitRuns room runs c s).1
    t = { s with outMem := t.outMem, finLen := t.finLen } ∧ t.finLen ≤ room
      ∧ (∀ a, a < s.outLen.toNat ∨ s.outLen.toNat + room ≤ a → Memory.read .output t.outMem a = Memory.read .output s.outMem a)
      ∧ (Memory.wf s.outMem = true → Memory.wf t.outMem = true)
      ∧ ∀ e ∈ t.outMem, e ∈ s.outMem ∨ e.1 < s.outLen.toNat + room
  | [], c, s, h => ⟨rfl, h, fun _ _ => rfl, id, fun _ he => .inl he⟩
  | (run, b) :: rest, c, s, h => by
    unfold emitRuns
    split
    · exact ⟨rfl, h, fun _ _ => rfl, id, fun _ he => .inl he⟩
    · obtain ⟨h1, h2, h3, h4, h5⟩ := emitRuns_frame room rest (crcRun run b c)
        { s with outMem := Memory.writeRun s.outMem (s.outLen.toNat + s.finLen) run b, finLen := s.finLen + run }
        (by simp only; omega)
      refine ⟨h1, h2, fun a ha => ?_, fun hw => h4 (Memory.wf_writeRun b run _ hw), fun e he => ?_⟩
      · rw [h3 a ha]
        exact Memory.read_writeRun_outside b run _ _ (by rename_i hn; omega)
      · rcases h5 e he with h | h
        · rcases Memory.mem_writeRun h with h | h
          · right; simp only at *; omega
          · exact .inl h
        · exact .inr h

/-- A run of a byte through the CRC is the byte's copies through it. -/
theorem crcRun_eq (n : Nat) (b : Byte) (c : U32) : crcRun n b c = (List.replicate n b).foldl crcStep c := by
  induction n generalizing c with
  | zero => rfl
  | succ n ih => rw [crcRun, ih, List.replicate_succ, List.foldl_cons]

/-- The emission loop where everything fits: the final bytes are written from OUT_LEN + `fin_len` upward, counted and
fed to the CRC. -/
theorem emitRuns_fits (room : Nat) : ∀ (runs : List (Nat × Byte)) (c : U32) (s : State),
    let out := runs.flatMap fun r => List.replicate r.1 r.2
    s.finLen + out.length ≤ room →
    ∃ t, emitRuns room runs c s = (t, some (out.foldl crcStep c))
      ∧ t.finLen = s.finLen + out.length
      ∧ ∀ a, Memory.read .output t.outMem a =
          if s.outLen.toNat + s.finLen ≤ a ∧ a < s.outLen.toNat + s.finLen + out.length
          then out.getD (a - (s.outLen.toNat + s.finLen)) 0 else Memory.read .output s.outMem a
  | [], c, s, _ => ⟨s, rfl, rfl, fun a => by simp⟩
  | (run, b) :: rest, c, s, h => by
    simp only [List.flatMap_cons, List.length_append, List.length_replicate] at h
    unfold emitRuns
    rw [if_neg (by omega)]
    obtain ⟨t, h1, h2, h3⟩ := emitRuns_fits room rest (crcRun run b c)
      { s with outMem := Memory.writeRun s.outMem (s.outLen.toNat + s.finLen) run b, finLen := s.finLen + run }
      (by simp only; omega)
    refine ⟨t, ?_, ?_, fun a => ?_⟩
    · rw [h1, crcRun_eq, List.flatMap_cons, List.foldl_append]
    · rw [h2]; simp only [List.flatMap_cons, List.length_append, List.length_replicate]; omega
    · rw [h3 a]
      simp only [List.flatMap_cons, List.length_append, List.length_replicate]
      by_cases hl : s.outLen.toNat + (s.finLen + run) ≤ a ∧
          a < s.outLen.toNat + (s.finLen + run) + (rest.flatMap fun r => List.replicate r.1 r.2).length
      · rw [if_pos hl, if_pos (by omega), List.getD_eq_getElem?_getD, List.getD_eq_getElem?_getD, List.getElem?_append,
          if_neg (by simp; omega)]
        congr 2; simp; omega
      · rw [if_neg hl, Memory.read_writeRun]
        by_cases hr : s.outLen.toNat + s.finLen ≤ a ∧ a < s.outLen.toNat + s.finLen + run
        · rw [if_pos hr, if_pos (by omega), List.getD_eq_getElem?_getD, List.getElem?_append,
            if_pos (by simp; omega)]
          simp only [List.getElem?_replicate]
          rw [if_pos (by omega)]; rfl
        · rw [if_neg hr, if_neg (by omega)]

/-- The emission loop where the final bytes do not all fit: no CRC. -/
theorem emitRuns_overflow (room : Nat) : ∀ (runs : List (Nat × Byte)) (c : U32) (s : State),
    s.finLen ≤ room → room < s.finLen + (runs.flatMap fun r => List.replicate r.1 r.2).length →
    (emitRuns room runs c s).2 = none
  | [], c, s, h0, h => by simp at h; omega
  | (run, b) :: rest, c, s, h0, h => by
    unfold emitRuns
    split
    · rfl
    · refine emitRuns_overflow room rest _ _ (by simp only; omega) ?_
      simp only [List.flatMap_cons, List.length_append, List.length_replicate] at h ⊢
      omega

/-- The engine's turn taken off the schedule. -/
theorem step_alone {s : State} (h : s.schedule = []) : step s = engineTurn s := by
  simp [step, takeTurn, h]

theorem step_host (s : State) (m : HostMove) (rest : List Turn) :
    step { s with schedule := .host m :: rest } = hostTurn m { s with schedule := rest } := rfl

theorem step_reset (s : State) (rest : List Turn) :
    step { s with schedule := .reset :: rest } = .next (resetInput { s with schedule := rest }) := rfl

/-- What the engine's turn does with what the fetch finds. -/
theorem engineTurn_token {s : State} {i : Instr} (h : fetch s = .token i) : engineTurn s = exec i s := by
  simp [engineTurn, h]

theorem engineTurn_ended {s t : State} (h : fetch s = .ended t) : engineTurn s = .next t := by
  simp [engineTurn, h]

theorem engineTurn_idle {s : State} (h : fetch s = .idle) : engineTurn s = .next s := by
  simp [engineTurn, h]

/-- Where no check comes before the bits, the fetch is the decoder's answer at the cursor. -/
theorem fetch_plain {s : State} (h1 : s.phase ≠ .header) (h2 : s.phase ≠ .lenDelta) (h3 : s.phase ≠ .symbol) :
    fetch s = decodeAt s := by
  unfold fetch; split <;> first | contradiction | rfl

theorem fetch_header {s : State} (h : s.phase = .header) (hl : 14 ≤ s.inLen.toNat) : fetch s = decodeAt s := by
  unfold fetch; simp only [h]; rw [if_neg (Nat.not_lt.2 hl)]

theorem fetch_header_short {s : State} (h : s.phase = .header) (hl : s.inLen.toNat < 14) :
    fetch s = .ended (fail .hdrShort s) := by
  unfold fetch; simp only [h]; rw [if_pos hl]

theorem codeLenLegal_iff {n : Int} : codeLenLegal n = true ↔ 1 ≤ n ∧ n ≤ 20 := by simp [codeLenLegal]

theorem codeLenLegal_false {n : Int} : codeLenLegal n = false ↔ n < 1 ∨ 20 < n := by
  simp [codeLenLegal]; omega

theorem fetch_lenDelta {s : State} (h : s.phase = .lenDelta)
    (hl : s.cfg.lenCheck = .everyStep → 1 ≤ s.curLen ∧ s.curLen ≤ 20) : fetch s = decodeAt s := by
  unfold fetch; simp only [h]; rw [if_neg]
  rintro ⟨he, hc⟩
  have := hl he
  rw [codeLenLegal_false] at hc; omega

theorem fetch_lenDelta_bad {s : State} (h : s.phase = .lenDelta) (he : s.cfg.lenCheck = .everyStep)
    (hl : s.curLen < 1 ∨ 20 < s.curLen) : fetch s = .ended (fail .badCodeLen s) := by
  unfold fetch; simp only [h]; rw [if_pos ⟨he, codeLenLegal_false.2 hl⟩]

theorem fetch_symbol {s t : State} (h : s.phase = .symbol) (hs : groupSwitch s = some t) : fetch s = decodeAt t := by
  unfold fetch; simp only [h, hs]

theorem fetch_symbol_exhausted {s : State} (h : s.phase = .symbol) (hs : groupSwitch s = none) :
    fetch s = .ended (fail .selectorsExhausted s) := by
  unfold fetch; simp only [h, hs]

/-- The decoder's answer, as the fetch takes it. -/
theorem decodeAt_token {s : State} {i : Instr} {n : Nat} (h : decode (context s) (window s) = .token i n) :
    decodeAt s = .token i := by simp [decodeAt, h]

theorem decodeAt_truncated {s : State} {n : Nat} (h : decode (context s) (window s) = .truncated n) :
    decodeAt s = .ended (fail .trunc (advance n s)) := by simp [decodeAt, h]

theorem decodeAt_illegal {s : State} {c : Cause} {n : Nat} (h : decode (context s) (window s) = .illegal c n) :
    decodeAt s = .ended (fail c (advance n s)) := by simp [decodeAt, h]

theorem decodeAt_noToken {s : State} (h : decode (context s) (window s) = .noToken) : decodeAt s = .idle := by
  simp [decodeAt, h]

/-- Every instruction answers a next state. -/
theorem exec_next (i : Instr) (s : State) : ∃ t, exec i s = .next t := by
  cases i <;> simp only [exec, execHdr, execBlock, execEos, execScrc, execBcrc, execRand, execPtr, execMap1, execMap2,
    execNgrp, execNsel, execSel, execLen5, execLkeep, execLinc, execLdec, execRuna, execRunb, execMtf, execEob,
    execBuild, execIbwt, execRle, execCheck, execStart, execIrqEnSet, execDoneClr, execInLenSet, execOutCapSet]
  all_goals (repeat' split) <;> exact ⟨_, rfl⟩

end Sys2Proof.Machine
end

