-- ==== Sys2Proof/Laws/Frame.lean ====
section
/-! SUPPORT. What a token or internal operation can do, said once: what it never writes, and the ways its run can go on
or end. -/

namespace Sys2Proof.Machine

/-- Nothing is written that only the host, a commit, RLE or the end of a run writes. -/
structure Keeps (s t : State) : Prop where
  cfg        : t.cfg = s.cfg
  irqEn      : t.irqEn = s.irqEn
  inLen      : t.inLen = s.inLen
  outCap     : t.outCap = s.outCap
  outLen     : t.outLen = s.outLen
  streamCrc  : t.streamCrc = s.streamCrc
  blockCount : t.blockCount = s.blockCount
  inMem      : t.inMem = s.inMem
  outMem     : t.outMem = s.outMem
  runIndex    : t.runIndex = s.runIndex
  schedule   : t.schedule = s.schedule
  busData    : t.busData = s.busData
  busy       : t.busy = s.busy
  done       : t.done = s.done
  err        : t.err = s.err
  errKind    : t.errKind = s.errKind
  errCause   : t.errCause = s.errCause
  errBitpos  : t.errBitpos = s.errBitpos
  outFree    : t.outFree = s.outFree

/-- What a token or internal operation, RLE's stores and CHECK's commit apart, leaves: the run failed or finished on a
state that keeps the frame, or goes on in one. -/
inductive TokenFrame (s : State) : State → Prop where
  | failed (c : Cause) (u : State) (h : Keeps s u) : TokenFrame s (fail c u)
  | finished (u : State) (h : Keeps s u) : TokenFrame s (finish u)
  | goesOn (t : State) (h : Keeps s t) (hp : t.phase ≠ .idle ∨ t.phase = s.phase) : TokenFrame s t

theorem Keeps.refl (s : State) : Keeps s s :=
  by constructor <;> rfl

theorem Keeps.trans {s t u : State} (h : Keeps s t) (k : Keeps t u) : Keeps s u :=
  ⟨k.cfg.trans h.cfg, k.irqEn.trans h.irqEn, k.inLen.trans h.inLen, k.outCap.trans h.outCap, k.outLen.trans h.outLen,
    k.streamCrc.trans h.streamCrc, k.blockCount.trans h.blockCount, k.inMem.trans h.inMem, k.outMem.trans h.outMem,
    k.runIndex.trans h.runIndex, k.schedule.trans h.schedule, k.busData.trans h.busData, k.busy.trans h.busy,
    k.done.trans h.done, k.err.trans h.err, k.errKind.trans h.errKind, k.errCause.trans h.errCause,
    k.errBitpos.trans h.errBitpos, k.outFree.trans h.outFree⟩

theorem Keeps.advance (n : Nat) (s : State) : Keeps s (advance n s) :=
  by constructor <;> rfl

theorem keeps_groupSwitch {s u : State} (h : groupSwitch s = some u) : Keeps s u := by
  rw [groupSwitch_eq h]
  constructor <;> rfl

theorem frame_symbolStep {s : State} {sym : Nat} {act : State → State}
    (h : ∀ u, Keeps s u → u.phase = s.phase → TokenFrame s (act u)) : TokenFrame s (symbolStep sym act s) := by
  cases hg : groupSwitch s with
  | none => rw [symbolStep_none hg]; exact .failed _ _ (.refl s)
  | some u =>
    rw [symbolStep_some hg]
    have k := keeps_groupSwitch hg
    refine h _ (k.trans (by constructor <;> rfl)) ?_
    rw [groupSwitch_eq hg]; rfl

theorem frame_flushThen {s u : State} {act : State → State} (k : Keeps s u)
    (h : ∀ v, Keeps s v → v.phase = u.phase → TokenFrame s (act v)) : TokenFrame s (flushThen act u) := by
  unfold flushThen
  cases hf : flushRun u with
  | none => exact .failed _ _ k
  | some v =>
    simp only
    have hv := (flushRun_eq hf).1
    refine h v ?_ (by rw [hv])
    rw [hv]
    exact (k.trans (by constructor <;> rfl))

theorem frame_nextRange {s u : State} (k : Keeps s u) : TokenFrame s (nextRange u) := by
  unfold nextRange
  simp only
  split
  · unfold bitmapDone
    simp only
    split
    · exact .failed _ _ (k.trans (by constructor <;> rfl))
    · exact .goesOn _ (k.trans (by constructor <;> rfl))
        (.inl Phase.noConfusion)
  · exact .goesOn _ (k.trans (by constructor <;> rfl))
      (.inl Phase.noConfusion)

theorem frame_symbol {i : Instr} {s t : State} (h : exec i s = .next t)
    (hi : i = .runa ∨ i = .runb ∨ (∃ k, i = .mtf k) ∨ i = .eob) : TokenFrame s t := by
  rcases hi with rfl | rfl | ⟨n, rfl⟩ | rfl
  · simp only [exec, execRuna, Host.Outcome.next.injEq] at h; subst h
    exact frame_symbolStep fun u k hp => .goesOn _ (k.trans (by constructor <;> rfl)) (.inr hp)
  · simp only [exec, execRunb, Host.Outcome.next.injEq] at h; subst h
    exact frame_symbolStep fun u k hp => .goesOn _ (k.trans (by constructor <;> rfl)) (.inr hp)
  · simp only [exec, execMtf, Host.Outcome.next.injEq] at h; subst h
    refine frame_symbolStep fun u k hp => frame_flushThen k fun v k hv => ?_
    unfold emitMtf
    split
    · exact .failed _ _ k
    · exact .goesOn _ (k.trans (by constructor <;> rfl)) (.inr (hv.trans hp))
  · simp only [exec, execEob, Host.Outcome.next.injEq] at h; subst h
    exact frame_symbolStep fun u k hp => frame_flushThen k fun v k hv => .goesOn _ (k.trans (by constructor <;> rfl)) (.inl Phase.noConfusion)

theorem frame_hdr (d : BitVec 8) {s t : State} (h : execHdr d s = .next t) : TokenFrame s t := by
  unfold execHdr at h
  simp only at h
  (repeat' split at h) <;> (simp only [Host.Outcome.next.injEq] at h; subst h)
  · exact .failed _ _ (by constructor <;> rfl)
  · exact .goesOn _ (by constructor <;> rfl) (.inl Phase.noConfusion)
  · exact .failed _ _ (by constructor <;> rfl)

theorem frame_block {s t : State} (h : execBlock s = .next t) : TokenFrame s t := by
  unfold execBlock at h
  simp only [Host.Outcome.next.injEq] at h; subst h
  exact .goesOn _ (by constructor <;> rfl) (.inl Phase.noConfusion)

theorem frame_eos {s t : State} (h : execEos s = .next t) : TokenFrame s t := by
  unfold execEos at h
  simp only [Host.Outcome.next.injEq] at h; subst h
  exact .goesOn _ (by constructor <;> rfl) (.inl Phase.noConfusion)

theorem frame_scrc (v : BitVec 32) {s t : State} (h : execScrc v s = .next t) : TokenFrame s t := by
  unfold execScrc at h
  simp only at h
  (repeat' split at h) <;> (simp only [Host.Outcome.next.injEq] at h; subst h)
  · exact .finished _ (by constructor <;> rfl)
  · exact .failed _ _ (by constructor <;> rfl)

theorem frame_bcrc (v : BitVec 32) {s t : State} (h : execBcrc v s = .next t) : TokenFrame s t := by
  unfold execBcrc at h
  simp only [Host.Outcome.next.injEq] at h; subst h
  exact .goesOn _ (by constructor <;> rfl) (.inl Phase.noConfusion)

theorem frame_rand (r : BitVec 1) {s t : State} (h : execRand r s = .next t) : TokenFrame s t := by
  unfold execRand at h
  simp only at h
  (repeat' split at h) <;> (simp only [Host.Outcome.next.injEq] at h; subst h)
  · exact .failed _ _ (by constructor <;> rfl)
  · exact .goesOn _ (by constructor <;> rfl) (.inl Phase.noConfusion)

theorem frame_ptr (p : BitVec 24) {s t : State} (h : execPtr p s = .next t) : TokenFrame s t := by
  unfold execPtr at h
  simp only [Host.Outcome.next.injEq] at h; subst h
  exact .goesOn _ (by constructor <;> rfl) (.inl Phase.noConfusion)

theorem frame_ngrp (g : BitVec 3) {s t : State} (h : execNgrp g s = .next t) : TokenFrame s t := by
  unfold execNgrp at h
  simp only at h
  (repeat' split at h) <;> (simp only [Host.Outcome.next.injEq] at h; subst h)
  · exact .failed _ _ (by constructor <;> rfl)
  · exact .goesOn _ (by constructor <;> rfl) (.inl Phase.noConfusion)

theorem frame_nsel (n : BitVec 15) {s t : State} (h : execNsel n s = .next t) : TokenFrame s t := by
  unfold execNsel at h
  simp only at h
  (repeat' split at h) <;> (simp only [Host.Outcome.next.injEq] at h; subst h)
  · exact .failed _ _ (by constructor <;> rfl)
  · exact .failed _ _ (by constructor <;> rfl)
  · exact .goesOn _ (by constructor <;> rfl) (.inl Phase.noConfusion)

theorem frame_sel (n : Nat) {s t : State} (h : execSel n s = .next t) : TokenFrame s t := by
  unfold execSel at h
  simp only at h
  (repeat' split at h) <;> (simp only [Host.Outcome.next.injEq] at h; subst h)
  · exact .failed _ _ (by constructor <;> rfl)
  · exact .goesOn _ (by constructor <;> rfl) (.inl Phase.noConfusion)
  · exact .goesOn _ (by constructor <;> rfl) (.inr rfl)

theorem frame_len5 (l : BitVec 5) {s t : State} (h : execLen5 l s = .next t) : TokenFrame s t := by
  unfold execLen5 at h
  simp only [Host.Outcome.next.injEq] at h; subst h
  exact .goesOn _ (by constructor <;> rfl) (.inl Phase.noConfusion)

theorem frame_lkeep {s t : State} (h : execLkeep s = .next t) : TokenFrame s t := by
  unfold execLkeep at h
  simp only at h
  (repeat' split at h) <;> (simp only [Host.Outcome.next.injEq] at h; subst h)
  · exact .goesOn _ (by constructor <;> rfl) (.inl Phase.noConfusion)
  · exact .goesOn _ (by constructor <;> rfl) (.inr rfl)
  · exact .failed _ _ (by constructor <;> rfl)

theorem frame_linc {s t : State} (h : execLinc s = .next t) : TokenFrame s t := by
  unfold execLinc at h
  simp only [Host.Outcome.next.injEq] at h; subst h
  exact .goesOn _ (by constructor <;> rfl) (.inr rfl)

theorem frame_ldec {s t : State} (h : execLdec s = .next t) : TokenFrame s t := by
  unfold execLdec at h
  simp only [Host.Outcome.next.injEq] at h; subst h
  exact .goesOn _ (by constructor <;> rfl) (.inr rfl)

theorem frame_build {s t : State} (h : execBuild s = .next t) : TokenFrame s t := by
  unfold execBuild at h
  simp only at h
  (repeat' split at h) <;> (simp only [Host.Outcome.next.injEq] at h; subst h)
  · exact .goesOn _ (by constructor <;> rfl) (.inl Phase.noConfusion)
  · exact .goesOn _ (by constructor <;> rfl) (.inl Phase.noConfusion)

theorem frame_ibwt {s t : State} (h : execIbwt s = .next t) : TokenFrame s t := by
  unfold execIbwt at h
  simp only at h
  (repeat' split at h) <;> (simp only [Host.Outcome.next.injEq] at h; subst h)
  · exact .failed _ _ (by constructor <;> rfl)
  · exact .goesOn _ (by constructor <;> rfl) (.inl Phase.noConfusion)
  · exact .failed _ _ (by constructor <;> rfl)

/-- Every token and internal operation but RLE and a CHECK that commits keeps the frame. -/
theorem exec_frame {i : Instr} {s t : State} (h : exec i s = .next t) (hi : i.hostOffset = none) (hr : i ≠ .rle)
    (hc : i = .check → s.bcrc ≠ s.storedCrc) : TokenFrame s t := by
  cases i with
  | rle => exact absurd rfl hr
  | map1 m =>
    simp only [exec, execMap1, Host.Outcome.next.injEq] at h; subst h
    exact frame_nextRange (by constructor <;> rfl)
  | map2 m =>
    simp only [exec, execMap2, Host.Outcome.next.injEq] at h; subst h
    exact frame_nextRange (by constructor <;> rfl)
  | check =>
    simp only [exec, execCheck] at h
    rw [if_neg (hc rfl)] at h
    simp only [Host.Outcome.next.injEq] at h; subst h
    exact .failed _ _ (by constructor <;> rfl)
  | runa => exact frame_symbol h (.inl rfl)
  | runb => exact frame_symbol h (.inr (.inl rfl))
  | mtf n => exact frame_symbol h (.inr (.inr (.inl ⟨n, rfl⟩)))
  | eob => exact frame_symbol h (.inr (.inr (.inr rfl)))
  | hdr _ => exact frame_hdr _ h
  | block => exact frame_block h
  | eos => exact frame_eos h
  | scrc _ => exact frame_scrc _ h
  | bcrc _ => exact frame_bcrc _ h
  | rand _ => exact frame_rand _ h
  | ptr _ => exact frame_ptr _ h
  | ngrp _ => exact frame_ngrp _ h
  | nsel _ => exact frame_nsel _ h
  | sel _ => exact frame_sel _ h
  | len5 _ => exact frame_len5 _ h
  | lkeep => exact frame_lkeep h
  | linc => exact frame_linc h
  | ldec => exact frame_ldec h
  | build => exact frame_build h
  | ibwt => exact frame_ibwt h
  | start _ | irqEnSet _ | doneClr _ | inLenSet _ | outCapSet _ => simp only [Instr.hostOffset] at hi; cases hi

/-- All that RLE can do (46_final_rle.md R210). -/
theorem execRle_frame {s t : State} (h : execRle s = .next t) :
    ∃ u, u = { s with outMem := u.outMem, finLen := u.finLen }
      ∧ u.finLen ≤ s.outCap.toNat - s.outLen.toNat
      ∧ (∀ a, a < s.outLen.toNat ∨ s.outLen.toNat + (s.outCap.toNat - s.outLen.toNat) ≤ a →
          Memory.read .output u.outMem a = Memory.read .output s.outMem a)
      ∧ (Memory.wf s.outMem = true → Memory.wf u.outMem = true)
      ∧ (∀ e ∈ u.outMem, e ∈ s.outMem ∨ e.1 < s.outLen.toNat + (s.outCap.toNat - s.outLen.toNat))
      ∧ (t = fail .outCap u ∨ ∃ c, t = { u with bcrc := c, phase := .check }) := by
  obtain ⟨g1, g2, g3, g4, g5⟩ := emitRuns_frame (s.outCap.toNat - s.outLen.toNat) (rleRuns (firstN s.dst s.size 0)) crcInit
    { s with finLen := 0 } (Nat.zero_le _)
  unfold execRle at h
  rcases hr : emitRuns (s.outCap.toNat - s.outLen.toNat) (rleRuns (firstN s.dst s.size 0)) crcInit { s with finLen := 0 }
    with ⟨u, o⟩
  simp only [hr] at h g1 g2 g3 g4 g5
  refine ⟨u, g1, g2, g3, g4, g5, ?_⟩
  cases o with
  | none => simp only [Host.Outcome.next.injEq] at h; exact .inl h.symm
  | some c => simp only [Host.Outcome.next.injEq] at h; exact .inr ⟨_, h.symm⟩

theorem exec_check_commits {s : State} (h : s.bcrc = s.storedCrc) :
    exec .check s = .next (commit { s with blockCrcCalc := s.bcrc }) := by
  simp only [exec, execCheck]; rw [if_pos h]

end Sys2Proof.Machine
end

