-- ==== Sys2Proof/Laws/Step.lean ====
section
/-! SUPPORT. All that the engine's turn can do: what the fetch finds, and how far a token moves the cursor. -/

namespace Sys2Proof.Machine

/-- What the fetch can find: a token of the phase's kind whose bits are left in the input, decoded after the group switch
in a SYMBOL step; the end of the run at a read or check inside the input; or, being idle, nothing. -/
inductive FetchBounds (s : State) : Fetched → Prop where
  | token (i : Instr) (u : State)
      (hu : (s.phase ≠ .symbol ∧ u = s) ∨ (s.phase = .symbol ∧ groupSwitch s = some u))
      (hd : decode (context u) (window u) = .token i (encode (context u) i).length)
      (hp : i.phase = s.phase) (hh : i.hostOffset = none) (hl : (encode (context u) i).length ≤ bitsLeft s) :
      FetchBounds s (.token i)
  | ended (c : Cause) (u : State) (n : Nat) (hu : u = s ∨ groupSwitch s = some u) (hl : n ≤ bitsLeft s)
      (hp : s.phase ≠ .idle) : FetchBounds s (.ended (fail c (advance n u)))
  | idle (hp : s.phase = .idle) : FetchBounds s .idle

theorem decodeAt_bounds {s u : State} (hp : u.phase = s.phase) (hb : bitsLeft u = bitsLeft s)
    (hu : (s.phase ≠ .symbol ∧ u = s) ∨ (s.phase = .symbol ∧ groupSwitch s = some u)) : FetchBounds s (decodeAt u) := by
  have hw : (window u).length ≤ bitsLeft s := by rw [length_window, hb]; omega
  have hu' : u = s ∨ groupSwitch s = some u := hu.imp And.right And.right
  have idle : decode (context u) (window u) ≠ .noToken → s.phase ≠ .idle := fun hd h =>
    hd (by simp only [decode, context, hp.trans h])
  rcases decode_bounds (context u) (window u) with ⟨i, n, hd, h1, h2, rfl, h4⟩ | ⟨n, hd, h4⟩ | ⟨c, n, hd, h4⟩ | ⟨hd, h⟩
  · rw [decodeAt_token hd]
    exact .token i u hu hd (h1.trans hp) h2 (by omega)
  · rw [decodeAt_truncated hd]
    exact .ended _ u n hu' (by omega) (idle (by rw [hd]; exact Decoded.noConfusion))
  · rw [decodeAt_illegal hd]
    exact .ended _ u n hu' (by omega) (idle (by rw [hd]; exact Decoded.noConfusion))
  · rw [decodeAt_noToken hd]
    exact .idle (hp.symm.trans h)

theorem groupSwitch_bits {s u : State} (h : groupSwitch s = some u) : u.phase = s.phase ∧ bitsLeft u = bitsLeft s := by
  rw [groupSwitch_eq h]; exact ⟨rfl, rfl⟩

theorem fetch_bounds (s : State) : FetchBounds s (fetch s) := by
  have plain : ∀ {u : State}, u = s → s.phase ≠ .symbol → FetchBounds s (decodeAt u) := by
    rintro u rfl h
    exact decodeAt_bounds rfl rfl (.inl ⟨h, rfl⟩)
  have early : ∀ c, s.phase ≠ .idle → FetchBounds s (.ended (fail c s)) := by
    intro c h
    have := FetchBounds.ended (s := s) c s 0 (.inl rfl) (Nat.zero_le _) h
    rwa [advance_zero] at this
  by_cases h1 : s.phase = .header
  · by_cases hl : s.inLen.toNat < 14
    · rw [fetch_header_short h1 hl]; exact early _ (by simp [h1])
    · rw [fetch_header h1 (by omega)]; exact plain rfl (by simp [h1])
  · by_cases h2 : s.phase = .lenDelta
    · by_cases hl : s.cfg.lenCheck = .everyStep ∧ (s.curLen < 1 ∨ 20 < s.curLen)
      · rw [fetch_lenDelta_bad h2 hl.1 hl.2]; exact early _ (by simp [h2])
      · rw [fetch_lenDelta h2 (fun he => by
          have : ¬ (s.curLen < 1 ∨ 20 < s.curLen) := fun h => hl ⟨he, h⟩
          omega)]
        exact plain rfl (by simp [h2])
    · by_cases h3 : s.phase = .symbol
      · cases hg : groupSwitch s with
        | none => rw [fetch_symbol_exhausted h3 hg]; exact early _ (by simp [h3])
        | some u =>
          rw [fetch_symbol h3 hg]
          exact decodeAt_bounds (groupSwitch_bits hg).1 (groupSwitch_bits hg).2 (.inr ⟨h3, hg⟩)
      · rw [fetch_plain h1 h2 h3]; exact plain rfl h3

/-- All that an engine turn can do. -/
theorem engineTurn_cases {s t : State} (h : engineTurn s = .next t) :
    (s.phase = .idle ∧ t = s)
      ∨ (∃ c u n, t = fail c (advance n u) ∧ (u = s ∨ groupSwitch s = some u) ∧ n ≤ bitsLeft s ∧ s.phase ≠ .idle)
      ∨ ∃ i u, exec i s = .next t ∧ i.phase = s.phase ∧ i.hostOffset = none
          ∧ ((s.phase ≠ .symbol ∧ u = s) ∨ (s.phase = .symbol ∧ groupSwitch s = some u))
          ∧ decode (context u) (window u) = .token i (encode (context u) i).length
          ∧ (encode (context u) i).length ≤ bitsLeft s := by
  have hf := fetch_bounds s
  cases hh : fetch s with
  | token i =>
    rw [engineTurn_token hh] at h
    rw [hh] at hf
    cases hf with
    | token i u hu hd hp hh hl => exact .inr (.inr ⟨i, u, h, hp, hh, hu, hd, hl⟩)
  | ended t' =>
    rw [engineTurn_ended hh, Host.Outcome.next.injEq] at h
    subst h
    rw [hh] at hf
    cases hf with
    | ended c u n hu hl hp => exact .inr (.inl ⟨c, u, n, rfl, hu, hl, hp⟩)
  | idle =>
    rw [engineTurn_idle hh, Host.Outcome.next.injEq] at h
    subst h
    rw [hh] at hf
    cases hf with
    | idle hp => exact .inl ⟨hp, rfl⟩

theorem symbolStep_pos {s u : State} {sym : Nat} {act : State → State} (hg : groupSwitch s = some u)
    (ha : ∀ v, (act v).phase = .idle ∨ (act v).pos = v.pos) :
    (symbolStep sym act s).phase = .idle
      ∨ (symbolStep sym act s).pos = s.pos + BitVec.ofNat 32 ((activeTable u).lens.getD sym 0) := by
  rw [symbolStep_some hg]
  refine (ha _).imp id fun h => h.trans ?_
  rw [groupSwitch_eq hg]; rfl

theorem flushThen_pos {act : State → State} (ha : ∀ v, (act v).phase = .idle ∨ (act v).pos = v.pos) (u : State) :
    (flushThen act u).phase = .idle ∨ (flushThen act u).pos = u.pos := by
  unfold flushThen
  cases hf : flushRun u with
  | none => exact .inl rfl
  | some v => exact (ha v).imp id fun h => h.trans (by rw [(flushRun_eq hf).1])

theorem nextRange_pos (u : State) : (nextRange u).phase = .idle ∨ (nextRange u).pos = u.pos := by
  unfold nextRange bitmapDone
  simp only
  repeat' split
  all_goals first | exact .inl rfl | exact .inr rfl

/-- A token that does not end the run moves the cursor by its length: a symbol's in the table its group switch selects. -/
theorem exec_pos {i : Instr} {s t u : State} (h : exec i s = .next t) (hh : i.hostOffset = none)
    (hu : (i.phase ≠ .symbol ∧ u = s) ∨ groupSwitch s = some u) :
    t.phase = .idle ∨ t.pos = s.pos + BitVec.ofNat 32 (encode (context u) i).length := by
  have sym : ∀ (k : Nat) (act : State → State), i.phase = .symbol → t = symbolStep k act s →
      (∀ v, (act v).phase = .idle ∨ (act v).pos = v.pos) →
      (encode (context u) i).length = (activeTable u).lens.getD k 0 →
      t.phase = .idle ∨ t.pos = s.pos + BitVec.ofNat 32 (encode (context u) i).length := by
    rintro k act hi rfl ha hl
    rw [hl]
    exact symbolStep_pos (hu.resolve_left fun h => h.1 hi) ha
  cases i with
  | runa =>
    simp only [exec, execRuna, Host.Outcome.next.injEq] at h
    exact sym 0 _ rfl h.symm (fun v => .inr rfl) (length_bitsOfNat _ _)
  | runb =>
    simp only [exec, execRunb, Host.Outcome.next.injEq] at h
    exact sym 1 _ rfl h.symm (fun v => .inr rfl) (length_bitsOfNat _ _)
  | mtf k =>
    simp only [exec, execMtf, Host.Outcome.next.injEq] at h
    refine sym k _ rfl h.symm (flushThen_pos fun v => ?_) (length_bitsOfNat _ _)
    unfold emitMtf
    split
    · exact .inl rfl
    · exact .inr rfl
  | eob =>
    simp only [exec, execEob, Host.Outcome.next.injEq] at h
    refine sym (s.alpha - 1) _ rfl h.symm (flushThen_pos fun v => .inr rfl) ?_
    have ha : u.alpha = s.alpha := by
      have := hu.resolve_left fun h => h.1 rfl
      rw [groupSwitch_eq this]
    rw [← ha]; exact length_bitsOfNat _ _
  | rle =>
    obtain ⟨v, hv, -, -, -, -, h | ⟨c, h⟩⟩ := execRle_frame h
    · exact .inl (by rw [h]; rfl)
    · right
      rw [h, show (encode (context u) .rle).length = 0 from rfl, BitVec.add_zero, hv]
  | map1 m =>
    simp only [exec, execMap1, Host.Outcome.next.injEq] at h; subst h
    exact nextRange_pos _
  | map2 m =>
    simp only [exec, execMap2, Host.Outcome.next.injEq] at h; subst h
    exact nextRange_pos _
  | start _ | irqEnSet _ | doneClr _ | inLenSet _ | outCapSet _ => simp only [Instr.hostOffset] at hh; cases hh
  | sel k =>
    simp only [exec, execSel] at h
    rw [show (encode (context u) (.sel k)).length = k + 1 by simp [encode]]
    repeat' split at h
    all_goals
      simp only [Host.Outcome.next.injEq] at h; subst h
      first | exact .inl rfl | exact .inr rfl
  | build | ibwt | check =>
    simp only [exec, execBuild, execIbwt, execCheck] at h
    rw [show (encode (context u) _).length = 0 from rfl, BitVec.add_zero]
    repeat' split at h
    all_goals
      simp only [Host.Outcome.next.injEq] at h; subst h
      first | exact .inl rfl | exact .inr rfl
  | hdr _ | block | eos | scrc _ | bcrc _ | rand _ | ptr _ | ngrp _ | nsel _ | len5 _ | lkeep | linc | ldec =>
    simp only [exec, execHdr, execBlock, execEos, execScrc, execBcrc, execRand, execPtr, execNgrp, execNsel, execLen5,
      execLkeep, execLinc, execLdec] at h
    repeat' split at h
    all_goals
      simp only [Host.Outcome.next.injEq] at h; subst h
      first | exact .inl rfl | exact .inr rfl

end Sys2Proof.Machine
end

