-- ==== Sys2Proof/Laws/Phase.lean ====
section
/-! SUPPORT. A token's next phase. -/

namespace Sys2Proof.Machine

theorem phase_symbolStep (sym : Nat) (act : State → State) (s : State) (Q : Phase → Prop)
    (h0 : Q .idle) (h : ∀ v, v.phase = s.phase → Q (act v).phase) : Q (symbolStep sym act s).phase := by
  cases hg : groupSwitch s with
  | none => rw [symbolStep_none hg]; exact h0
  | some u => rw [symbolStep_some hg]; exact h _ (by rw [groupSwitch_eq hg]; rfl)

theorem phase_flushThen (act : State → State) (u : State) (Q : Phase → Prop) (h0 : Q .idle)
    (h : ∀ v, v.phase = u.phase → Q (act v).phase) : Q (flushThen act u).phase := by
  unfold flushThen
  cases hf : flushRun u with
  | none => exact h0
  | some v => exact h v (by rw [(flushRun_eq hf).1])

theorem to_successor (p : Phase) {q r : Phase} (h : q = r) (hs : r ∈ successors p) :
    q = .idle ∨ q ∈ successors p := .inr (h ▸ hs)

theorem nextRange_phase (u : State) :
    (nextRange u).phase = .idle ∨ (nextRange u).phase = .ngrp ∨ (nextRange u).phase = .map2 := by
  unfold nextRange bitmapDone
  simp only
  repeat' split
  · exact .inl rfl
  · exact .inr (.inl rfl)
  · exact .inr (.inr rfl)

/-- A token in its phase ends the run or goes to one of the phase's successors (41_stream_control.md R128). -/
theorem exec_phase {i : Instr} {s t : State} (h : exec i s = .next t) (hh : i.hostOffset = none)
    (hp : i.phase = s.phase) : t.phase = .idle ∨ t.phase ∈ successors s.phase := by
  rw [← hp]
  cases i with
  | runa =>
    simp only [exec, execRuna, Host.Outcome.next.injEq] at h; subst h
    exact phase_symbolStep _ _ _ (fun p => p = .idle ∨ p ∈ successors .symbol) (.inl rfl) fun v hv =>
      to_successor _ (hv.trans hp.symm) (by decide)
  | runb =>
    simp only [exec, execRunb, Host.Outcome.next.injEq] at h; subst h
    exact phase_symbolStep _ _ _ (fun p => p = .idle ∨ p ∈ successors .symbol) (.inl rfl) fun v hv =>
      to_successor _ (hv.trans hp.symm) (by decide)
  | mtf k =>
    simp only [exec, execMtf, Host.Outcome.next.injEq] at h; subst h
    refine phase_symbolStep _ _ _ (fun p => p = .idle ∨ p ∈ successors .symbol) (.inl rfl) fun v hv =>
      phase_flushThen _ _ (fun p => p = .idle ∨ p ∈ successors .symbol) (.inl rfl) fun w hw => ?_
    unfold emitMtf; split
    · exact .inl rfl
    · exact to_successor .symbol (r := .symbol) ((hw.trans hv).trans hp.symm) (by decide)
  | eob =>
    simp only [exec, execEob, Host.Outcome.next.injEq] at h; subst h
    exact phase_symbolStep _ _ _ (fun p => p = .idle ∨ p ∈ successors .symbol) (.inl rfl) fun v hv =>
      phase_flushThen _ _ (fun p => p = .idle ∨ p ∈ successors .symbol) (.inl rfl) fun w hw =>
        to_successor _ (r := .ibwt) rfl (by decide)
  | rle =>
    obtain ⟨v, hv, -, -, -, -, h | ⟨c, h⟩⟩ := execRle_frame h
    · exact .inl (by rw [h]; rfl)
    · exact to_successor .rle (r := .check) (by rw [h]) (by decide)
  | map1 m =>
    simp only [exec, execMap1, Host.Outcome.next.injEq] at h; subst h
    rcases nextRange_phase { advance 16 s with map1 := m, mapI := 0 } with h | h | h
    · exact .inl h
    · exact to_successor .map1 h (by decide)
    · exact to_successor .map1 h (by decide)
  | map2 m =>
    simp only [exec, execMap2, Host.Outcome.next.injEq] at h; subst h
    rcases nextRange_phase { advance 16 s with seq := s.seq ++ rangeBytes m s.mapI, mapI := s.mapI + 1 } with h | h | h
    · exact .inl h
    · exact to_successor .map2 h (by decide)
    · exact to_successor .map2 h (by decide)
  | start _ | irqEnSet _ | doneClr _ | inLenSet _ | outCapSet _ => simp only [Instr.hostOffset] at hh; cases hh
  | _ =>
    simp only [exec, execHdr, execBlock, execEos, execScrc, execBcrc, execRand, execPtr, execNgrp, execNsel, execLen5,
      execLkeep, execLinc, execLdec, execSel, execBuild, execIbwt, execCheck] at h
    repeat' split at h
    all_goals
      simp only [Host.Outcome.next.injEq] at h; subst h
      first
        | exact .inl rfl
        | (right; simp [Instr.phase, successors]; done)
        | (right; simp only [Instr.phase] at hp; simp [hp.symm, Instr.phase, successors])

end Sys2Proof.Machine
end

