-- ==== Sys2Proof/Laws/Transform.lean ====
section
/-! SUPPORT. Laws of the inverse transform and the run decoder: the bucket pass is a permutation of the block's positions,
the chase stays in the block (45_inverse_bwt.md R200, R201), and the runs of 46_final_rle.md R210. -/

namespace Sys2Proof.Machine

@[simp] theorem length_bucketRanks : ∀ (bs seen : List Byte), (bucketRanks seen bs).length = bs.length
  | [], _ => rfl
  | b :: bs, seen => by simp [bucketRanks, length_bucketRanks bs]

/-- A position's rank: the equal bytes before it (45_inverse_bwt.md R200). -/
theorem getD_bucketRanks : ∀ (bs seen : List Byte) (k : Nat), k < bs.length →
    (bucketRanks seen bs).getD k 0 = seen.count (bs.getD k 0) + (bs.take k).count (bs.getD k 0)
  | b :: bs, seen, 0, _ => by simp [bucketRanks]
  | b :: bs, seen, k + 1, h => by
    rw [bucketRanks, List.getD_cons_succ, List.getD_cons_succ, getD_bucketRanks bs (b :: seen) k (by simpa using h),
      List.take_succ_cons, List.count_cons, List.count_cons]
    omega

@[simp] theorem length_bucketCounts (src : List Byte) : (bucketCounts src).length = 256 := by simp [bucketCounts]

theorem getD_bucketCounts (src : List Byte) (b : Byte) : (bucketCounts src).getD b.toNat 0 = src.count b := by
  have := b.isLt
  simp [bucketCounts, List.getD_eq_getElem?_getD, List.getElem?_range this]

@[simp] theorem length_runningSums : ∀ (ns : List Nat) (a : Nat), (runningSums a ns).length = ns.length
  | [], _ => rfl
  | n :: ns, a => by simp [runningSums, length_runningSums ns]

theorem getD_runningSums : ∀ (ns : List Nat) (a k : Nat), k < ns.length →
    (runningSums a ns).getD k 0 = a + (ns.take k).sum
  | n :: ns, a, 0, _ => by simp [runningSums]
  | n :: ns, a, k + 1, h => by
    rw [runningSums, List.getD_cons_succ, getD_runningSums ns _ k (by simpa using h), List.take_succ_cons, List.sum_cons]
    omega

theorem sum_indicator (a : Nat) : ∀ n : Nat, ((List.range n).map fun b => if b = a then 1 else 0).sum =
    if a < n then 1 else 0
  | 0 => by simp
  | n + 1 => by
    rw [List.range_succ, List.map_append, List.sum_append, sum_indicator a n]
    by_cases h1 : a < n
    · simp [h1, show n ≠ a by omega, show a < n + 1 by omega]
    · by_cases h2 : n = a
      · simp [h2]
      · simp [h1, h2, show ¬ a < n + 1 by omega]

theorem sum_bucketCounts (src : List Byte) : (bucketCounts src).sum = src.length := by
  induction src with
  | nil =>
    refine List.sum_eq_zero fun n h => ?_
    obtain ⟨b, -, rfl⟩ := List.mem_map.1 h
    rfl
  | cons a src ih =>
    have h : bucketCounts (a :: src) = (List.range 256).map fun b =>
        src.count (BitVec.ofNat 8 b) + if b = a.toNat then 1 else 0 := by
      unfold bucketCounts
      refine List.map_congr_left fun b hb => ?_
      have hb := List.mem_range.1 hb
      rw [List.count_cons]
      have hab : (a == BitVec.ofNat 8 b) = true ↔ b = a.toNat := by
        rw [beq_iff_eq]
        constructor
        · intro h; rw [h, BitVec.toNat_ofNat]; omega
        · intro h; rw [h, BitVec.ofNat_toNat, BitVec.setWidth_eq]
      rw [if_congr hab rfl rfl]
    rw [h, List.sum_map_add, sum_indicator, if_pos a.isLt, List.length_cons]
    exact congrArg (· + 1) ih

/-- The permutation of the block's positions (45_inverse_bwt.md R200). -/
def nextPos (src : List Byte) (k : Nat) : Nat :=
  (runningSums 0 (bucketCounts src)).getD (src.getD k 0).toNat 0 + (bucketRanks [] src).getD k 0

theorem sum_take_le (l : List Nat) {i j : Nat} (h : i ≤ j) : (l.take i).sum ≤ (l.take j).sum := by
  have : l.take i = (l.take j).take i := by rw [List.take_take, Nat.min_eq_left h]
  rw [this]; exact (List.take_sublist i (l.take j)).sum_le_sum (by simp)

theorem rank_lt (src : List Byte) {k : Nat} (h : k < src.length) :
    (bucketRanks [] src).getD k 0 < (bucketCounts src).getD (src.getD k 0).toNat 0 := by
  rw [getD_bucketRanks src [] k h, getD_bucketCounts, List.count_nil, Nat.zero_add,
    show src.getD k 0 = src[k] by simp [h]]
  have : src.count src[k] = (src.take k ++ src[k] :: src.drop (k + 1)).count src[k] := by
    rw [← List.drop_eq_getElem_cons h, List.take_append_drop]
  rw [this, List.count_append, List.count_cons_self]; omega

theorem sum_take_succ (l : List Nat) {i : Nat} (h : i < l.length) : (l.take (i + 1)).sum = (l.take i).sum + l.getD i 0 := by
  rw [List.take_succ_eq_append_getElem h, List.sum_append]; simp [h]

theorem nextPos_bounds (src : List Byte) {k : Nat} (h : k < src.length) :
    ((bucketCounts src).take (src.getD k 0).toNat).sum ≤ nextPos src k
      ∧ nextPos src k < ((bucketCounts src).take ((src.getD k 0).toNat + 1)).sum := by
  have hb := (src.getD k 0).isLt
  have := rank_lt src h
  rw [sum_take_succ _ (by simpa using hb), nextPos, getD_runningSums _ _ _ (by simpa using hb)]
  omega

theorem nextPos_lt (src : List Byte) {k : Nat} (h : k < src.length) : nextPos src k < src.length := by
  have hb := (src.getD k 0).isLt
  have h1 := (nextPos_bounds src h).2
  have h2 := sum_take_le (bucketCounts src) (i := (src.getD k 0).toNat + 1) (j := 256) (by omega)
  rw [List.take_of_length_le (i := 256) (by simp), sum_bucketCounts] at h2
  omega

theorem rank_lt_rank (src : List Byte) {j k : Nat} (hjk : j < k) (h : k < src.length) (he : src.getD j 0 =
    src.getD k 0) :
    (bucketRanks [] src).getD j 0 < (bucketRanks [] src).getD k 0 := by
  rw [getD_bucketRanks src [] k h, getD_bucketRanks src [] j (by omega), List.count_nil, he]
  have : src.take k = src.take j ++ src[j] :: (src.take k).drop (j + 1) := by
    conv_lhs => rw [← List.take_append_drop j (src.take k)]
    rw [List.take_take, Nat.min_eq_left hjk.le, List.drop_eq_getElem_cons (by simp; omega)]
    simp
  rw [this, List.count_append]
  have : src.getD k 0 = src[j] := by rw [← he]; simp [show j < src.length by omega]
  rw [this]; simp

theorem nextPos_inj (src : List Byte) {j k : Nat} (hj : j < src.length) (hk : k < src.length)
    (h : nextPos src j = nextPos src k) : j = k := by
  have h1 := nextPos_bounds src hj
  have h2 := nextPos_bounds src hk
  rcases Nat.lt_trichotomy (src.getD j 0).toNat (src.getD k 0).toNat with hb | hb | hb
  · have := sum_take_le (bucketCounts src) (show (src.getD j 0).toNat + 1 ≤ (src.getD k 0).toNat from hb)
    omega
  · have hb := BitVec.eq_of_toNat_eq hb
    by_contra hne
    unfold nextPos at h
    rw [hb] at h
    rcases Nat.lt_or_gt_of_ne hne with hl | hl
    · have := rank_lt_rank src hl hk hb; omega
    · have := rank_lt_rank src hl hj hb.symm; omega
  · have := sum_take_le (bucketCounts src) (show (src.getD k 0).toNat + 1 ≤ (src.getD j 0).toNat from hb)
    omega

theorem nextPos_perm (src : List Byte) : ((List.range src.length).map (nextPos src)).Perm (List.range src.length) := by
  refine List.Subperm.perm_of_length_le (List.Nodup.subperm ?_ ?_) (by simp)
  · refine List.Nodup.map_on ?_ List.nodup_range
    intro x hx y hy h
    exact nextPos_inj src (by simpa using hx) (by simpa using hy) h
  · intro x hx
    simp only [List.mem_map, List.mem_range] at hx ⊢
    obtain ⟨k, hk, rfl⟩ := hx
    exact nextPos_lt src hk

/-- The chase never leaves the block, and places the bytes it meets from the last down (45_inverse_bwt.md R201). -/
theorem chase_eq (src : List Byte) : ∀ (n j : Nat) (placed : List Byte), j < src.length →
    chase src (runningSums 0 (bucketCounts src)) (bucketRanks [] src) n j placed =
      some (((List.range n).map fun m => src.getD ((nextPos src)^[m] j) 0).reverse ++ placed)
  | 0, _, _, _ => rfl
  | n + 1, j, placed, h => by
    have h' := nextPos_lt src h
    have hd : (runningSums 0 (bucketCounts src)).getD (src.getD j 0).toNat 0 + (bucketRanks [] src).getD j 0 = nextPos src j := rfl
    simp only [chase]
    rw [hd, if_neg (by omega), chase_eq src n _ _ h']
    rw [List.range_succ_eq_map, List.map_cons, List.reverse_cons, List.map_map, List.append_assoc]
    rfl

/-! ### Runs -/

theorem rleRuns_short {a : Byte} {rest : List Byte} (h : rest.length < 3) : rleRuns (a :: rest) = (1, a) :: rleRuns rest := by
  rcases rest with _ | ⟨b, _ | ⟨c, _ | ⟨d, rest⟩⟩⟩
  · rfl
  · rfl
  · rfl
  · simp at h; omega

theorem rleRuns_four (a b c d : Byte) (rest : List Byte) : rleRuns (a :: b :: c :: d :: rest) =
    if a = b ∧ b = c ∧ c = d then
      match rest with
      | [] => [(4, a)]
      | count :: more => (4 + count.toNat, a) :: rleRuns more
    else (1, a) :: rleRuns (b :: c :: d :: rest) := by
  exact (rleRuns.eq_def _).trans rfl

end Sys2Proof.Machine
end

