-- ==== Sys2Proof/Laws/Agree.lean ====
section
/-! SUPPORT. Two states in agreement: what each phase can still read of a block's working state, phase by phase, and that
every token and internal operation takes two states in agreement to two in agreement. What an earlier run left behind,
and the values log 2 gives at reset, play no part. -/

namespace Sys2Proof.Machine

/-- The two states show the host the same registers and read the same input, and agree on the output committed so far. -/
structure Agree (a b : State) : Prop where
  cfg : a.cfg = b.cfg
  irqEn : a.irqEn = b.irqEn
  busy : a.busy = b.busy
  done : a.done = b.done
  err : a.err = b.err
  errKind : a.errKind = b.errKind
  errCause : a.errCause = b.errCause
  inLen : a.inLen = b.inLen
  outCap : a.outCap = b.outCap
  outLen : a.outLen = b.outLen
  streamCrc : a.streamCrc = b.streamCrc
  errBitpos : a.errBitpos = b.errBitpos
  blockCount : a.blockCount = b.blockCount
  blockCrcCalc : a.blockCrcCalc = b.blockCrcCalc
  blockCrcStored : a.blockCrcStored = b.blockCrcStored
  blockMax : a.blockMax = b.blockMax
  phase : a.phase = b.phase
  pos : a.pos = b.pos
  blkMax : a.blkMax = b.blkMax
  schedA : a.schedule = []
  schedB : b.schedule = []
  inp : AgreeBelow .input a.inLen.toNat a.inMem b.inMem
  out : AgreeBelow .output a.outLen.toNat a.outMem b.outMem

/-- From BLOCK on (41_stream_control.md R125): the block's counters, and the decoded bytes. -/
structure AgreeBlock (a b : State) : Prop extends Agree a b where
  seq : a.seq = b.seq
  mapI : a.mapI = b.mapI
  selI : a.selI = b.selI
  lenG : a.lenG = b.lenG
  lenS : a.lenS = b.lenS
  gpos : a.gpos = b.gpos
  gno : a.gno = b.gno
  rep : a.rep = b.rep
  reppow : a.reppow = b.reppow
  size : a.size = b.size
  finLen : a.finLen = b.finLen
  tt : ∀ k < a.size, a.tt.getD k 0 = b.tt.getD k 0

/-- From BCRC on. -/
structure AgreeStored (a b : State) : Prop extends AgreeBlock a b where
  storedCrc : a.storedCrc = b.storedCrc

/-- From PTR on. -/
structure AgreePointer (a b : State) : Prop extends AgreeStored a b where
  origPtr : a.origPtr = b.origPtr

/-- Between MAP1 and the last MAP2. -/
structure AgreeMap (a b : State) : Prop extends AgreePointer a b where
  map1 : a.map1 = b.map1

/-- From the bitmap's completion on. -/
structure AgreeAlphabet (a b : State) : Prop extends AgreePointer a b where
  alpha : a.alpha = b.alpha
  mtf : a.mtf = b.mtf

/-- From NGRP on. -/
structure AgreeGroups (a b : State) : Prop extends AgreeAlphabet a b where
  nGroups : a.nGroups = b.nGroups
  ng1 : 1 ≤ a.nGroups

/-- From NSEL on: the selectors read so far, each a group number. -/
structure AgreeSelectors (a b : State) : Prop extends AgreeGroups a b where
  nSel : a.nSel = b.nSel
  sel : ∀ k < a.selI, a.selector.getD k 0 = b.selector.getD k 0 ∧ a.selector.getD k 0 < a.nGroups

/-- While selectors are read. -/
structure AgreeSelecting (a b : State) : Prop extends AgreeSelectors a b where
  selMtf : a.selMtf = b.selMtf
  selR : (∀ g ∈ a.selMtf, g < a.nGroups) ∧ a.selMtf.length = a.nGroups

/-- Once they are read: the tables built so far. -/
structure AgreeTables (a b : State) : Prop extends AgreeSelectors a b where
  selN : a.selI = a.nSel
  tbl : ∀ g < a.lenG, a.tbl.getD g default = b.tbl.getD g default

/-- While one group's lengths are read. -/
structure AgreeDelta (a b : State) : Prop extends AgreeTables a b where
  curLen : a.curLen = b.curLen
  row : ∀ k < a.lenS, (a.lens.getD a.lenG []).getD k 0 = (b.lens.getD b.lenG []).getD k 0

/-- Before BUILD. -/
structure AgreeLengths (a b : State) : Prop extends AgreeTables a b where
  rowB : ∀ k < a.alpha, (a.lens.getD a.lenG []).getD k 0 = (b.lens.getD b.lenG []).getD k 0

/-- In the symbol stream. -/
structure AgreeSymbols (a b : State) : Prop extends AgreeTables a b where
  tblN : a.nGroups ≤ a.lenG
  active : a.gpos ≠ 0 → a.active = b.active ∧ a.active < a.nGroups

/-- Before RLE. -/
structure AgreeBytes (a b : State) : Prop extends AgreePointer a b where
  dst : ∀ k < a.size, a.dst.getD k 0 = b.dst.getD k 0

/-- Before CHECK. -/
structure AgreeChecked (a b : State) : Prop extends AgreePointer a b where
  bcrc : a.bcrc = b.bcrc
  chk : AgreeBelow .output (a.outLen.toNat + a.finLen) a.outMem b.outMem
  chkL : a.outLen.toNat + a.finLen < 2 ^ 32

/-- The two states agree on all that the phase they are in, or a later one, can still read. -/
def Sim (a b : State) : Prop :=
  match a.phase with
  | .idle | .header | .magic | .scrc => Agree a b
  | .bcrc => AgreeBlock a b
  | .rand | .ptr => AgreeStored a b
  | .map1 => AgreePointer a b
  | .map2 => AgreeMap a b
  | .ngrp => AgreeAlphabet a b
  | .nsel => AgreeGroups a b
  | .selector => AgreeSelecting a b
  | .lenStart => AgreeTables a b
  | .lenDelta => AgreeDelta a b
  | .build => AgreeLengths a b
  | .symbol => AgreeSymbols a b
  | .ibwt => AgreePointer a b
  | .rle => AgreeBytes a b
  | .check => AgreeChecked a b

theorem Sim.pub {a b : State} (h : Sim a b) : Agree a b := by
  unfold Sim at h
  cases hp : a.phase <;> simp only [hp] at h
  all_goals first | exact h | exact h.toAgree

theorem Agree.fail {a b : State} (h : Agree a b) (c : Cause) : Sim (fail c a) (fail c b) := by
  have e : failPosition c a = failPosition c b := by cases c <;> first | rfl | exact h.pos
  show Agree _ _
  exact { h with busy := rfl, done := rfl, err := rfl, errKind := rfl, errCause := rfl, errBitpos := e, phase := rfl }

theorem Agree.advance {a b : State} (h : Agree a b) (n : Nat) : Agree (advance n a) (advance n b) :=
  { h with pos := congrArg (· + BitVec.ofNat 32 n) h.pos }

theorem Sim.of8 {a b : State} (hp : a.phase = .selector) (h : AgreeSelecting a b) : Sim a b :=
    by unfold Sim; rw [hp]; exact h
theorem Sim.of10 {a b : State} (hp : a.phase = .lenDelta) (h : AgreeDelta a b) : Sim a b :=
    by unfold Sim; rw [hp]; exact h
theorem Sim.of12 {a b : State} (hp : a.phase = .symbol) (h : AgreeSymbols a b) : Sim a b :=
    by unfold Sim; rw [hp]; exact h

/-- Both go on, in agreement. -/
def Both (x y : Host.Outcome State Fault Refusal) : Prop := ∃ s t, x = .next s ∧ y = .next t ∧ Sim s t

theorem Both.next {s t : State} (h : Sim s t) : Both (.next s) (.next t) := ⟨s, t, rfl, rfl, h⟩

theorem Both.ite {c d : Prop} [Decidable c] [Decidable d] {x y x' y' : Host.Outcome State Fault Refusal} (hcd : c ↔ d)
   (h1 : c → Both x x') (h2 : ¬ c → Both y y') : Both (if c then x else y) (if d then x' else y') := by
  by_cases h : c
  · rw [if_pos h, if_pos (hcd.1 h)]; exact h1 h
  · rw [if_neg h, if_neg (fun k => h (hcd.2 k))]; exact h2 h

theorem Sim.ite {c d : Prop} [Decidable c] [Decidable d] {x y x' y' : State} (hcd : c ↔ d)
   (h1 : c → Sim x x') (h2 : ¬ c → Sim y y') : Sim (if c then x else y) (if d then x' else y') := by
  by_cases h : c
  · rw [if_pos h, if_pos (hcd.1 h)]; exact h1 h
  · rw [if_neg h, if_neg (fun k => h (hcd.2 k))]; exact h2 h

theorem agree_hdr (d : BitVec 8) {a b : State} (h : Agree a b) : Both (execHdr d a) (execHdr d b) := by
  unfold execHdr
  refine Both.ite (by rw [h.inLen]) (fun _ => Both.next (h.fail _)) fun _ => ?_
  simp only
  refine Both.ite Iff.rfl (fun _ => Both.next ?_) (fun _ => Both.next ((h.advance 32).fail _))
  show Agree _ _
  exact { h.advance 32 with blkMax := rfl, blockMax := rfl, phase := rfl }

theorem agree_block {a b : State} (h : Agree a b) : Both (execBlock a) (execBlock b) := by
  refine Both.next ?_
  show AgreeBlock _ _
  exact { h.advance 48 with phase := rfl, seq := rfl, mapI := rfl, selI := rfl, lenG := rfl, lenS := rfl, gpos := rfl, gno := rfl, rep := rfl, reppow := rfl, size := rfl, finLen := rfl, tt := nofun }

theorem agree_eos {a b : State} (h : Agree a b) : Both (execEos a) (execEos b) := by
  refine Both.next ?_
  show Agree _ _
  exact { h.advance 48 with phase := rfl }

theorem agree_scrc (v : U32) {a b : State} (h : Agree a b) : Both (execScrc v a) (execScrc v b) := by
  unfold execScrc; simp only
  refine Both.ite (by show v = a.streamCrc ↔ v = b.streamCrc; rw [h.streamCrc]) (fun _ => Both.next ?_) (fun _ => Both.next ((h.advance 32).fail _))
  show Agree _ _
  exact { h.advance 32 with err := rfl, errKind := rfl, errCause := rfl, done := rfl, busy := rfl, phase := rfl }

theorem agree_bcrc (v : U32) {a b : State} (h : AgreeBlock a b) : Both (execBcrc v a) (execBcrc v b) := by
  refine Both.next ?_
  show AgreeStored _ _
  exact { h with pos := (h.advance 32).pos, storedCrc := rfl, blockCrcStored := rfl, phase := rfl }

theorem agree_rand (r : BitVec 1) {a b : State} (h : AgreeStored a b) : Both (execRand r a) (execRand r b) := by
  unfold execRand
  refine Both.ite Iff.rfl (fun _ => Both.next ((h.advance 1).fail _)) fun _ => Both.next ?_
  show AgreeStored _ _
  exact { h with pos := (h.advance 1).pos, phase := rfl }

theorem agree_ptr (p : BitVec 24) {a b : State} (h : AgreeStored a b) : Both (execPtr p a) (execPtr p b) := by
  refine Both.next ?_
  show AgreePointer _ _
  exact { h with pos := (h.advance 24).pos, origPtr := rfl, phase := rfl }

theorem agree_nextRange {a b : State} (h : AgreeMap a b) : Sim (nextRange a) (nextRange b) := by
  unfold nextRange
  have hm : nextUsedRange a.map1 16 a.mapI = nextUsedRange b.map1 16 b.mapI := by rw [h.map1, h.mapI]
  refine Sim.ite (by show nextUsedRange a.map1 16 a.mapI = 16 ↔ nextUsedRange b.map1 16 b.mapI = 16; rw [hm]) (fun _ => ?_) (fun _ => ?_)
  · unfold bitmapDone
    refine Sim.ite (by show a.seq.length = 0 ↔ b.seq.length = 0; rw [h.seq]) (fun _ => ?_) (fun _ => ?_)
    · refine Agree.fail ?_ _
      exact { h with }
    · show AgreeAlphabet _ _
      exact { h with
            mapI := hm, alpha := (by show a.seq.length + 2 = b.seq.length + 2; rw [h.seq]), mtf := h.seq
            phase := rfl }
  · show AgreeMap _ _
    exact { h with mapI := hm, phase := rfl }

theorem agree_map1 (m : BitVec 16) {a b : State} (h : AgreePointer a b) : Both (execMap1 m a) (execMap1 m b) :=
  Both.next (agree_nextRange { h with pos := (h.advance 16).pos, map1 := rfl, mapI := rfl })

theorem agree_map2 (m : BitVec 16) {a b : State} (h : AgreeMap a b) : Both (execMap2 m a) (execMap2 m b) :=
  Both.next (agree_nextRange { h with
    pos := (h.advance 16).pos, mapI := congrArg (· + 1) h.mapI
    seq := (by show a.seq ++ rangeBytes m a.mapI = b.seq ++ rangeBytes m b.mapI; rw [h.seq, h.mapI]) })

theorem agree_ngrp (g : BitVec 3) {a b : State} (h : AgreeAlphabet a b) : Both (execNgrp g a) (execNgrp g b) := by
  unfold execNgrp
  refine Both.ite Iff.rfl (fun _ => Both.next (Agree.fail (a := { advance 3 a with nGroups := g.toNat }) (b := { advance 3 b with nGroups := g.toNat }) { h with
        pos := (h.advance 3).pos } _)) fun hg => Both.next ?_
  show AgreeGroups _ _
  exact { h with
        pos := (h.advance 3).pos, nGroups := rfl, phase := rfl
        ng1 := (by show 1 ≤ g.toNat; have : ¬ (g.toNat < 2 ∨ g.toNat > 6) := hg; omega) }

theorem agree_nsel (n : BitVec 15) {a b : State} (h : AgreeGroups a b) : Both (execNsel n a) (execNsel n b) := by
  unfold execNsel
  refine Both.ite Iff.rfl (fun _ => Both.next (Agree.fail (a := { advance 15 a with nSel := n.toNat }) (b := { advance 15 b with nSel := n.toNat }) { h with
        pos := (h.advance 15).pos } _)) fun _ => ?_
  refine Both.ite Iff.rfl (fun _ => Both.next (Agree.fail (a := { advance 15 a with nSel := n.toNat }) (b := { advance 15 b with nSel := n.toNat }) { h with
        pos := (h.advance 15).pos } _)) fun _ => Both.next ?_
  show AgreeSelecting _ _
  exact { h with
    pos := (h.advance 15).pos, nSel := rfl, phase := rfl, selI := rfl, sel := nofun
    selMtf := congrArg List.range h.nGroups
    selR := ⟨fun g hg => List.mem_range.1 hg, List.length_range⟩ }

theorem agree_sel (k : Nat) {a b : State} (h : AgreeSelecting a b) (hp : a.phase = .selector) : Both (execSel k a) (execSel k b) := by
  unfold execSel
  refine Both.ite (by rw [h.nGroups]) (fun _ => Both.next ?_) fun hk => ?_
  · rw [h.nGroups]; exact Agree.fail (h.advance _) _
  · simp only
    have hmt : mtfTake 0 a.selMtf k = mtfTake 0 b.selMtf k := by rw [h.selMtf]
    have hnz : (mtfTake 0 a.selMtf k).1 < a.nGroups ∧ (∀ g ∈ (mtfTake 0 a.selMtf k).2, g < a.nGroups) := by
      refine ⟨?_, fun g hg => h.selR.1 g ((mtfTake_perm _ _ _).mem_iff.1 hg)⟩
      have hk : k < a.selMtf.length := by rw [h.selR.2]; have := h.ng1; omega
      exact h.selR.1 _ (mtfTake_mem hk)
    have hs : ∀ j < a.selI + 1, (putAll a.selector a.selI [(mtfTake 0 a.selMtf k).1] 0).getD j 0 = (putAll b.selector b.selI [(mtfTake 0 b.selMtf k).1] 0).getD j 0
        ∧ (putAll a.selector a.selI [(mtfTake 0 a.selMtf k).1] 0).getD j 0 < a.nGroups := by
      intro j hj
      rw [getD_put, getD_put, ← hmt, ← h.selI]
      by_cases he : j = a.selI
      · rw [if_pos he, if_pos he]; exact ⟨rfl, hnz.1⟩
      · rw [if_neg he, if_neg he]; exact h.sel j (by omega)
    refine Both.ite (by show a.selI + 1 = a.nSel ↔ b.selI + 1 = b.nSel; rw [h.selI, h.nSel]) (fun he => Both.next ?_) (fun _ => Both.next ?_)
    · show AgreeTables _ _
      exact { h with
            pos := (h.advance (k+1)).pos, selI := congrArg (· + 1) h.selI, sel := hs, lenG := rfl
            phase := rfl, selN := he, tbl := nofun }
    · exact Sim.of8 hp { h with
          pos := (h.advance (k+1)).pos, selI := congrArg (· + 1) h.selI, sel := hs
          selMtf := congrArg Prod.snd hmt, selR := ⟨hnz.2, (mtfTake_perm _ _ _).length_eq.trans h.selR.2⟩ }

theorem agree_len5 (l : BitVec 5) {a b : State} (h : AgreeTables a b) : Both (execLen5 l a) (execLen5 l b) := by
  refine Both.next ?_
  show AgreeDelta _ _
  exact { h with pos := (h.advance 5).pos, curLen := rfl, lenS := rfl, phase := rfl, row := nofun }

theorem agree_lkeep {a b : State} (h : AgreeDelta a b) (hp : a.phase = .lenDelta) : Both (execLkeep a) (execLkeep b) := by
  unfold execLkeep; simp only
  refine Both.ite (by show codeLenLegal a.curLen = true ↔ codeLenLegal b.curLen = true; rw [h.curLen]) (fun _ => ?_) (fun _ => Both.next (Agree.fail (h.advance _) _))
  have hs : ∀ k < a.lenS + 1, ((putAll a.lens a.lenG [putAll (a.lens.getD a.lenG []) a.lenS [a.curLen.toNat] 0] []).getD a.lenG []).getD k 0
      = ((putAll b.lens b.lenG [putAll (b.lens.getD b.lenG []) b.lenS [b.curLen.toNat] 0] []).getD b.lenG []).getD k 0 := by
    intro k hk
    rw [getD_put, getD_put, if_pos rfl, if_pos rfl, getD_put, getD_put, ← h.lenS, h.curLen]
    by_cases he : k = a.lenS
    · rw [if_pos he, if_pos he]
    · rw [if_neg he, if_neg he]; exact h.row k (by omega)
  refine Both.ite (by show a.lenS + 1 = a.alpha ↔ b.lenS + 1 = b.alpha; rw [h.lenS, h.alpha]) (fun he => Both.next ?_) (fun _ => Both.next ?_)
  · show AgreeLengths _ _
    have he : a.lenS + 1 = a.alpha := he
    exact { h with
          pos := (h.advance 1).pos, lenS := congrArg (· + 1) h.lenS, phase := rfl
          rowB := fun k hk => hs k (by have : k < a.alpha := hk; omega) }
  · exact Sim.of10 hp { h with pos := (h.advance 1).pos, lenS := congrArg (· + 1) h.lenS, row := hs }

theorem agree_linc {a b : State} (h : AgreeDelta a b) (hp : a.phase = .lenDelta) : Both (execLinc a) (execLinc b) :=
  Both.next (Sim.of10 hp { h with pos := (h.advance 2).pos, curLen := congrArg (· + 1) h.curLen })

theorem agree_ldec {a b : State} (h : AgreeDelta a b) (hp : a.phase = .lenDelta) : Both (execLdec a) (execLdec b) :=
  Both.next (Sim.of10 hp { h with pos := (h.advance 2).pos, curLen := congrArg (· - 1) h.curLen })

theorem agree_build {a b : State} (h : AgreeLengths a b) : Both (execBuild a) (execBuild b) := by
  unfold execBuild; simp only
  have ht : buildTable (firstN (a.lens.getD a.lenG []) a.alpha 0) = buildTable (firstN (b.lens.getD b.lenG []) b.alpha 0) := by
    congr 1
    apply eq_of_getD 0 (by simp [h.alpha])
    intro k hk
    have hk : k < a.alpha := by simpa using hk
    rw [getD_firstN, getD_firstN, if_pos hk, if_pos (by rw [← h.alpha]; exact hk)]
    exact h.rowB k hk
  have hs : ∀ g < a.lenG + 1, (putAll a.tbl a.lenG [buildTable (firstN (a.lens.getD a.lenG []) a.alpha 0)] default).getD g default
     = (putAll b.tbl b.lenG [buildTable (firstN (b.lens.getD b.lenG []) b.alpha 0)] default).getD g default := by
    intro g hg
    rw [getD_put, getD_put, ← ht, ← h.lenG]
    by_cases he : g = a.lenG
    · rw [if_pos he, if_pos he]
    · rw [if_neg he, if_neg he]; exact h.tbl g (by omega)
  refine Both.ite (by show a.lenG + 1 < a.nGroups ↔ b.lenG + 1 < b.nGroups; rw [h.lenG, h.nGroups]) (fun he => Both.next ?_) (fun he => Both.next ?_)
  · show AgreeTables _ _
    exact { h with lenG := congrArg (· + 1) h.lenG, tbl := hs, phase := rfl }
  · show AgreeSymbols _ _
    exact { h with
          lenG := congrArg (· + 1) h.lenG, tbl := hs, phase := rfl, gpos := rfl, gno := rfl
          tblN := (by show a.nGroups ≤ a.lenG + 1; have : ¬ a.lenG + 1 < a.nGroups := he; omega)
          active := nofun }

theorem agree_groupSwitch {a b : State} (h : AgreeSymbols a b) : (groupSwitch a = none ∧ groupSwitch b = none) ∨
    ∃ u v, groupSwitch a = some u ∧ groupSwitch b = some v ∧ AgreeSymbols u v ∧ u.active = v.active ∧ u.active < u.nGroups ∧ u.phase = a.phase := by
  by_cases h0 : a.gpos = 0
  · by_cases h1 : a.nSel ≤ a.gno
    · exact .inl ⟨groupSwitch_none h0 h1, groupSwitch_none (h.gpos.symm.trans h0) (by rw [← h.nSel, ← h.gno]; exact h1)⟩
    · have hs := h.sel a.gno (by rw [h.selN]; omega)
      have hact : a.selector.getD a.gno 0 = b.selector.getD b.gno 0 := by rw [← h.gno]; exact hs.1
      refine .inr ⟨_, _, groupSwitch_due h0 (by omega), groupSwitch_due (h.gpos.symm.trans h0) (by rw [← h.nSel, ← h.gno]; omega), { h with
            gpos := rfl, gno := congrArg (· + 1) h.gno, active := fun _ => ⟨hact, hs.2⟩ }, hact, hs.2, rfl⟩
  · have hs := h.active h0
    refine .inr ⟨_, _, groupSwitch_running h0, groupSwitch_running (fun e => h0 (h.gpos.trans e)), { h with
          gpos := congrArg (· - 1) h.gpos, active := fun _ => hs }, hs.1, hs.2, rfl⟩

theorem agree_activeTable {u v : State} (h : AgreeSymbols u v) (he : u.active = v.active) (hl : u.active < u.nGroups) : activeTable u = activeTable v := by
  unfold activeTable
  rw [← he]; exact h.tbl _ (lt_of_lt_of_le hl h.tblN)

theorem agree_symbolStep {a b : State} (h : AgreeSymbols a b) (sym : Nat) (act act' : State → State)
  (ha : ∀ u v, AgreeSymbols u v → u.phase = a.phase → Sim (act u) (act' v)) : Sim (symbolStep sym act a) (symbolStep sym act' b) := by
  rcases agree_groupSwitch h with ⟨h1, h2⟩ | ⟨u, v, h1, h2, h3, h4, h5, h6⟩
  · rw [symbolStep_none h1, symbolStep_none h2]; exact Agree.fail h.toAgree _
  · rw [symbolStep_some h1, symbolStep_some h2, agree_activeTable h3 h4 h5]
    exact ha _ _ { h3 with pos := (h3.advance _).pos } h6

theorem agree_runDigit (w : Nat) {u v : State} (h : AgreeSymbols u v) : AgreeSymbols (runDigit w u) (runDigit w v) := by
  have hr : (if u.rep = 0 then 1 else u.reppow) = (if v.rep = 0 then 1 else v.reppow) := by rw [h.rep, h.reppow]
  exact { h with
    rep := (by show u.rep + w * (if u.rep = 0 then 1 else u.reppow) = v.rep + w * (if v.rep = 0 then 1 else v.reppow); rw [hr, h.rep])
    reppow := (by show 2 * (if u.rep = 0 then 1 else u.reppow) = 2 * (if v.rep = 0 then 1 else v.reppow); rw [hr]) }

theorem agree_flushThen {u v : State} (h : AgreeSymbols u v) (act act' : State → State) (ha : ∀ x y, AgreeSymbols x y → x.phase = u.phase → Sim (act x) (act' y)) :
   Sim (flushThen act u) (flushThen act' v) := by
  unfold flushThen
  by_cases h0 : u.rep = 0
  · rw [flushRun_zero h0, flushRun_zero (h.rep.symm.trans h0)]; exact ha u v h rfl
  · by_cases hf : u.size + u.rep ≤ u.blkMax
    · rw [flushRun_fits (by omega) hf, flushRun_fits (by rw [← h.rep]; omega) (by rw [← h.rep, ← h.size, ← h.blkMax]; exact hf)]
      refine ha _ _ { h with
            size := (by show u.size + u.rep = v.size + v.rep; rw [h.size, h.rep]), rep := rfl, tt := ?_ } rfl
      intro k hk
      have hk : k < u.size + u.rep := hk
      show (putAll _ _ _ _).getD k 0 = (putAll _ _ _ _).getD k 0
      rw [getD_putAll, getD_putAll, List.length_replicate, List.length_replicate, ← h.size, ← h.rep, ← h.mtf]
      by_cases he : u.size ≤ k ∧ k < u.size + u.rep
      · rw [if_pos he, if_pos he]
      · rw [if_neg he, if_neg he]; exact h.tt k (by omega)
    · rw [flushRun_full (by omega) (by omega), flushRun_full (by rw [← h.rep]; omega) (by rw [← h.rep, ← h.size, ← h.blkMax]; omega)]
      exact Agree.fail h.toAgree _

theorem agree_emitMtf (sym : Nat) {u v : State} (h : AgreeSymbols u v) (hp : u.phase = .symbol) : Sim (emitMtf sym u) (emitMtf sym v) := by
  unfold emitMtf
  refine Sim.ite (by rw [h.size, h.blkMax]) (fun _ => Agree.fail h.toAgree _) (fun _ => Sim.of12 hp ?_)
  have hm : mtfTake 0 u.mtf (sym - 1) = mtfTake 0 v.mtf (sym - 1) := by rw [h.mtf]
  refine { h with mtf := congrArg Prod.snd hm, size := congrArg (· + 1) h.size, tt := ?_ }
  intro k hk
  have hk : k < u.size + 1 := hk
  show (putAll _ _ _ _).getD k 0 = (putAll _ _ _ _).getD k 0
  rw [getD_put, getD_put, ← h.size, hm]
  by_cases he : k = u.size
  · rw [if_pos he, if_pos he]
  · rw [if_neg he, if_neg he]; exact h.tt k (by omega)

theorem firstN_congr {l m : List Byte} {n : Nat} (h : ∀ k < n, l.getD k 0 = m.getD k 0) : firstN l n 0 = firstN m n 0 := by
  apply eq_of_getD 0 (by simp)
  intro k hk
  have hk : k < n := by simpa using hk
  rw [getD_firstN, getD_firstN, if_pos hk, if_pos hk, h k hk]

theorem agree_ibwt {a b : State} (h : AgreePointer a b) : Both (execIbwt a) (execIbwt b) := by
  unfold execIbwt
  refine Both.ite (by rw [h.size, h.origPtr]) (fun _ => Both.next (h.toAgree.fail _)) (fun hlt => ?_)
  simp only
  have hl : firstN a.tt a.size 0 = firstN b.tt b.size 0 := by rw [← h.size]; exact firstN_congr h.tt
  rw [← hl, ← h.size, ← h.origPtr, chase_eq _ _ _ _ (by simp; omega)]
  refine Both.next ?_
  show AgreeBytes _ _
  refine { h with phase := rfl, size := rfl, origPtr := rfl, dst := ?_ }
  intro k hk
  have hk : k < a.size := hk
  show (putAll _ _ _ _).getD k 0 = (putAll _ _ _ _).getD k 0
  rw [getD_putAll, getD_putAll, if_pos (by simp; exact hk), if_pos (by simp; exact hk)]

theorem agree_emitRuns (room : Nat) : ∀ (runs : List (Nat × Byte)) (c : U32) (s t : State), s.outLen = t.outLen → s.finLen = t.finLen →
   AgreeBelow .output (s.outLen.toNat + s.finLen) s.outMem t.outMem →
   (emitRuns room runs c s).2 = (emitRuns room runs c t).2 ∧ (emitRuns room runs c s).1.finLen = (emitRuns room runs c t).1.finLen ∧
   AgreeBelow .output (s.outLen.toNat + (emitRuns room runs c s).1.finLen) (emitRuns room runs c s).1.outMem (emitRuns room runs c t).1.outMem
  | [], c, s, t, h1, h2, h3 => ⟨rfl, h2, h3⟩
  | (run, x) :: rest, c, s, t, h1, h2, h3 => by
    unfold emitRuns
    by_cases hr : s.finLen + run > room
    · rw [if_pos hr, if_pos (by rw [← h2]; exact hr)]; exact ⟨rfl, h2, h3⟩
    · rw [if_neg hr, if_neg (by rw [← h2]; exact hr)]
      refine agree_emitRuns room rest _ { s with outMem := Memory.writeRun s.outMem (s.outLen.toNat + s.finLen) run x, finLen := s.finLen + run } { t with
            outMem := Memory.writeRun t.outMem (t.outLen.toNat + t.finLen) run x, finLen := t.finLen + run } h1 (congrArg (· + run) h2) ?_
      intro y hy
      have hy : y < s.outLen.toNat + (s.finLen + run) := hy
      show Memory.read .output (Memory.writeRun _ _ _ _) y = Memory.read .output (Memory.writeRun _ _ _ _) y
      rw [Memory.read_writeRun, Memory.read_writeRun, ← h1, ← h2]
      by_cases he : s.outLen.toNat + s.finLen ≤ y ∧ y < s.outLen.toNat + s.finLen + run
      · rw [if_pos he, if_pos he]
      · rw [if_neg he, if_neg he]; exact h3 y (by omega)

theorem agree_rle {a b : State} (h : AgreeBytes a b) (hcap : a.outLen.toNat ≤ a.outCap.toNat) : Both (execRle a) (execRle b) := by
  have hl : firstN a.dst a.size 0 = firstN b.dst b.size 0 := by rw [← h.size]; exact firstN_congr h.dst
  obtain ⟨e1, e2, e3⟩ := agree_emitRuns (a.outCap.toNat - a.outLen.toNat) (rleRuns (firstN a.dst a.size 0)) crcInit { a with finLen := 0 } { b with
        finLen := 0 } h.outLen rfl h.out
  obtain ⟨g1, g2, g3, g4, -⟩ := emitRuns_frame (a.outCap.toNat - a.outLen.toNat) (rleRuns (firstN a.dst a.size 0)) crcInit { a with
        finLen := 0 } (Nat.zero_le _)
  obtain ⟨k1, k2, k3, k4, -⟩ := emitRuns_frame (a.outCap.toNat - a.outLen.toNat) (rleRuns (firstN a.dst a.size 0)) crcInit { b with
        finLen := 0 } (Nat.zero_le _)
  rcases hx : emitRuns (a.outCap.toNat - a.outLen.toNat) (rleRuns (firstN a.dst a.size 0)) crcInit { a with
        finLen := 0 } with ⟨u, o⟩
  rcases hy : emitRuns (a.outCap.toNat - a.outLen.toNat) (rleRuns (firstN a.dst a.size 0)) crcInit { b with
        finLen := 0 } with ⟨v, p⟩
  have hy' : emitRuns (b.outCap.toNat - b.outLen.toNat) (rleRuns (firstN b.dst b.size 0)) crcInit { b with
        finLen := 0 } = (v, p) := by
    have e : b.outCap.toNat - b.outLen.toNat = a.outCap.toNat - a.outLen.toNat := by rw [h.outCap, h.outLen]
    rw [e, ← hl]; exact hy
  unfold execRle; simp only
  rw [hx, hy']
  rw [hx] at e1 e2 e3 g1 g2 g3 g4
  rw [hy] at e1 e2 e3 k1 k2 k3 k4
  simp only at e1 e2 e3 g1 g2 g3 g4 k1 k2 k3 k4
  subst e1
  have hB4 : AgreePointer u v := by
    rw [g1, k1]
    refine { h with finLen := e2, out := ?_ }
    intro y hy
    have hy : y < a.outLen.toNat := hy
    exact e3 y (by show y < a.outLen.toNat + u.finLen; omega)
  cases o with
  | none => exact Both.next (hB4.toAgree.fail _)
  | some c =>
    refine Both.next ?_
    show AgreeChecked _ _
    have hol : u.outLen = a.outLen := by rw [g1]
    refine { hB4 with phase := rfl, bcrc := rfl, chk := ?_, chkL := ?_ }
    · show AgreeBelow .output (u.outLen.toNat + u.finLen) u.outMem v.outMem
      rw [hol]; exact e3
    · show u.outLen.toNat + u.finLen < 2 ^ 32
      rw [hol]
      have := a.outCap.isLt
      omega

theorem agree_check {a b : State} (h : AgreeChecked a b) : Both (execCheck a) (execCheck b) := by
  unfold execCheck
  refine Both.ite (by show a.bcrc = a.storedCrc ↔ b.bcrc = b.storedCrc; rw [h.bcrc, h.storedCrc]) (fun _ => Both.next ?_) (fun _ => Both.next (Agree.fail (a := { a with blockCrcCalc := a.bcrc }) (b := { b with blockCrcCalc := b.bcrc }) { h with
        blockCrcCalc := h.bcrc } _))
  show Agree _ _
  exact { h with
    blockCrcCalc := h.bcrc
    outLen := (by show a.outLen + BitVec.ofNat 32 a.finLen = b.outLen + BitVec.ofNat 32 b.finLen; rw [h.outLen, h.finLen])
    streamCrc := (by show rotl32 a.streamCrc ^^^ a.bcrc = rotl32 b.streamCrc ^^^ b.bcrc; rw [h.streamCrc, h.bcrc])
    blockCount := congrArg (· + 1) h.blockCount
    phase := rfl
    out := (by
      show AgreeBelow .output (a.outLen + BitVec.ofNat 32 a.finLen).toNat a.outMem b.outMem
      have := h.chkL
      rw [BitVec.toNat_add, BitVec.toNat_ofNat, show (a.outLen.toNat + a.finLen % 2 ^ 32) % 2 ^ 32 = a.outLen.toNat + a.finLen by omega]
      exact h.chk) }

theorem agree_streamBit {a b : State} (h : Agree a b) {p : Nat} (hp : p < 8 * a.inLen.toNat) : streamBit a p = streamBit b p := by
  unfold streamBit
  rw [h.inp (p / 8) (by omega)]

theorem agree_window {a b : State} (h : Agree a b) : window a = window b := by
  have hb : bitsLeft a = bitsLeft b := by unfold bitsLeft; rw [h.inLen, h.pos]
  unfold window bitsAt
  rw [hb, h.pos]
  apply List.map_congr_left
  intro k hk
  have hk := List.mem_range.1 hk
  refine agree_streamBit h ?_
  unfold bitsLeft at hk
  rw [h.inLen]; omega

end Sys2Proof.Machine
end

