-- ==== Sys2Proof/Laws/Crc.lean ====
section
/-! SUPPORT. Laws of the CRC register (47_crc.md R220): its shift is linear. -/

namespace Sys2Proof.Machine

/-- The register's shift is linear. -/
theorem crcShift_xor (a b : U32) : crcShift (a ^^^ b) = crcShift a ^^^ crcShift b := by
  unfold crcShift
  rw [BitVec.getLsbD_xor, BitVec.shiftLeft_xor_distrib]
  cases a.getLsbD 31 <;> cases b.getLsbD 31 <;> simp
  · rw [BitVec.xor_assoc]
  · rw [BitVec.xor_assoc, BitVec.xor_assoc, BitVec.xor_comm _ (b <<< 1)]
  · apply BitVec.eq_of_getLsbD_eq; intro i hi
    simp only [BitVec.getLsbD_xor]
    cases (a <<< 1).getLsbD i <;> cases (b <<< 1).getLsbD i <;> cases crcPoly.getLsbD i <;> rfl

theorem crcShifts_xor : ∀ (n : Nat) (a b : U32), crcShifts n (a ^^^ b) = crcShifts n a ^^^ crcShifts n b
  | 0, _, _ => rfl
  | n + 1, a, b => by rw [crcShifts, crcShift_xor, crcShifts_xor n]; rfl

/-- A register whose top `n` bits are clear shifts by `n` places. -/
theorem crcShifts_clear : ∀ (n : Nat) (v : U32), (∀ i, 32 - n ≤ i → v.getLsbD i = false) → n ≤ 32 →
    crcShifts n v = v <<< n
  | 0, v, _, _ => by simp [crcShifts]
  | n + 1, v, h, hn => by
    have h31 : crcShift v = v <<< 1 := by rw [crcShift, h 31 (by omega)]; rfl
    rw [crcShifts, h31, crcShifts_clear n (v <<< 1) ?_ (by omega), ← BitVec.shiftLeft_add, Nat.add_comm]
    intro i hi
    rw [BitVec.getLsbD_shiftLeft]
    by_cases hi32 : i < 32
    · by_cases h0 : i < 1
      · simp [h0]
      · rw [h (i - 1) (by omega)]; simp
    · simp [hi32]

end Sys2Proof.Machine
end

