-- ==== Sys2Proof/Laws/Invariant.lean ====
section
/-! SUPPORT. How the ends of a run and the shared operations keep the two invariants of Safety.lean. -/

namespace Sys2Proof.Machine

/-- A failed run meets the invariant. -/
theorem inv_fail {s u : State} (hI : Inv s) (k : Keeps s u) (c : Cause) : Inv (fail c u) := by
  refine ⟨?_, ?_, ?_, ?_, ?_, ?_, ?_⟩
  · have := hI.params; rw [← k.cfg] at this; exact this
  · simp [BusyIffRunning, fail]
  · have := hI.memories; unfold MemoriesLegal at *; rw [← k.cfg, ← k.inMem, ← k.outMem] at this; exact this
  · have := hI.lengths; unfold LengthsLegal at *; rw [← k.cfg, ← k.inLen, ← k.outCap] at this; exact this
  · intro h; cases h
  · exact ⟨fun h => (by cases h), fun h => (by cases h)⟩
  · exact ⟨.inr ⟨c, rfl, rfl, rfl⟩, fun h => (by cases h)⟩

/-- So does a finished one. -/
theorem inv_finish {s u : State} (hI : Inv s) (k : Keeps s u) : Inv (finish u) := by
  refine ⟨?_, ?_, ?_, ?_, ?_, ?_, ?_⟩
  · have := hI.params; rw [← k.cfg] at this; exact this
  · simp [BusyIffRunning, finish]
  · have := hI.memories; unfold MemoriesLegal at *; rw [← k.cfg, ← k.inMem, ← k.outMem] at this; exact this
  · have := hI.lengths; unfold LengthsLegal at *; rw [← k.cfg, ← k.inLen, ← k.outCap] at this; exact this
  · intro h; cases h
  · exact ⟨fun h => (by cases h), fun h => (by cases h)⟩
  · exact ⟨.inl ⟨rfl, rfl, rfl⟩, fun h => (by cases h)⟩

/-- The cursor moved past bits that are left stays in the input. -/
theorem cursor_advance {s : State} (hI : Inv s) (hb : s.phase ≠ .idle) {n : Nat} (hn : n ≤ bitsLeft s) :
   (s.pos + BitVec.ofNat 32 n).toNat ≤ 8 * s.inLen.toNat := by
  have h1 := hI.cursor (hI.busy.2 hb)
  have h2 := hI.lengths.1
  have h3 := hI.params.2.1
  unfold bitsLeft at hn
  rw [BitVec.toNat_add, BitVec.toNat_ofNat]; omega

/-- A run that goes on, in the frame, with its cursor in the input, meets the invariant. -/
theorem inv_on {s t : State} (hI : Inv s) (k : Keeps s t) (hb : s.phase ≠ .idle) (hp : t.phase ≠ .idle) (hc : t.phase ≠ .check) (hpos : t.pos.toNat ≤ 8 * s.inLen.toNat) : Inv t := by
  refine ⟨?_, ?_, ?_, ?_, ?_, ?_, ?_⟩
  · have := hI.params; rw [← k.cfg] at this; exact this
  · have := hI.busy.2 hb; unfold BusyIffRunning; rw [k.busy, this]; simp [hp]
  · have := hI.memories; unfold MemoriesLegal at *; rw [← k.cfg, ← k.inMem, ← k.outMem] at this; exact this
  · have := hI.lengths; unfold LengthsLegal at *; rw [← k.cfg, ← k.inLen, ← k.outCap] at this; exact this
  · intro h; rw [k.inLen]; exact hpos
  · refine ⟨fun h => ?_, fun h => absurd h hc⟩
    rw [k.outLen, k.outCap]; exact hI.output.1 (by rw [← k.busy]; exact h)
  · have := hI.errors; unfold ErrorFieldsLegal at *; rw [k.err, k.errKind, k.errCause, k.busy, k.done]; exact this

/-- Only RLE leads to CHECK. -/
theorem exec_not_check {i : Instr} {s t : State} (h : exec i s = .next t) (hh : i.hostOffset = none) (hp : i.phase = s.phase) (hr : i ≠ .rle) :
   t.phase ≠ .check := by
  intro hc
  rcases exec_phase h hh hp with h | h
  · rw [hc] at h; cases h
  · rw [hc, ← hp] at h
    cases i <;> simp [Instr.phase, successors, Instr.hostOffset] at h hh hr

/-! ### The block's invariant -/

/-- Outside a block's decoding only the built tables are constrained. -/
theorem blockInv_outside {t : State} (ht : ∀ x ∈ t.tbl, ∀ n ∈ x.present, LengthRecorded n) (hp : t.phase = .idle ∨ t.phase = .magic ∨ t.phase = .scrc ∨ t.phase = .header ∨ t.phase = .rle ∨ t.phase = .check) : BlockInv t := by
  refine ⟨ht, ?_, ?_, ?_, ?_, ?_⟩ <;> intro h <;> rcases hp with h' | h' | h' | h' | h' | h' <;> rw [h'] at h <;> cases h

theorem blockInv_symbolStep {s : State} (hI : BlockInv s) (hp : s.phase = .symbol) (sym : Nat) (act : State → State)
   (ha : ∀ v, v.tbl = s.tbl → v.phase = .symbol → v.alpha = s.alpha → v.mtf = s.mtf → v.size = s.size → v.blkMax = s.blkMax → BlockInv (act v)) : BlockInv (symbolStep sym act s) := by
  cases hg : groupSwitch s with
  | none => rw [symbolStep_none hg]; exact blockInv_outside hI.tables (.inl rfl)
  | some u =>
    rw [symbolStep_some hg, groupSwitch_eq hg]
    exact ha _ rfl hp rfl rfl rfl rfl

/-- In the symbol stream: tables, alphabet and size. -/
theorem blockInv_symbol {t : State} (ht : ∀ x ∈ t.tbl, ∀ n ∈ x.present, LengthRecorded n) (hp : t.phase = .symbol) (ha : 3 ≤ t.alpha ∧ t.mtf.length + 2 = t.alpha) (hs : t.size ≤ t.blkMax) : BlockInv t := by
  refine ⟨ht, ?_, ?_, fun _ => ha, ?_, fun _ => hs⟩ <;> intro h <;> rw [hp] at h <;> cases h

theorem blockInv_flushThen {s u : State} (hI : BlockInv s) (act : State → State) (e1 : u.tbl = s.tbl) (e2 : u.phase = .symbol) (e3 : u.alpha = s.alpha) (e4 : u.mtf = s.mtf) (e5 : u.size = s.size) (e6 : u.blkMax = s.blkMax)
   (hs : s.size ≤ s.blkMax)
   (ha : ∀ v, v.tbl = s.tbl → v.phase = .symbol → v.alpha = s.alpha → v.mtf = s.mtf → v.size ≤ v.blkMax → BlockInv (act v)) : BlockInv (flushThen act u) := by
  unfold flushThen
  cases hf : flushRun u with
  | none => exact blockInv_outside (by show ∀ x ∈ u.tbl, _; rw [e1]; exact hI.tables) (.inl rfl)
  | some v =>
    have hv := (flushRun_eq hf).1
    exact ha v (by rw [hv]; exact e1) (by rw [hv]; exact e2) (by rw [hv]; exact e3) (by rw [hv]; exact e4) ((flushRun_eq hf).2 (by omega))

theorem exists_getD_of_mem {lens : List Nat} {n : Nat} (h : n ∈ lens) : ∃ k < lens.length, lens.getD k 0 = n := by
  obtain ⟨k, hk, h⟩ := List.getElem_of_mem h
  exact ⟨k, hk, by simp [hk, h]⟩

theorem blockInv_nextRange {u : State} (ht : ∀ x ∈ u.tbl, ∀ n ∈ x.present, LengthRecorded n) (hs : u.size ≤ u.blkMax) : BlockInv (nextRange u) := by
  unfold nextRange; simp only; split
  · rename_i h; rw [h]
    by_cases hs' : u.seq = []
    · rw [bitmapDone_empty (by exact hs')]; exact blockInv_outside ht (.inl rfl)
    · rw [bitmapDone_used (by exact hs')]
      have : u.seq.length ≠ 0 := by simpa using hs'
      refine ⟨ht, ?_, ?_, fun _ => ⟨by show 3 ≤ u.seq.length + 2; omega, rfl⟩, ?_, fun _ => hs⟩ <;> intro h <;> cases h
  · refine ⟨ht, ?_, ?_, fun h => h.elim, ?_, fun _ => hs⟩ <;> intro h <;> cases h

end Sys2Proof.Machine
end

