-- ==== Sys2Proof/Laws/PerInstr.lean ====
section
/-! SUPPORT. Statements made per instruction. TokenLength: an encoding has the bits its format gives it (30_encoding.md
R90). -/

namespace Sys2Proof.Laws.TokenLength

/-- The bits of each format (30_encoding.md R90): a fixed field's width, a unary selector's ones and its zero, a delta's
one or two bits, a symbol's code length in the context's table; none for an internal operation; a host command is a
32-bit register write. -/
def formatBits (c : Context) : Instr → Nat
  | .hdr _ => 32
  | .block | .eos => 48
  | .scrc _ | .bcrc _ => 32
  | .rand _ => 1
  | .ptr _ => 24
  | .map1 _ | .map2 _ => 16
  | .ngrp _ => 3
  | .nsel _ => 15
  | .sel k => k + 1
  | .len5 _ => 5
  | .lkeep => 1
  | .linc | .ldec => 2
  | .runa => c.table.lens.getD 0 0
  | .runb => c.table.lens.getD 1 0
  | .mtf s => c.table.lens.getD s 0
  | .eob => c.table.lens.getD (c.alpha - 1) 0
  | .build | .ibwt | .rle | .check => 0
  | .start _ | .irqEnSet _ | .doneClr _ | .inLenSet _ | .outCapSet _ => 32

def Statement (i : Instr) : Prop := ∀ c : Context, (encode c i).length = formatBits c i

theorem hdr (d : BitVec 8) : Statement (.hdr d) := fun _ => by simp [encode, formatBits]
theorem block : Statement .block := fun _ => length_bitsOfNat _ _
theorem eos : Statement .eos := fun _ => length_bitsOfNat _ _
theorem scrc (v : BitVec 32) : Statement (.scrc v) := fun _ => length_bitsOfNat _ _
theorem bcrc (v : BitVec 32) : Statement (.bcrc v) := fun _ => length_bitsOfNat _ _
theorem rand (r : BitVec 1) : Statement (.rand r) := fun _ => length_bitsOfNat _ _
theorem ptr (p : BitVec 24) : Statement (.ptr p) := fun _ => length_bitsOfNat _ _
theorem map1 (m : BitVec 16) : Statement (.map1 m) := fun _ => length_bitsOfNat _ _
theorem map2 (m : BitVec 16) : Statement (.map2 m) := fun _ => length_bitsOfNat _ _
theorem ngrp (g : BitVec 3) : Statement (.ngrp g) := fun _ => length_bitsOfNat _ _
theorem nsel (n : BitVec 15) : Statement (.nsel n) := fun _ => length_bitsOfNat _ _
theorem sel (k : Nat) : Statement (.sel k) := fun _ => by simp [encode, formatBits]
theorem len5 (l : BitVec 5) : Statement (.len5 l) := fun _ => length_bitsOfNat _ _
theorem lkeep : Statement .lkeep := fun _ => rfl
theorem linc : Statement .linc := fun _ => rfl
theorem ldec : Statement .ldec := fun _ => rfl
theorem runa : Statement .runa := fun _ => length_bitsOfNat _ _
theorem runb : Statement .runb := fun _ => length_bitsOfNat _ _
theorem mtf (s : Nat) : Statement (.mtf s) := fun _ => length_bitsOfNat _ _
theorem eob : Statement .eob := fun _ => length_bitsOfNat _ _
theorem build : Statement .build := fun _ => rfl
theorem ibwt : Statement .ibwt := fun _ => rfl
theorem rle : Statement .rle := fun _ => rfl
theorem check : Statement .check := fun _ => rfl
theorem start (v : BitVec 32) : Statement (.start v) := fun _ => length_bitsOfNat _ _
theorem irqEnSet (v : BitVec 32) : Statement (.irqEnSet v) := fun _ => length_bitsOfNat _ _
theorem doneClr (v : BitVec 32) : Statement (.doneClr v) := fun _ => length_bitsOfNat _ _
theorem inLenSet (v : BitVec 32) : Statement (.inLenSet v) := fun _ => length_bitsOfNat _ _
theorem outCapSet (v : BitVec 32) : Statement (.outCapSet v) := fun _ => length_bitsOfNat _ _

end Sys2Proof.Laws.TokenLength
end

