-- ==== Sys2Proof/Laws/Tables.lean ====
section
/-! SUPPORT. Laws of the canonical tables (43_selectors_and_tables.md R169): the order of `perm`, and the codes. -/

namespace Sys2Proof.Machine


/-- `a` comes before `b` in `perm`. -/
def Before (lens : List Nat) (a b : Nat) : Prop :=
  lens.getD a 0 < lens.getD b 0 ∨ (lens.getD a 0 = lens.getD b 0 ∧ a < b)

theorem le_foldr_max : ∀ (l : List Nat), ∀ n ∈ l, n ≤ l.foldr max 0
  | a :: l, n, h => by
    rcases List.mem_cons.1 h with rfl | h
    · simp
    · have := le_foldr_max l n h; simp; omega

theorem mem_sortedSymbols {lens : List Nat} {s : Nat} : s ∈ sortedSymbols lens ↔ s < lens.length := by
  simp only [sortedSymbols, List.mem_flatMap, List.mem_range, List.mem_filter, beq_iff_eq]
  constructor
  · rintro ⟨_, _, h, _⟩; exact h
  · intro h
    refine ⟨lens.getD s 0, ?_, h, rfl⟩
    have : lens.getD s 0 ∈ lens := by simp [List.getD_eq_getElem?_getD, h]
    have := le_foldr_max _ _ this
    omega

theorem pairwise_sortedSymbols (lens : List Nat) : (sortedSymbols lens).Pairwise (Before lens) := by
  rw [sortedSymbols, List.pairwise_flatMap]
  constructor
  · intro n _
    have h : (List.range lens.length).Pairwise (· < ·) := List.pairwise_lt_range
    refine (h.filter _).imp_of_mem ?_
    intro a b ha hb hab
    simp only [List.mem_filter, beq_iff_eq] at ha hb
    exact .inr ⟨by omega, hab⟩
  · refine List.pairwise_lt_range.imp ?_
    intro m n hmn a ha b hb
    simp only [List.mem_filter, beq_iff_eq] at ha hb
    exact .inl (by omega)

theorem Before.irrefl {lens : List Nat} {a : Nat} : ¬ Before lens a a := by simp [Before]

theorem nodup_sortedSymbols (lens : List Nat) : (sortedSymbols lens).Nodup :=
  (pairwise_sortedSymbols lens).imp fun h e => by subst e; exact Before.irrefl h

theorem perm_sortedSymbols (lens : List Nat) : (sortedSymbols lens).Perm (List.range lens.length) :=
  (List.perm_ext_iff_of_nodup (nodup_sortedSymbols lens) List.nodup_range).2 fun s => by
    rw [mem_sortedSymbols, List.mem_range]

/-- The code assignment: an untouched entry keeps its code. -/
theorem assignCodes_not_mem (lens : List Nat) : ∀ (ss : List Nat) (c prev : Nat) (codes : List Nat) (x : Nat), x ∉ ss →
    (assignCodes lens ss c prev codes).getD x 0 = codes.getD x 0
  | [], _, _, _, _, _ => rfl
  | s :: ss, c, prev, codes, x, h => by
    simp only [List.mem_cons, not_or] at h
    rw [assignCodes, assignCodes_not_mem lens ss _ _ _ x h.2]
    simp [List.getD_eq_getElem?_getD, Ne.symm h.1]

theorem assignCodes_eq (lens : List Nat) : ∀ (pre : List Nat) (s : Nat) (post : List Nat) (c prev : Nat)
    (codes : List Nat),
    (pre ++ s :: post).Pairwise (Before lens) → (∀ r ∈ pre ++ s :: post, prev ≤ lens.getD r 0) → s < codes.length →
    (assignCodes lens (pre ++ s :: post) c prev codes).getD s 0 =
      c * 2 ^ (lens.getD s 0 - prev) + (pre.map fun r => 2 ^ (lens.getD s 0 - lens.getD r 0)).sum
  | [], s, post, c, prev, codes, hp, hl, hs => by
    have h1 : s ∉ post := fun h => Before.irrefl ((List.pairwise_cons.1 hp).1 s h)
    have h2 := hl s (by simp)
    rw [List.nil_append, assignCodes, assignCodes_not_mem lens post _ _ _ s h1]
    simp only [List.getD_eq_getElem?_getD, List.getElem?_set, hs, if_true] at h2 ⊢
    split <;> rename_i h
    · simp [Nat.shiftLeft_eq]
    · simp at h; rw [Nat.sub_eq_zero_of_le h]; simp
  | p :: pre, s, post, c, prev, codes, hp, hl, hs => by
    have h2 := hl p (by simp)
    have hp' := List.pairwise_cons.1 hp
    have hmax : max prev (lens.getD p 0) = lens.getD p 0 := by omega
    have hb : Before lens p s := hp'.1 s (by simp)
    have hc : (if lens.getD p 0 > prev then c <<< (lens.getD p 0 - prev) else c) = c * 2 ^ (lens.getD p 0 - prev) := by
      split
      · rw [Nat.shiftLeft_eq]
      · rw [Nat.sub_eq_zero_of_le (by omega)]; simp
    rw [List.cons_append, assignCodes, hc, hmax, assignCodes_eq lens pre s post _ _ _ hp'.2 ?_ (by simpa using hs)]
    · simp only [List.map_cons, List.sum_cons]
      have hle : lens.getD p 0 ≤ lens.getD s 0 := by rcases hb with h | h <;> omega
      have : 2 ^ (lens.getD s 0 - prev) = 2 ^ (lens.getD p 0 - prev) * 2 ^ (lens.getD s 0 - lens.getD p 0) := by
        rw [← pow_add]; congr 1; omega
      rw [this]; ring
    · intro r hr
      rcases hp'.1 r hr with h | h <;> omega

theorem minlen_le {lens : List Nat} : ∀ n ∈ lens, lens.foldr min (lens.foldr max 0) ≤ n := by
  have : ∀ (l : List Nat) (m : Nat), ∀ n ∈ l, l.foldr min m ≤ n := by
    intro l m
    induction l with
    | nil => simp
    | cons a l ih =>
      intro n h
      rcases List.mem_cons.1 h with rfl | h
      · simp
      · have := ih n h; simp; omega
  exact this _ _

/-- A symbol's code, where `perm` splits at it. -/
theorem code_eq {lens : List Nat} {s : Nat} {pre post : List Nat} (h : sortedSymbols lens = pre ++ s :: post) :
    (buildTable lens).code.getD s 0 = (pre.map fun r => 2 ^ (lens.getD s 0 - lens.getD r 0)).sum := by
  have hs : s < lens.length := mem_sortedSymbols.1 (by rw [h]; simp)
  simp only [buildTable]
  rw [h, assignCodes_eq lens pre s post _ _ _ (h ▸ pairwise_sortedSymbols lens) ?_ (by simpa using hs)]
  · simp
  · intro r hr
    have hr : r < lens.length := mem_sortedSymbols.1 (h ▸ hr)
    apply minlen_le
    simp [List.getD_eq_getElem?_getD, hr]

/-- An earlier symbol's code, one more unit, shifted to a later one's length, is at most the later one's code. -/
theorem code_step {lens : List Nat} {a b : Nat} (ha : a < lens.length) (hb : b < lens.length) (h : Before lens a b) :
    ((buildTable lens).code.getD a 0 + 1) * 2 ^ (lens.getD b 0 - lens.getD a 0) ≤ (buildTable lens).code.getD b 0 := by
  obtain ⟨pre, post, hp⟩ := List.append_of_mem (mem_sortedSymbols.2 hb)
  have hpw := pairwise_sortedSymbols lens
  have ha' : a ∈ pre := by
    have := mem_sortedSymbols.2 ha
    rw [hp] at this hpw
    rcases List.mem_append.1 this with h' | h'
    · exact h'
    · exfalso
      rcases List.mem_cons.1 h' with rfl | h'
      · exact Before.irrefl h
      · have := (List.pairwise_cons.1 (List.pairwise_append.1 hpw).2.1).1 a h'
        rcases h with h | h <;> rcases this with h'' | h'' <;> omega
  obtain ⟨p1, p2, rfl⟩ := List.append_of_mem ha'
  rw [code_eq hp, code_eq (pre := p1) (post := p2 ++ b :: post) (by rw [hp]; simp)]
  rw [List.map_append, List.sum_append, List.map_cons, List.sum_cons, Nat.add_mul, ← List.sum_map_mul_right]
  have : ((p1.map fun r => 2 ^ (lens.getD a 0 - lens.getD r 0) * 2 ^ (lens.getD b 0 - lens.getD a 0)).sum)
      = (p1.map fun r => 2 ^ (lens.getD b 0 - lens.getD r 0)).sum := by
    congr 1
    apply List.map_congr_left
    intro r hr
    rw [← pow_add]; congr 1
    rw [hp] at hpw
    have h1 : Before lens r a := by
      have := (List.pairwise_append.1 hpw).1
      exact (List.pairwise_append.1 this).2.2 r hr a (by simp)
    rcases h with h | h <;> rcases h1 with h'' | h'' <;> omega
  rw [this]; omega


theorem foldr_max_mem : ∀ {l : List Nat}, l ≠ [] → l.foldr max 0 ∈ l
  | [a], _ => by simp
  | a :: b :: l, _ => by
    have ih : (b :: l).foldr max 0 ∈ b :: l := foldr_max_mem (List.cons_ne_nil b l)
    rw [List.foldr_cons]
    rcases Nat.le_total a ((b :: l).foldr max 0) with h | h
    · rw [Nat.max_eq_right h]; exact List.mem_cons_of_mem a ih
    · rw [Nat.max_eq_left h]; exact List.mem_cons_self

theorem foldr_min_mem {d : Nat} : ∀ (l : List Nat), l.foldr min d = d ∨ l.foldr min d ∈ l
  | [] => .inl rfl
  | a :: l => by
    rw [List.foldr_cons]
    rcases Nat.le_total a (l.foldr min d) with h | h
    · rw [Nat.min_eq_left h]; exact .inr List.mem_cons_self
    · rw [Nat.min_eq_right h]
      exact (foldr_min_mem l).imp id (List.mem_cons_of_mem a)

/-- Two symbols of one length have different codes. -/
theorem code_injective {lens : List Nat} {a b : Nat} (ha : a < lens.length) (hb : b < lens.length) (hab : a ≠ b)
    (hl : lens.getD a 0 = lens.getD b 0) : (buildTable lens).code.getD a 0 ≠ (buildTable lens).code.getD b 0 := by
  intro he
  rcases Nat.lt_or_gt_of_ne hab with h | h
  · have h1 := code_step ha hb (.inr ⟨hl, h⟩)
    rw [hl, Nat.sub_self, pow_zero, he] at h1; omega
  · have h1 := code_step hb ha (.inr ⟨hl.symm, h⟩)
    rw [hl, Nat.sub_self, pow_zero, he] at h1; omega

end Sys2Proof.Machine
end

