-- ==== Sys2Proof/Tests/Slice0.lean ====
section
/-! SUPPORT. The model's own tests: well-formedness refuses, the spec's words decode, one step of each instruction
against 95_test_vectors.md, and for every obligation with hypotheses a state that meets them. Expected values are the
spec's; the vector or rule stands beside each. -/

open Sys2Proof Sys2Proof.Machine Sys2Proof.Claims

namespace Sys2Proof.Tests

/-! ### Helpers -/

/-- A memory holding the listed bytes from address 0. -/
def mem (bytes : List Nat) : Memory := Memory.writeBytes [] 0 (bytes.map (BitVec.ofNat 8))

/-- The engine busy in phase `p`, the cursor at bit `pos` of the listed bytes, OUT_CAP 1024. -/
def engine (p : Phase) (pos : Nat) (bytes : List Nat) : State :=
  { State.reset with
    busy := true, phase := p, pos := BitVec.ofNat 32 pos
    inMem := mem bytes, inLen := BitVec.ofNat 32 bytes.length, outCap := 1024 }

/-- The outcome is a next state, and it has `p`. -/
def goes (o : Host.Outcome State Fault Refusal) (p : State → Bool) : Bool :=
  match o with
  | .next t => p t
  | _       => false

/-- Letters as bytes. -/
def bytesOf (l : List Nat) : List Byte := l.map (BitVec.ofNat 8)

/-- Program P1: the empty stream. -/
def p1 : List Nat := [0x42, 0x5A, 0x68, 0x39, 0x17, 0x72, 0x45, 0x38, 0x50, 0x90, 0, 0, 0, 0]

/-- Program P2, its first 26 bytes: "hello" up to its first symbols. -/
def p2 : List Nat :=
  [0x42, 0x5A, 0x68, 0x31, 0x31, 0x41, 0x59, 0x26, 0x53, 0x59, 0x19, 0x31, 0x65, 0x3D, 0x00, 0x00, 0x00, 0x81,
   0x00, 0x02, 0x44, 0xA0, 0x00, 0x21, 0x09, 0x03]

/-- A host with 4096 bytes of each memory (95_test_vectors.md 2.8). -/
def small : State := { State.reset with cfg := { Params.default with inMemBytes := 4096, outMemBytes := 4096 } }

/-- A symbol's context: group 0 of P2, lengths 2 2 2 3 4 4, `alpha` 6. -/
def symbols : Context := ⟨.symbol, 2, .ref, buildTable [2, 2, 2, 3, 4, 4], 6⟩

/-- The engine in the symbol stream of P2's group 0, 49 symbols of the group left, the next code at bit 0. -/
def inSymbols (bytes : List Nat) : State :=
  { engine .symbol 0 bytes with
    tbl := [buildTable [2, 2, 2, 3, 4, 4]], alpha := 6, nSel := 1, gno := 1, gpos := 49, blkMax := 100000
    mtf := bytesOf [0x65, 0x68, 0x6C, 0x6F] }

/-! ### WellFormed refuses each ill-formed operand -/

theorem test_wf_sel_six : (Instr.sel 6).wellFormed = false := by decide
theorem test_wf_mtf_one : (Instr.mtf 1).wellFormed = false := by decide
theorem test_wf_mtf_257 : (Instr.mtf 257).wellFormed = false := by decide
theorem test_wf_start_bit0_clear : (Instr.start 2).wellFormed = false := by decide
theorem test_wf_irqEnSet_bit0_set : (Instr.irqEnSet 3).wellFormed = false := by decide
theorem test_wf_doneClr_bit1_clear : (Instr.doneClr 1).wellFormed = false := by decide
theorem test_wf_bounds : (Instr.sel 5).wellFormed = true ∧ (Instr.mtf 256).wellFormed = true := by decide

/-! ### Decoding, each constructor from bits written out (30_encoding.md R90, R94, R95, R96; 42, 43, 95) -/

theorem test_decode_hdr : decode (plain .header)
    (bits [0,1,0,0,0,0,1,0, 0,1,0,1,1,0,1,0, 0,1,1,0,1,0,0,0, 0,0,1,1,0,0,0,1]) = .token (.hdr 0x31) 32 := by decide
theorem test_decode_block : decode (plain .magic)
    (bits [0,0,1,1,0,0,0,1, 0,1,0,0,0,0,0,1, 0,1,0,1,1,0,0,1, 0,0,1,0,0,1,1,0, 0,1,0,1,0,0,1,1, 0,1,0,1,1,0,0,1])
    = .token .block 48 := by decide
theorem test_decode_eos : decode (plain .magic)
    (bits [0,0,0,1,0,1,1,1, 0,1,1,1,0,0,1,0, 0,1,0,0,0,1,0,1, 0,0,1,1,1,0,0,0, 0,1,0,1,0,0,0,0, 1,0,0,1,0,0,0,0])
    = .token .eos 48 := by decide
theorem test_decode_scrc : decode (plain .scrc)
    (bits [0,0,0,1,1,0,0,1, 0,0,1,1,0,0,0,1, 0,1,1,0,0,1,0,1, 0,0,1,1,1,1,0,1]) = .token (.scrc 0x1931653D) 32 :=
        by decide
theorem test_decode_bcrc : decode (plain .bcrc)
    (bits [1,1,1,0,1,0,0,1, 1,0,0,1,0,0,1,1, 1,1,1,1,1,1,0,1, 1,1,0,0,1,1,0,1]) = .token (.bcrc 0xE993FDCD) 32 :=
        by decide
theorem test_decode_rand : decode (plain .rand) (bits [1]) = .token (.rand 1) 1 := by decide
theorem test_decode_ptr : decode (plain .ptr)
    (bits [0,0,0,0,0,0,0,0, 0,0,0,0,0,0,0,0, 0,0,1,0,1,1,0,1]) = .token (.ptr 45) 24 := by decide
theorem test_decode_map1 : decode (plain .map1) (bits [1,0,0,0,0,0,1,0, 0,0,0,0,0,0,0,0]) = .token (.map1 0x8200) 16 := by
  decide
theorem test_decode_map2 : decode (plain .map2) (bits [0,0,0,0,0,1,0,0, 1,0,0,0,1,0,0,1]) = .token (.map2 0x0489) 16 := by
  decide
theorem test_decode_ngrp : decode (plain .ngrp) (bits [0,1,1]) = .token (.ngrp 3) 3 := by decide
theorem test_decode_nsel : decode (plain .nsel) (bits [1,0,0,0,1,1,0, 0,1,0,1,0,0,1,0]) = .token (.nsel 18002) 15 :=
    by decide
theorem test_decode_sel_table_rows :
    [[0], [1,0], [1,1,0], [1,1,1,0], [1,1,1,1,0], [1,1,1,1,1,0]].map (fun l => decode ⟨.selector, 6, .ref, default, 0⟩ (bits l))
      = [.token (.sel 0) 1, .token (.sel 1) 2, .token (.sel 2) 3, .token (.sel 3) 4, .token (.sel 4) 5, .token (.sel 5) 6] := by
  decide
/-- V42h: six one-bits with six groups. -/
theorem test_decode_sel_run : decode ⟨.selector, 6, .ref, default, 0⟩ (bits [1,1,1,1,1,1]) = .illegal .selectorRun 6 := by decide
theorem test_decode_len5 : decode (plain .lenStart) (bits [1,0,1,0,1]) = .token (.len5 21) 5 := by decide
theorem test_decode_deltas : decode (plain .lenDelta) (bits [0]) = .token .lkeep 1
    ∧ decode (plain .lenDelta) (bits [1,0]) = .token .linc 2 ∧ decode (plain .lenDelta) (bits [1,1]) = .token .ldec 2 := by decide
theorem test_decode_deltas_doc : decode ⟨.lenDelta, 0, .doc, default, 0⟩ (bits [1,0]) = .token .ldec 2
    ∧ decode ⟨.lenDelta, 0, .doc, default, 0⟩ (bits [1,1]) = .token .linc 2 := by decide
/-- P2's codes of group 0: RUNA 00, RUNB 01, s2 10, s3 110, s4 1110, EOB 1111. -/
theorem test_decode_symbols :
    [[0,0], [0,1], [1,0], [1,1,0], [1,1,1,0], [1,1,1,1]].map (fun l => decode symbols (bits l))
      = [.token .runa 2, .token .runb 2, .token (.mtf 2) 2, .token (.mtf 3) 3, .token (.mtf 4) 4, .token .eob 4] :=
          by decide
/-- V44a: `11` is no code of the incomplete table 2 2 2. -/
theorem test_decode_no_match :
    decode ⟨.symbol, 2, .ref, buildTable [2, 2, 2], 3⟩ (bits [1,1]) = .illegal .noCodeMatch 0 := by decide
theorem test_decode_internal : [Phase.build, .ibwt, .rle, .check].map (fun p => decode (plain p) [])
    = [.token .build 0, .token .ibwt 0, .token .rle 0, .token .check 0] := by decide
/-- The offsets and fixed bits of the host rows of spec/opcode_table.json. -/
theorem test_decode_host : decodeHost 0x00 1 = some (.start 1) ∧ decodeHost 0x00 2 = some (.irqEnSet 2)
    ∧ decodeHost 0x04 2 = some (.doneClr 2) ∧ decodeHost 0x04 0xFFFFFFFD = none
    ∧ decodeHost 0x08 40 = some (.inLenSet 40) ∧ decodeHost 0x0C 1024 = some (.outCapSet 1024)
    ∧ decodeHost 0x10 7 = none ∧ decodeHost 0x80 1 = none := by decide
theorem test_tableWord : decodeTableWord 48 0x314159265359 = some .block ∧ decodeTableWord 32 0x425A6831 =
    some (.hdr 0x31)
    ∧ decodeTableWord 8 0x3E = some (.sel 5) := by decide

/-! ### One step of each instruction -/

/-- P1, first token: BLOCK_MAX 900000, pos 32. -/
theorem test_hdr : goes (step (engine .header 0 p1)) (fun t => t.blockMax == 900000 && t.pos == 32 && t.phase == .magic) = true := by
  decide
/-- W1: thirteen bytes. -/
theorem test_hdr_short : goes (step (engine .header 0 (p1.take 13)))
    (fun t => regRead 0x04 t == 0x00010106 && t.errBitpos == 0) = true := by decide
theorem test_block : goes (step (engine .magic 32 p2)) (fun t => t.phase == .bcrc && t.pos == 80) = true := by decide
/-- V41i: the block magic's first 32 bits only. -/
theorem test_badMagic : goes (step (engine .magic 32
    [0x42, 0x5A, 0x68, 0x31, 0x31, 0x41, 0x59, 0x26, 0, 0, 0, 0, 0, 0]))
    (fun t => regRead 0x04 t == 0x00040106 && t.errBitpos == 80) = true := by decide
theorem test_eos : goes (step (engine .magic 32 p1)) (fun t => t.phase == .scrc && t.pos == 80) = true := by decide
/-- P1's end: STATUS 2, pos 112. -/
theorem test_scrc : goes (step (engine .scrc 80 p1)) (fun t => regRead 0x04 t == 2 && t.pos == 112 && t.errBitpos == 0) = true := by
  decide
/-- V41e: the last byte 01. -/
theorem test_scrc_mismatch : goes (step (engine .scrc 80 (p1.take 13 ++ [1])))
    (fun t => regRead 0x04 t == 0x00410506 && t.errBitpos == 112) = true := by decide
theorem test_bcrc : goes (step (engine .bcrc 80 p2)) (fun t => regRead 0x24 t == 0x1931653D && t.pos == 112) = true := by decide
/-- W4: the randomised flag. -/
theorem test_rand : goes (step (engine .rand 112 [0,0,0,0,0,0,0,0,0,0,0,0,0,0,0x80]))
    (fun t => regRead 0x04 t == 0x00500606 && t.errBitpos == 113) = true := by decide
theorem test_ptr : goes (step (engine .ptr 113 p2)) (fun t => t.origPtr == 1 && t.pos == 137 && t.phase == .map1) = true := by decide
/-- P2: range 6. -/
theorem test_map1 : goes (step (engine .map1 137 p2)) (fun t => t.mapI == 6 && t.phase == .map2 && t.pos == 153) = true := by decide
/-- V42a: no range in use. -/
theorem test_map1_empty : goes (exec (.map1 0) (engine .map1 137 p2))
    (fun t => regRead 0x04 t == 0x00050106 && t.errBitpos == 153) = true := by decide
/-- V42i: `e h l o`, `alpha` 6. -/
theorem test_map2 : goes (step { engine .map2 153 p2 with map1 := 0x0200, mapI := 6 })
    (fun t => t.mtf == bytesOf [0x65, 0x68, 0x6C, 0x6F] && t.alpha == 6 && t.phase == .ngrp) = true := by decide
/-- V42j: range 0 then range 6. -/
theorem test_map2_next : goes (exec (.map2 0x0200) { engine .map2 0 p2 with map1 := 0x8200 })
    (fun t => t.seq == [0x06] && t.mapI == 6 && t.phase == .map2) = true := by decide
theorem test_ngrp : goes (step (engine .ngrp 169 p2)) (fun t => t.nGroups == 2 && t.pos == 172) = true := by decide
/-- W5: seven groups. -/
theorem test_ngrp_seven : goes (exec (.ngrp 7) (engine .ngrp 169 p2))
    (fun t => regRead 0x04 t == 0x00060106 && t.errBitpos == 172) = true := by decide
theorem test_nsel : goes (step { engine .nsel 172 p2 with nGroups := 2 })
    (fun t => t.nSel == 1 && t.selMtf == [0, 1] && t.phase == .selector && t.pos == 187) = true := by decide
/-- V42e: 18003 selectors. -/
theorem test_nsel_many : goes (exec (.nsel 18003) (engine .nsel 172 p2))
    (fun t => regRead 0x04 t == 0x00080106 && t.errBitpos == 187) = true := by decide
/-- V43m1, its third token: raw 2 on the table 0 1 2. -/
theorem test_sel : goes (exec (.sel 2) { engine .selector 0 p2 with nGroups := 3, nSel := 4, selI := 2, selMtf := [0, 1, 2], selector := [1, 0] })
    (fun t => t.selector == [1, 0, 2] && t.selMtf == [2, 0, 1] && t.selI == 3 && t.pos == 3) = true := by decide
/-- V43a: `11` with two groups. -/
theorem test_sel_run : goes (step { engine .selector 0 [0xC0] with nGroups := 2, nSel := 1, selMtf := [0, 1] })
    (fun t => regRead 0x04 t == 0x00090106 && t.errBitpos == 2) = true := by decide
theorem test_len5 : goes (step (engine .lenStart 188 p2)) (fun t => t.curLen == 2 && t.pos == 193 && t.phase == .lenDelta) = true := by
  decide
/-- V43l1: 4 is recorded. -/
theorem test_lkeep : goes (exec .lkeep { engine .lenDelta 0 p2 with curLen := 4, alpha := 3 })
    (fun t => t.lens == [[4]] && t.lenS == 1 && t.pos == 1 && t.phase == .lenDelta) = true := by decide
/-- V43b: 0 is not. -/
theorem test_lkeep_zero : goes (exec .lkeep { engine .lenDelta 0 p2 with curLen := 0, alpha := 3 })
    (fun t => regRead 0x04 t == 0x000A0106 && t.errBitpos == 1) = true := by decide
theorem test_linc : goes (step { engine .lenDelta 0 [0x80] with curLen := 20, alpha := 3 }) (fun t => t.curLen == 21 && t.pos == 2) = true := by
  decide
theorem test_ldec : goes (step { engine .lenDelta 0 [0xC0] with curLen := 0, alpha := 3 }) (fun t => t.curLen == -1 && t.pos == 2) = true := by
  decide
/-- V43c under EVERY_STEP: 21 fails before the next bit. -/
theorem test_everyStep : goes (step { engine .lenDelta 0 [0] with curLen := 21, cfg := { Params.default with lenCheck := .everyStep } })
    (fun t => regRead 0x04 t == 0x000A0106 && t.errBitpos == 0) = true := by decide
/-- V43t3, V43t2: codes 100 101 00 01 110 111, and 10 0 110 111. -/
theorem test_buildTable : (buildTable [3, 3, 2, 2, 3, 3]).code = [4, 5, 0, 1, 6, 7] ∧ (buildTable [2, 1, 3, 3]).code = [2, 0, 6, 7] := by
  decide
/-- V43t1: the lengths of P2's first group. -/
theorem test_build : goes (exec .build { engine .build 203 p2 with alpha := 6, nGroups := 2, lens := [[2, 2, 2, 3, 4,
    4]] })
    (fun t => (t.tbl.map (·.code)) == [[0, 1, 2, 6, 14, 15]] && t.lenG == 1 && t.phase == .lenStart && t.pos == 203) = true := by decide
/-- V44h2, V44r3: RUNA after RUNB, rep 2 to 4. -/
theorem test_runa : goes (step { inSymbols [0x00] with rep := 2, reppow := 2 })
    (fun t => t.rep == 4 && t.reppow == 4 && t.pos == 2 && t.gpos == 48) = true := by decide
/-- V44r1: B is 2. -/
theorem test_runb : goes (step (inSymbols [0x40])) (fun t => t.rep == 2 && t.reppow == 2 && t.pos == 2) = true :=
    by decide
/-- V44m1: symbol 4 emits `o`. -/
theorem test_mtf : goes (step (inSymbols [0xE0]))
    (fun t => t.tt == [0x6F] && t.mtf == bytesOf [0x6F, 0x65, 0x68, 0x6C] && t.pos == 4 && t.size == 1) = true :=
        by decide
/-- V44f1: a pending run of 3 after one byte, then V44m2's `h`. -/
theorem test_mtf_flush : goes (step { inSymbols [0x80] with tt := [0x78], size := 1, rep := 3, reppow := 4 })
    (fun t => t.tt == bytesOf [0x78, 0x65, 0x65, 0x65, 0x68] && t.size == 5 && t.rep == 0) = true := by decide
theorem test_eob : goes (step { inSymbols [0xF0] with size := 4, rep := 1, reppow := 2, tt := bytesOf [0x68, 0x6F, 0x65, 0x6C] })
    (fun t => t.phase == .ibwt && t.size == 5 && t.rep == 0 && t.pos == 4) = true := by decide
/-- V44c's BLOCK_FULL: a run one byte too long; nothing is stored. -/
theorem test_eob_full : goes (step { inSymbols [0xF0] with blkMax := 4, size := 4, rep := 1, reppow := 2 })
    (fun t => regRead 0x04 t == 0x00300406 && t.errBitpos == 4 && t.size == 4 && t.tt == []) = true := by decide
/-- V44b: selectors exhausted before any bit. -/
theorem test_selectors_exhausted : goes (step { inSymbols [0x00] with gpos := 0 })
    (fun t => regRead 0x04 t == 0x00210306 && t.errBitpos == 0) = true := by decide
/-- V45i1: "hoell" from 1 is "hello", ranks 0 0 0 0 1. -/
theorem test_ibwt : goes (exec .ibwt { engine .ibwt 235 p2 with origPtr := 1, size := 5, tt := bytesOf [0x68, 0x6F, 0x65, 0x6C, 0x6C] })
    (fun t => t.dst == bytesOf [0x68, 0x65, 0x6C, 0x6C, 0x6F] && t.bucketIndex == [0, 0, 0, 0, 1] && t.phase == .rle) = true := by decide
/-- V45a: an empty block. -/
theorem test_ibwt_range : goes (exec .ibwt (engine .ibwt 210 p2)) (fun t => regRead 0x04 t == 0x00220306 && t.errBitpos == 210) = true := by
  decide
/-- V46r1: "aaaa", 6 is ten `a`; its CRC is V47c2's. -/
theorem test_rle : goes (exec .rle { engine .rle 241 p2 with size := 5, dst := bytesOf [0x61, 0x61, 0x61, 0x61, 6] })
    (fun t => t.finLen == 10 && t.outMem == mem (List.replicate 10 0x61) && t.bcrc == 0x5978D18B && t.phase == .check) = true := by
  decide +kernel
/-- V46e: OUT_CAP 9. -/
theorem test_rle_cap : goes (exec .rle { engine .rle 241 p2 with size := 5, dst := bytesOf [0x61, 0x61, 0x61, 0x61, 6], outCap := 9 })
    (fun t => regRead 0x04 t == 0x00310406 && t.errBitpos == 241 && t.outLen == 0) = true := by decide
/-- V47s2: the second block's combine. -/
theorem test_check : goes (exec .check { engine .check 400 p2 with
      bcrc := 0x53E72E70, storedCrc := 0x53E72E70, streamCrc := 0xE993FDCD, outLen := 2, finLen := 2, blockCount := 1 })
    (fun t => t.streamCrc == 0x80C0D5EB && t.outLen == 4 && t.blockCount == 2 && t.phase == .magic) = true := by decide
/-- V47x1: P2x. -/
theorem test_check_mismatch : goes (exec .check { engine .check 235 p2 with bcrc := 0x1931653D, storedCrc := 0x1931653C, finLen := 5 })
    (fun t => regRead 0x04 t == 0x00400506 && regRead 0x20 t == 0x1931653D && t.outLen == 0 && t.errBitpos == 235) = true := by decide
/-- V48c, V48d: CTRL 0x3 from reset. -/
theorem test_start : goes (step { small with inLen := 14, schedule := [.host (.regWrite 0 3)] })
    (fun t => regRead 0x04 t == 1 && regRead 0x00 t == 2 && t.phase == .header && !irq t) = true := by decide
/-- V48f: CTRL 0x1 during a run clears IRQ_EN and changes nothing else. -/
theorem test_start_busy : goes (exec (.start 1) { engine .magic 32 p1 with irqEn := true, blockMax := 900000 })
    (fun t => !t.irqEn && t.phase == .magic && t.pos == 32 && t.blockMax == 900000) = true := by decide
theorem test_irqEnSet : goes (exec (.irqEnSet 2) { small with done := true }) (fun t => irq t && regRead 0x00 t == 2) = true := by decide
/-- V48d: DONE_CLR; V48h: every bit but bit 1. -/
theorem test_doneClr : goes (step { small with done := true, irqEn := true, schedule := [.host (.regWrite 4 2)] })
    (fun t => regRead 0x04 t == 0 && !irq t) = true := by decide
theorem test_doneClr_others : goes (step { small with done := true, schedule := [.host (.regWrite 4 0xFFFFFFFD)] })
    (fun t => regRead 0x04 t == 2) = true := by decide
/-- V48b; V48g, busy. -/
theorem test_inLenSet : goes (exec (.inLenSet 0xFFFFFFFF) small) (fun t => regRead 0x08 t == 4096) = true := by decide
theorem test_inLenSet_busy : goes (exec (.inLenSet 13) (engine .magic 32 p1)) (fun t => regRead 0x08 t == 14) = true := by decide
theorem test_outCapSet : goes (exec (.outCapSet 1024) small) (fun t => regRead 0x0C t == 1024) = true := by decide
theorem test_outCapSet_clamped : goes (exec (.outCapSet 4097) small) (fun t => regRead 0x0C t == 4096) = true :=
    by decide
/-- V41r1, V41r2: eight bits from bit 4 of `42 5A`. -/
theorem test_readBits : (readBits 8 (engine .magic 4 [0x42, 0x5A])).map (fun r => (r.1, r.2.pos)) = some (0x25, 12)
    ∧ peekBits 8 (engine .magic 4 [0x42, 0x5A]) = some 0x25 := by decide
/-- V41r3, V41r4: the last four bits, and five. -/
theorem test_readBits_end : readBits 5 (engine .magic 12 [0x42, 0x5A]) = none
    ∧ (readBits 4 (engine .magic 12 [0x42, 0x5A])).map (fun r => (r.1, r.2.pos)) = some (0xA, 16) := by decide
/-- V48i: a write of OUT_LEN is ignored. -/
theorem test_ignored_write : goes (step { small with schedule := [.host (.regWrite 0x10 7)] }) (fun t => regRead 0x10 t == 0) = true := by
  decide
/-- V70b: reset during a run. -/
theorem test_reset : goes (step { engine .bcrc 80 p2 with schedule := [.reset], blockMax := 100000 })
    (fun t => regRead 0x28 t == 0 && regRead 0x04 t == 0 && t.phase == .idle && t.inMem == mem p2
      && (leftBy 1023 t.outFree).isSome && (leftBy 1024 t.outFree).isNone) = true := by decide

/-! ### Witnesses: for every obligation with hypotheses, a state and operands that meet them, each clause at its bounds -/

/-- `code.getD s 0 < 2 ^ lens.getD s 0` and the rest of DecodeEncodeSymbolTokens' hypotheses, for lengths `lens`. -/
def CodeFits (lens : List Nat) (i : Instr) (sym : Nat) : Prop :=
  3 ≤ lens.length ∧ i.symbol? lens.length = some sym ∧ (∀ s, i = .mtf s → 2 ≤ s ∧ s + 2 ≤ lens.length)
    ∧ (buildTable lens).code.getD sym 0 < 2 ^ lens.getD sym 0

/-- The longest selector and the smallest group count that admits it; a delta; a 48-bit magic. -/
theorem witness_DecodeEncodeStreamTokens :
    (Instr.sel 5).wellFormed = true ∧ (Instr.sel 5).hostOffset = none ∧ (Instr.sel 5).symbol? 0 = none
    ∧ (⟨.selector, 6, .ref, default, 0⟩ : Context).phase = (Instr.sel 5).phase ∧ (∀ k, Instr.sel 5 = .sel k → k < 6)
    ∧ (Instr.linc).wellFormed = true ∧ (Instr.linc).hostOffset = none ∧ (Instr.linc).symbol? 0 = none
    ∧ (plain .lenDelta).phase = (Instr.linc).phase ∧ (∀ k, Instr.linc = .sel k → k < 0)
    ∧ (Instr.start 1).wellFormed = true ∧ (Instr.start 1).hostOffset = some 0x00
    ∧ (Instr.doneClr 0xFFFFFFFF).wellFormed = true ∧ (Instr.doneClr 0xFFFFFFFF).hostOffset = some 0x04 := by
  refine ⟨rfl, rfl, rfl, rfl, ?_, rfl, rfl, rfl, rfl, ?_, rfl, rfl, by decide, rfl⟩ <;> intro k h <;> cases h; decide

/-- The first and last MTF symbols of P2's table, its EOB, and the smallest alphabet. -/
theorem witness_DecodeEncodeSymbolTokens :
    CodeFits [2, 2, 2, 3, 4, 4] (.mtf 2) 2 ∧ CodeFits [2, 2, 2, 3, 4, 4] (.mtf 4) 4 ∧ CodeFits [2, 2, 2, 3, 4, 4] .eob 5
    ∧ CodeFits [1, 2, 2] .runa 0 ∧ CodeFits [1, 1, 1] .runb 1 := by
  refine ⟨⟨by decide, rfl, ?_, by decide⟩, ⟨by decide, rfl, ?_, by decide⟩, ⟨by decide, rfl, ?_, by decide⟩,
    ⟨by decide, rfl, ?_, by decide⟩, ⟨by decide, rfl, ?_, by decide⟩⟩ <;> intro s h <;> cases h <;> decide

/-- Each clause on P2's table: `1110` matches at the third length; `111` is then too short; V44a's `11` matches nothing;
the smallest alphabet. -/
theorem witness_HuffDecodeTriesLengthsInOrder :
    let hit (t : CodeTable) (w : List Bool) (n s : Nat) : Prop := t.lens.getD s 0 = n ∧ t.code.getD s 0 =
        natOfBits (w.take n)
    let missed (t : CodeTable) (w : List Bool) (n : Nat) : Prop := n ≤ w.length ∧ ∀ s ∈ t.perm, ¬ hit t w n s
    (symbols.table.present = [2, 3] ++ 4 :: [] ∧ (∀ m ∈ [2, 3], missed symbols.table (bits [1,1,1,0]) m)
      ∧ 4 ≤ (bits [1,1,1,0]).length ∧ symbols.table.perm = [0, 1, 2, 3] ++ 4 :: [5]
      ∧ (∀ r ∈ [0, 1, 2, 3], ¬ hit symbols.table (bits [1,1,1,0]) 4 r) ∧ hit symbols.table (bits [1,1,1,0]) 4 4)
    ∧ ((∀ m ∈ [2, 3], missed symbols.table (bits [1,1,1]) m) ∧ (bits [1,1,1]).length < 4)
    ∧ (∀ m ∈ (buildTable [2, 2, 2]).present, missed (buildTable [2, 2, 2]) (bits [1,1]) m)
    ∧ (2 : Nat) ≤ 6 - 2 := by decide

/-- The whole input in one read, one bit at the end, and one bit too many. -/
theorem witness_ReadBitsReturnsTheField :
    (engine .magic 0 (p1.take 6)).pos.toNat + 48 ≤ 8 * (engine .magic 0 (p1.take 6)).inLen.toNat
    ∧ (engine .magic 47 (p1.take 6)).pos.toNat + 1 ≤ 8 * (engine .magic 47 (p1.take 6)).inLen.toNat
    ∧ 8 * (engine .magic 1 (p1.take 6)).inLen.toNat < (engine .magic 1 (p1.take 6)).pos.toNat + 48
    ∧ (readBits 48 (engine .magic 0 (p1.take 6))).isSome = true ∧ readBits 1 (engine .magic 48 (p1.take 6)) = none :=
        by decide

/-- Each phase that needs nothing else reads its field, and is short with one bit missing. -/
theorem witness_StepReads : ∀ e ∈ [(Phase.scrc, 32), (.bcrc, 32), (.rand, 1), (.ptr, 24), (.map1, 16), (.map2, 16), (.ngrp, 3),
      (.nsel, 15), (.lenStart, 5)],
    (engine e.1 (112 - e.2) p1).phase = e.1 ∧ (engine e.1 0 p1).schedule = []
    ∧ (readBits e.2 (engine e.1 (112 - e.2) p1)).isSome = true ∧ readBits e.2 (engine e.1 (113 - e.2) p1) = none :=
        by decide

/-- A plain phase, a header of 14 bytes, a length at both ends under EVERY_STEP and outside under RECORDED, a symbol at a
group's start, a host's write, and IDLE. -/
theorem witness_StepRunsDecodedInstruction :
    decode (context (engine .magic 32 p2)) (window (engine .magic 32 p2)) = .token .block 48
    ∧ (14 ≤ (engine .header 0 p1).inLen.toNat ∧ decode (context (engine .header 0 p1)) (window (engine .header 0 p1)) = .token (.hdr 0x39) 32)
    ∧ (∀ n ∈ [(1 : Int), 20], 1 ≤ n ∧ n ≤ 20 ∧
        decode (context { engine .lenDelta 0 [0] with curLen := n, cfg := { Params.default with lenCheck :=
            .everyStep } })
          (window { engine .lenDelta 0 [0] with curLen := n, cfg := { Params.default with lenCheck := .everyStep } }) = .token .lkeep 1)
    ∧ Params.default.lenCheck ≠ .everyStep
    ∧ (({ inSymbols [0xE0] with gpos := 0, gno := 0 } : State).gno < 1 ∧
        decode (context (switched { inSymbols [0xE0] with gpos := 0, gno := 0 })) (window (switched { inSymbols [0xE0] with gpos := 0, gno := 0 }))
          = .token (.mtf 4) 4)
    ∧ (regOffset small.cfg 4 = some 4 ∧ decodeHost 4 2 = some (.doneClr 2))
    ∧ State.reset.phase = .idle ∧ State.reset.schedule = [] := by decide

/-- Both legal digits' ends, 14 and 13 bytes, a read header, the cursor at 0. -/
theorem witness_HeaderToken :
    14 ≤ (engine .header 0 p1).inLen.toNat ∧ (0x31 : BitVec 8).toNat = 0x31 ∧ (0x39 : BitVec 8).toNat = 0x39
    ∧ (engine .header 0 (p1.take 13)).inLen.toNat < 14
    ∧ (readBits 32 (engine .header 0 p1)).map (·.1) = some 0x425A6839 ∧ (engine .header 0 p1).pos = 0 := by decide

/-- A magic read and one cut short. -/
theorem witness_MagicTokens : (readBits 48 (engine .magic 32 p1)).map (·.1) = some 0x177245385090
    ∧ readBits 48 (engine .magic 65 p1) = none ∧ Alone (engine .magic 32 p1) := ⟨by decide, by decide, rfl⟩

/-- Equal and unequal checksums. -/
theorem witness_StreamChecksumToken : (0 : U32) = (engine .scrc 80 p1).streamCrc ∧ (1 : U32) ≠ (engine .scrc 80 p1).streamCrc := by
  decide

/-- The first range alone, and the last. -/
theorem witness_SparseBitmapToken :
    ((0x8000 : BitVec 16).getLsbD (15 - 0) = true ∧ ∀ i < 0, (0x8000 : BitVec 16).getLsbD (15 - i) = false)
    ∧ ((1 : BitVec 16).getLsbD (15 - 15) = true ∧ ∀ i < 15, (1 : BitVec 16).getLsbD (15 - i) = false) := by decide

/-- From the first range to the last; after the last. -/
theorem witness_DenseBitmapToken :
    ((0 : Nat) < 15 ∧ (0x8001 : BitVec 16).getLsbD (15 - 15) = true ∧ ∀ i < 15, 0 < i → (0x8001 : BitVec 16).getLsbD (15 - i) = false)
    ∧ ((15 : Nat) < 16 ∧ ∀ i < 16, 15 < i → (0x0001 : BitVec 16).getLsbD (15 - i) = false)
    ∧ ((0 : Nat) < 16 ∧ ∀ i < 16, 0 < i → (0x8000 : BitVec 16).getLsbD (15 - i) = false) := by decide

theorem witness_GroupCountToken : (2 : BitVec 3).toNat = 2 ∧ (6 : BitVec 3).toNat = 6 ∧ (1 : BitVec 3).toNat < 2 ∧ 6 < (7 : BitVec 3).toNat := by
  decide

theorem witness_SelectorCountToken :
    (1 : BitVec 15).toNat = 1 ∧ (18002 : BitVec 15).toNat = 18002 ∧ 18002 < (18003 : BitVec 15).toNat ∧ 18002 < (32767 : BitVec 15).toNat := by
  decide

/-- The first and the last position; the stream's selectors, a run of all six, a run cut at the end of the input. -/
theorem witness_SelectorToken :
    ([0, 1] : List Nat)[0]? = some 0 ∧ (List.range 6)[5]? = some 5
    ∧ (bitsAt (engine .selector 0 [0xF8]) 6 = List.replicate 5 true ++ [false] ∧
        0 + 5 + 1 ≤ 8 * (engine .selector 0 [0xF8]).inLen.toNat)
    ∧ (bitsAt (engine .selector 0 [0xFC]) 6 = List.replicate 6 true ∧
        0 + 6 ≤ 8 * (engine .selector 0 [0xFC]).inLen.toNat)
    ∧ ((engine .selector 3 [0xFF]).pos.toNat + 5 = 8 * (engine .selector 3 [0xFF]).inLen.toNat
      ∧ bitsAt (engine .selector 3 [0xFF]) 5 = List.replicate 5 true) := by decide

theorem witness_DeltaTokens : (∀ n ∈ [(1 : Int), 20], 1 ≤ n ∧ n ≤ 20) ∧ (0 : Int) < 1 ∧ (20 : Int) < 21 := by decide

/-- A run stopped in the delta tokens, in the machine's invariant: the last byte of 14 read as tokens. -/
def inDeltas (pos : Nat) (n : Int) (check : LenCheck) : State :=
  { engine .lenDelta pos [1, 1, 1, 1, 1, 1, 1, 1, 1, 1, 1, 1, 1, 1] with
    curLen := n, alpha := 3, mtf := [0], lens := [[]], cfg := { Params.default with lenCheck := check } }

theorem inv_inDeltas : ∀ pos ∈ [104, 111, 112], ∀ n check, Inv (inDeltas pos n check) := by
  intro pos hp n check
  refine ⟨⟨by show 14 ≤ 2 ^ 29 - 1; decide, by show 2 ^ 29 - 1 ≤ 2 ^ 29 - 1; decide, by show 0 % 256 = 0; decide⟩, ?_, ?_, ?_, ?_, ?_, ?_⟩
  · simp [BusyIffRunning, inDeltas, engine]
  · refine ⟨by show Memory.wf (mem _) = true; decide, rfl, ?_, ?_⟩
    · show ∀ e ∈ mem _, e.1 < 2 ^ 29 - 1
      decide
    · intro e he; cases he
  · exact ⟨by show (14 : Nat) ≤ 2 ^ 29 - 1; decide, by show (1024 : U32).toNat ≤ (0xFFFFFFFF : U32).toNat; decide⟩
  · intro _
    have h : ∀ p ∈ [104, 111, 112], (BitVec.ofNat 32 p).toNat ≤ 112 := by decide
    exact h pos hp
  · exact ⟨fun _ => Nat.zero_le _, fun h => by cases h⟩
  · exact ⟨.inl ⟨rfl, rfl, rfl⟩, fun _ => ⟨rfl, rfl⟩⟩

/-- Each clause of the delta step: a length outside under EVERY_STEP; no bit; a 0; a 1 that ends the input; a 1 and its
direction bit. -/
theorem witness_DeltaStep :
    (∀ pos ∈ [104, 111, 112], Inv (inDeltas pos 1 .everyStep)) ∧ (∀ pos ∈ [104, 111, 112],
        Inv (inDeltas pos 21 .everyStep))
    ∧ readBits 1 (inDeltas 112 1 .everyStep) = none ∧ (readBits 1 (inDeltas 104 1 .everyStep)).map (·.1) = some 0
    ∧ ((readBits 1 (inDeltas 111 1 .everyStep)).map fun r => (r.1, (readBits 1 r.2).isSome)) = some (1, false)
    ∧ ((readBits 1 (engine .lenDelta 0 [0x80])).map fun r => (r.1, (readBits 1 r.2).map (·.1))) = some (1, some 0) := by
  refine ⟨fun p h => inv_inDeltas p h _ _, fun p h => inv_inDeltas p h _ _, ?_, ?_, ?_, ?_⟩ <;> decide

theorem witness_BuildOperation : (engine .build 203 p2).phase = .build ∧ Alone (engine .build 203 p2) := ⟨rfl, rfl⟩

/-- One symbol, and two of one length. -/
theorem witness_CanonicalTable : ([1] : List Nat) ≠ [] ∧ ([2, 1, 3, 3] : List Nat) ≠ []
    ∧ ([2, 1, 3, 3] : List Nat).getD 2 0 = ([2, 1, 3, 3] : List Nat).getD 3 0 := by decide

/-- No selector left; a group that starts and one that runs; a code, a code cut short, and no code. -/
theorem witness_SymbolStep :
    (({ inSymbols [0] with gpos := 0 } : State).nSel ≤ ({ inSymbols [0] with gpos := 0 } : State).gno)
    ∧ (({ inSymbols [0] with gpos := 0, gno := 0 } : State).gno < ({ inSymbols [0] with gpos := 0, gno :=
        0 } : State).nSel)
    ∧ (inSymbols [0]).gpos ≠ 0
    ∧ decode (context (switched (inSymbols [0xE0]))) (window (switched (inSymbols [0xE0]))) = .token (.mtf 4) 4
    ∧ decode (context (switched { inSymbols [0xFF] with pos := 5 })) (window (switched { inSymbols [0xFF] with pos :=
        5 }))
        = .truncated 0
    ∧ decode (context (switched { inSymbols [0xFF] with tbl := [buildTable [2, 2, 2]], alpha := 3 }))
        (window (switched { inSymbols [0xFF] with tbl := [buildTable [2, 2, 2]], alpha := 3 })) = .illegal .noCodeMatch 0 := by
  decide

theorem witness_RunTokens : SelectorReady (inSymbols [0]) ∧ SelectorReady { inSymbols [0] with gpos := 0, gno := 0 } :=
  ⟨.inl (by decide), .inr (by decide)⟩

theorem witness_RunDigitsAccumulate : (inSymbols [0]).rep = 0 ∧ ([true, false] : List Bool) ≠ [] ∧ (1 : Nat) ≤ 1 :=
    by decide

/-- No run; a run that fills the block exactly; one byte more. -/
theorem witness_FlushRun : (inSymbols [0]).rep = 0 ∧ (99997 + 3 ≤ (inSymbols [0]).blkMax) ∧ (inSymbols [0]).blkMax < 99998 + 3 := by decide

/-- A run that does not fit; a block full after the flush; room for exactly one byte more. -/
theorem witness_MtfToken :
    flushRun (symbolRead 2 { inSymbols [0x80] with rep := 3, size := 99998 }) = none
    ∧ ((flushRun (symbolRead 2 { inSymbols [0x80] with rep := 0, size := 100000 })).map fun u => decide (u.blkMax < u.size + 1)) = some true
    ∧ ((flushRun (symbolRead 4 { inSymbols [0xE0] with rep := 0, size := 99999 })).map fun u => (decide (u.size + 1 ≤ u.blkMax), u.mtf[4 - 1]?))
        = some (true, some 0x6F) := by decide

theorem witness_EndOfBlockToken : SelectorReady (inSymbols [0xF0])
    ∧ flushRun (symbolRead 5 { inSymbols [0xF0] with rep := 3, size := 99998 }) = none
    ∧ (flushRun (symbolRead 5 (inSymbols [0xF0]))).isSome = true := ⟨.inl (by decide), by decide, by decide⟩

/-- P2's block with its pointer 1, with the last pointer and with one past it (V45b). -/
def transform (p : BitVec 24) : State := { engine .ibwt 235 p2 with origPtr := p, size := 5, tt := bytesOf [0x68, 0x6F, 0x65, 0x6C, 0x6C] }

theorem witness_BucketPass : (transform 5).size ≤ (transform 5).origPtr.toNat ∧ (transform 4).origPtr.toNat < (transform 4).size := by decide

theorem witness_Reconstruction : (transform 0).origPtr.toNat < (transform 0).size ∧ (transform 4).origPtr.toNat < (transform 4).size := by decide

/-- P3's block with room for its ten bytes exactly, and for nine. -/
theorem witness_RleOperation :
    let s : State := { engine .rle 241 p1 with size := 5, dst := bytesOf [0x61, 0x61, 0x61, 0x61, 6], outCap := 10 }
    (finalBytes (block s)).length = 10
    ∧ s.outLen.toNat + (finalBytes (block s)).length ≤ s.outCap.toNat
    ∧ ({ s with outCap := 9 } : State).outCap.toNat < s.outLen.toNat + (finalBytes (block s)).length := by decide

theorem witness_CheckOperation :
    (engine .check 0 p1).bcrc = (engine .check 0 p1).storedCrc ∧ ({ engine .check 0 p1 with bcrc :=
        1 } : State).bcrc ≠ (engine .check 0 p1).storedCrc
    ∧ (engine .check 0 p1).phase = .check ∧ Alone (engine .check 0 p1) := ⟨rfl, by decide, rfl, rfl⟩

/-- START while idle, START while busy, a CTRL write without bit 0. -/
theorem witness_ControlWrite : (3 : U32).getLsbD 0 = true ∧ small.busy = false ∧ (engine .magic 0 p1).busy = true ∧ (2 : U32).getLsbD 0 = false := by
  decide

theorem witness_DoneClear : (2 : U32).getLsbD 1 = true ∧ (0xFFFFFFFD : U32).getLsbD 1 = false := by decide

theorem witness_LengthWrites : (engine .magic 0 p1).busy = true ∧ small.busy = false ∧ small.cfg.inMemBytes < 2 ^ 32 := by decide

theorem witness_RegisterRead : ∀ off ∈ [0x00, 0x04, 0x28, 0x2C, 0xFC], off % 4 = 0 ∧ off < 256 := by decide

theorem witness_RegisterWrite : ((0x10 : Nat) ≤ 0x10 ∧ 0x10 % 4 = 0) ∧ ((0xFC : Nat) < 0x100 ∧ 0xFC % 4 = 0)
    ∧ small.cfg.regBase + 0x100 ≤ 0x100 ∧ (0x02 - small.cfg.regBase) % 4 ≠ 0 := by decide

/-- The last address of each memory and the first beyond, idle and busy. -/
theorem witness_HostMemoryWrites : small.busy = false ∧ 4095 < small.cfg.inMemBytes ∧ small.cfg.inMemBytes ≤ 4096
    ∧ 4095 < small.cfg.outMemBytes.toNat ∧ small.cfg.outMemBytes.toNat ≤ 4096 ∧ (engine .magic 0 p1).busy = true := by decide

/-- The first and the last byte between OUT_LEN and OUT_CAP of a run, its neighbours outside, what the failed run leaves, and
the last byte of OUT_MEM. -/
theorem witness_HostOutputRead :
    let s : State := { engine .magic 0 p1 with outLen := 5 }
    (∀ a ∈ [5, 1023], s.busy = true ∧ s.outLen.toNat ≤ a ∧ a < s.outCap.toNat)
      ∧ (∀ a ∈ [4, 1024], ¬ (s.outLen.toNat ≤ a ∧ a < s.outCap.toNat) ∧ leftBy a s.outFree = none)
      ∧ (fail .trunc s).busy = false ∧ leftBy 5 (fail .trunc s).outFree = some s.runIndex
      ∧ leftBy 1024 (fail .trunc s).outFree = none ∧ 4095 < s.cfg.outMemBytes.toNat := by decide

theorem witness_UnspecifiedOutputBytes :
    (engine .check 0 p1).bcrc = (engine .check 0 p1).storedCrc ∧ goes (exec .check (engine .check 0 p1)) (fun t => t.phase == .magic) = true
    ∧ goes (step { engine .magic 32 p1 with schedule := [.reset] }) (fun t => t.phase == .idle) = true := by decide

theorem witness_InterruptLine :
    goes (exec (.doneClr 2) { small with done := true, irqEn := true }) (fun _ => true) = true ∧ (1 : U32).getLsbD 1 = false
    ∧ goes (exec (.irqEnSet 0) { small with done := true, irqEn := true }) (fun _ => true) = true
    ∧ (3 : U32).getLsbD 0 = true ∧ goes (exec (.start 3) { small with done := true, irqEn := true }) (fun _ => true) = true := by decide

/-- A token that changes the stream state, a host command that changes none of it. -/
theorem witness_InputsChangeOnlyByTheirWrites :
    goes (exec (.hdr 0x31) (engine .header 0 p1)) (fun t => t.inLen == 14) = true ∧ (∀ v, Instr.hdr 0x31 ≠ .inLenSet v) := by
  refine ⟨by decide, fun v h => ?_⟩
  cases h

theorem witness_TokensWriteNoFlags :
    ¬ HostCommand .block ∧ goes (exec .block (engine .magic 32 p2)) (fun t => t.phase != .idle && t.busy) = true :=
  ⟨by simp [HostCommand, Instr.hostOffset], by decide⟩

theorem witness_OutputMemoryFrame :
    goes (exec .block (engine .magic 32 p2)) (fun _ => true) = true ∧ Instr.block ≠ .rle
    ∧ goes (exec .rle { engine .rle 241 p2 with size := 1, dst := [0x61] }) (fun t => t.outMem == [(0, 0x61)]) = true
    ∧ (engine .rle 241 p2).outLen.toNat ≤ (engine .rle 241 p2).outCap.toNat := by decide

theorem witness_ResultsChangeOnlyAtCommit :
    goes (exec .check { engine .check 235 p2 with finLen := 5 }) (fun t => t.outLen != 0) = true
    ∧ goes (exec (.start 1) { small with outLen := 5 }) (fun t => t.outLen == 0) = true := by decide

theorem witness_PhasesFollowTheTransitionTable :
    Alone (engine .magic 32 p2) ∧ (engine .magic 32 p2).phase ≠ .idle ∧ goes (step (engine .magic 32 p2)) (fun t => t.phase == .bcrc) = true :=
  ⟨rfl, by decide, by decide⟩

theorem witness_TokensAdvanceByTheirLength :
    (goes (exec .block (engine .magic 32 p2)) (fun t => t.phase != .idle) = true
      ∧ decode (context (engine .magic 32 p2)) (window (engine .magic 32 p2)) = .token .block 48)
    ∧ (goes (exec (.mtf 4) (inSymbols [0xE0])) (fun t => t.phase != .idle) = true
      ∧ decode (context (switched (inSymbols [0xE0]))) (window (switched (inSymbols [0xE0]))) = .token (.mtf 4) 4) :=
          by decide

/-- A running state meets the machine's invariant, and it steps. -/
theorem witness_StepKeepsInv : Inv (inDeltas 104 1 .recorded) ∧ goes (step (inDeltas 104 1 .recorded)) (fun t => t.phase == .lenDelta) = true :=
  ⟨inv_inDeltas 104 (by decide) _ _, by decide⟩

/-- The same state meets the block's invariant, and it steps. -/
theorem witness_StepKeepsBlockInv :
    BlockInv (inDeltas 104 1 .recorded) ∧ goes (step (inDeltas 104 1 .recorded)) (fun t => t.phase == .lenDelta) = true := by
  refine ⟨⟨fun t ht => (by cases ht), fun _ => ⟨by decide, fun k hk => (by cases hk)⟩, fun h => (by cases h),
    fun _ => ⟨by decide, by decide⟩, fun h => (by cases h), fun _ => Nat.zero_le _⟩, by decide⟩

theorem witness_EveryRunEnds : Inv (inDeltas 104 1 .recorded) ∧ BlockInv (inDeltas 104 1 .recorded) ∧
    Alone (inDeltas 104 1 .recorded)
    ∧ (inDeltas 104 1 .recorded).phase ≠ .idle :=
  ⟨witness_StepKeepsInv.1, witness_StepKeepsBlockInv.1, rfl, by decide⟩

/-- Another byte just beyond the input. -/
theorem witness_BytesBeyondInputPlayNoPart :
    Alone (engine .magic 32 p1) ∧ AgreeBelow .input (engine .magic 32 p1).inLen.toNat (mem (p1 ++ [0xFF]))
        (engine .magic 32 p1).inMem
    ∧ mem (p1 ++ [0xFF]) ≠ (engine .magic 32 p1).inMem ∧ goes (step (engine .magic 32 p1)) (fun _ => true) = true := by
  refine ⟨rfl, ?_, by decide, by decide⟩
  show ∀ a < 14, Memory.read .input (mem (p1 ++ [0xFF])) a = Memory.read .input (mem p1) a
  decide

/-- Another output memory. -/
theorem witness_OutputMemoryIsNeverRead :
    Alone (inDeltas 104 1 .recorded) ∧ [(3, 7)] ≠ (inDeltas 104 1 .recorded).outMem
    ∧ goes (step (inDeltas 104 1 .recorded)) (fun _ => true) = true := ⟨rfl, by decide, by decide⟩

/-- Two idle states with different histories and the same input; both start. -/
theorem witness_RunsDependOnlyOnTheirInputs :
    let a : State := State.reset
    let b : State := { State.reset with done := true, outLen := 0, blkMax := 900000, size := 7, tt := [1, 2, 3], streamCrc := 9 }
    Inv a ∧ Inv b ∧ Alone a ∧ Alone b ∧ a.busy = false ∧ b.busy = false ∧ (1 : U32).getLsbD 0 = true ∧ a.cfg = b.cfg ∧ a.inLen = b.inLen
    ∧ a.outCap = b.outCap ∧ AgreeBelow .input a.inLen.toNat a.inMem b.inMem ∧ goes (exec (.start 1) a) (fun _ => true) = true
    ∧ goes (exec (.start 1) b) (fun _ => true) = true := by
  have hl : Params.default.legal := ⟨by show 14 ≤ 2 ^ 29 - 1; decide, by show 2 ^ 29 - 1 ≤ 2 ^ 29 - 1; decide, by show 0 % 256 = 0; decide⟩
  refine ⟨⟨hl, ?_, ?_, ?_, ?_, ?_, ?_⟩, ⟨hl, ?_, ?_, ?_, ?_, ?_, ?_⟩, rfl, rfl, rfl, rfl, by decide, rfl, rfl, rfl, fun _ _ => rfl, by decide,
    by decide⟩
  all_goals first
    | simp [BusyIffRunning, State.reset]; done
    | exact ⟨rfl, rfl, fun e he => (by cases he), fun e he => (by cases he)⟩
    | exact ⟨Nat.zero_le _, Nat.zero_le _⟩
    | exact ⟨.inl ⟨rfl, rfl, rfl⟩, fun h => by cases h⟩
    | exact ⟨fun _ => Nat.zero_le _, fun h => by cases h⟩
    | exact fun _ => Nat.zero_le _

end Sys2Proof.Tests
end

/-! ## Stream control: the bit reader's value, and HDR (41_stream_control.md R120, R121, R123) -/

namespace Sys2Proof.Machine

open Sys2Proof.Claims

/-! ### The value ReadBits returns -/

/-- A stream bit as a number: bit `7 − (p mod 8)` of byte `p div 8` (00_scope.md R11). -/
theorem toNat_streamBit (s : State) (p : Nat) :
    (streamBit s p).toNat = (Memory.read .input s.inMem (p / 8)).toNat >>> (7 - p % 8) % 2 := by
  rw [streamBit, BitVec.getLsbD, Nat.toNat_testBit, Nat.shiftRight_eq_div_pow]

theorem getD_bitsAt (s : State) {n k : Nat} (h : k < n) :
    (bitsAt s n).getD k false = streamBit s (s.pos.toNat + k) := by
  rw [List.getD_eq_getElem?_getD, getElem?_bitsAt, if_pos h, Option.getD_some]

theorem natOfBits_bitsAt (s : State) (n : Nat) :
    natOfBits (bitsAt s n) = ((List.range n).map fun k =>
      (Memory.read .input s.inMem ((s.pos.toNat + k) / 8)).toNat >>> (7 - (s.pos.toNat + k) % 8) % 2
        * 2 ^ (n - 1 - k)).sum := by
  rw [natOfBits_eq_sum, length_bitsAt]
  congr 1
  refine List.map_congr_left fun k hk => ?_
  rw [getD_bitsAt s (List.mem_range.1 hk), toNat_streamBit]

theorem natOfBits_bitsAt_lt (s : State) (n : Nat) : natOfBits (bitsAt s n) < 2 ^ n :=
  (natOfBits_lt _).trans_eq (by rw [length_bitsAt])

/-- PeekBits is ReadBits with the cursor's move forgotten (41_stream_control.md R121). -/
theorem peekBits_eq_map_fst_readBits (n : Nat) (s : State) : peekBits n s = (readBits n s).map Prod.fst := by
  rw [readBits, Option.map_map]
  exact (Option.map_id' ..).symm

/-! ### HDR -/

theorem digitLegal_iff {d : BitVec 8} : digitLegal d = true ↔ 0x31 ≤ d.toNat ∧ d.toNat ≤ 0x39 := decide_eq_true_iff

/-- HDR with the input long enough: the digit decides. -/
theorem exec_hdr (d : BitVec 8) {s : State} (hl : 14 ≤ s.inLen.toNat) :
    exec (.hdr d) s = .next
      (if d.toNat < 0x31 ∨ 0x39 < d.toNat then fail .hdrDigit (advance 32 s)
       else { advance 32 s with
         blkMax := 100000 * (d.toNat - 0x30)
         blockMax := BitVec.ofNat 32 (100000 * (d.toNat - 0x30))
         phase := .magic }) := by
  rw [show exec (.hdr d) s = execHdr d s from rfl, execHdr, if_neg (Nat.not_lt.2 hl)]
  by_cases hd : 0x31 ≤ d.toNat ∧ d.toNat ≤ 0x39
  · rw [if_pos (digitLegal_iff.2 hd), if_neg (by omega)]; rfl
  · rw [if_neg (mt digitLegal_iff.1 hd), if_pos (by omega)]

theorem decodeHdr_of_magic {h : Nat} (hm : h / 256 = 0x425A68) :
    decodeHdr h = .token (.hdr (BitVec.ofNat 8 h)) 32 := if_pos ((Nat.shiftRight_eq_div_pow h 8).trans hm)

theorem decodeHdr_of_ne_magic {h : Nat} (hm : h / 256 ≠ 0x425A68) : decodeHdr h = .illegal .hdrMagic 32 :=
  if_neg fun e => hm ((Nat.shiftRight_eq_div_pow h 8).symm.trans e)

/-- In HEADER the decoder is given the 32 bits ReadBits reads. -/
theorem decode_header {s t : State} {h : Nat} (hp : s.phase = .header) (hr : readBits 32 s = some (h, t)) :
    decode (context s) (window s) = decodeHdr h := by
  rw [decode, show (context s).phase = .header from hp]
  exact decodeField_window_some (by decide) hr _

theorem step_header_short {s : State} (hp : s.phase = .header) (ha : Alone s) (hl : s.inLen.toNat < 14) :
    step s = .next (fail .hdrShort s) := by
  rw [step_alone ha, engineTurn_ended (fetch_header_short hp hl)]

/-- The magic is checked on the bits read, before the digit (decision D34). -/
theorem step_header_of_ne_magic {s t : State} {h : Nat} (hp : s.phase = .header) (ha : Alone s)
    (hl : 14 ≤ s.inLen.toNat) (hr : readBits 32 s = some (h, t)) (hm : h / 256 ≠ 0x425A68) :
    step s = .next (fail .hdrMagic t) := by
  have hd := (decode_header hp hr).trans (decodeHdr_of_ne_magic hm)
  obtain ⟨-, -, rfl⟩ := readBits_some hr
  rw [step_alone ha, engineTurn_ended ((fetch_header hp hl).trans (decodeAt_illegal hd))]

theorem step_header_of_magic {s t : State} {h : Nat} (hp : s.phase = .header) (ha : Alone s)
    (hl : 14 ≤ s.inLen.toNat) (hr : readBits 32 s = some (h, t)) (hm : h / 256 = 0x425A68) :
    step s = exec (.hdr (BitVec.ofNat 8 h)) s := by
  have hd := (decode_header hp hr).trans (decodeHdr_of_magic hm)
  rw [step_alone ha, engineTurn_token ((fetch_header hp hl).trans (decodeAt_token hd))]

/-! ### The statements -/

/-- Settles O5: the field is its bits' weighted sum, and PeekBits is ReadBits without the move. -/
theorem readBitsReturnsTheField : Obligations.ReadBitsReturnsTheField := by
  intro n s _ _
  refine ⟨fun h => ⟨_, readBits_of_le h, natOfBits_bitsAt_lt s n, natOfBits_bitsAt s n⟩, readBits_of_lt, ?_, ?_⟩
  · intro v t h
    rw [peekBits_eq_map_fst_readBits, h, Option.map_some]
  · intro h
    rw [peekBits_eq_map_fst_readBits, h, Option.map_none]

/-- Settles O7: the fetch checks the length, the decoder the magic, and `exec` the digit. -/
theorem headerToken : Obligations.HeaderToken := by
  refine ⟨fun d s hl h1 h9 => ?_, fun s => step_header_short, fun s t h hp ha hl hr => ?_, fun s h0 hl hn => ?_⟩
  · rw [exec_hdr d hl, if_neg (by omega)]; rfl
  · by_cases hm : h / 256 = 0x425A68
    · have ht : t = advance 32 s := (readBits_some hr).2.2
      rw [step_header_of_magic hp ha hl hr hm, exec_hdr _ hl, BitVec.toNat_ofNat, if_neg (not_not.2 hm), ht]
    · rw [step_header_of_ne_magic hp ha hl hr hm, if_pos hm]
  · have hshort := readBits_none hn
    have hpos : s.pos.toNat = 0 := by rw [h0]; rfl
    omega

end Sys2Proof.Machine

/-! ## The block header: BCRC, RAND, PTR, MAP1, MAP2, NGRP, NSEL (42_block_header.md R140..R147) -/

namespace Sys2Proof.Machine

open Sys2Proof.Claims

/-! ### A step that reads one fixed field -/

/-- A phase that makes no check before its bits and whose format is one field of `n` bits. -/
theorem stepReads_of_decodeField {p : Phase} {n : Nat} {mk : Nat → Instr}
    (hp : p ∉ [Phase.header, .lenDelta, .symbol]) (hn : 1 ≤ n ∧ n ≤ 48)
    (hd : ∀ (c : Context) (bits : List Bool),
      decode { c with phase := p } bits = decodeField n bits fun v => .token (mk v) n) :
    StepReads p n mk := by
  rintro s rfl ha
  simp only [List.mem_cons, List.not_mem_nil, or_false, not_or] at hp
  obtain ⟨hheader, hdelta, hsymbol⟩ := hp
  have hf : fetch s = decodeAt s := fetch_plain hheader hdelta hsymbol
  have hw : decode (context s) (window s) = decodeField n (window s) fun v => .token (mk v) n := hd (context s) _
  rw [step_alone ha]
  constructor
  · intro v t hr
    exact engineTurn_token (hf.trans (decodeAt_token (hw.trans (decodeField_window_some hn.2 hr _))))
  · intro hr
    rw [engineTurn_ended (hf.trans (decodeAt_truncated (hw.trans (decodeField_window_none hr hn.1 _)))), advance_zero]

/-! ### The bitmaps -/

/-- The model's completion of the bitmap is the one the statements name. -/
theorem bitmapDone_eq_bitmapEnd (s : State) : bitmapDone s = bitmapEnd s := by
  by_cases h : s.seq = []
  · rw [bitmapDone_empty h, bitmapEnd, if_pos h]
  · rw [bitmapDone_used h, bitmapEnd, if_neg h]

/-- `NextRange()` stops at the first used range at or after `mapI`. -/
theorem nextRange_used {s : State} {j : Nat} (hi : s.mapI ≤ j) (hj : j < 16)
    (hu : s.map1.getLsbD (15 - j) = true) (hc : ∀ i, s.mapI ≤ i → i < j → s.map1.getLsbD (15 - i) = false) :
    nextRange s = { s with mapI := j, phase := .map2 } := by
  have hnext : nextUsedRange s.map1 16 s.mapI = j := nextUsedRange_eq s.map1 (.inr ⟨hj, hu⟩) 16 s.mapI hi (by omega) hc
  simp only [nextRange, hnext]
  rw [if_neg (by omega)]

/-- `NextRange()` completes the bitmap where no range at or after `mapI` is used. -/
theorem nextRange_none {s : State} (hi : s.mapI ≤ 16)
    (hc : ∀ i, s.mapI ≤ i → i < 16 → s.map1.getLsbD (15 - i) = false) :
    nextRange s = bitmapEnd { s with mapI := 16 } := by
  have hnext : nextUsedRange s.map1 16 s.mapI = 16 := nextUsedRange_eq s.map1 (.inl rfl) 16 s.mapI hi (by omega) hc
  simp only [nextRange, hnext, if_true, bitmapDone_eq_bitmapEnd]

theorem exec_map1 (m : BitVec 16) (s : State) :
    exec (.map1 m) s = .next (nextRange { advance 16 s with map1 := m, mapI := 0 }) := rfl

theorem exec_map2 (m : BitVec 16) (s : State) :
    exec (.map2 m) s =
      .next (nextRange { advance 16 s with seq := s.seq ++ rangeBytes m s.mapI, mapI := s.mapI + 1 }) := rfl

/-! ### The counts -/

/-- NGRP: the group count's bounds decide. -/
theorem exec_ngrp (g : BitVec 3) (s : State) :
    exec (.ngrp g) s = .next
      (if g.toNat < 2 ∨ 6 < g.toNat then fail .badNgroups { advance 3 s with nGroups := g.toNat }
       else { advance 3 s with nGroups := g.toNat, phase := .nsel }) :=
  (apply_ite Host.Outcome.next ..).symm

/-- NSEL: zero is tested first, then the upper bound. -/
theorem exec_nsel (n : BitVec 15) (s : State) :
    exec (.nsel n) s = .next
      (if n.toNat = 0 then fail .badNselectors { advance 15 s with nSel := n.toNat }
       else if 18002 < n.toNat then fail .tooManySelectors { advance 15 s with nSel := n.toNat }
       else { advance 15 s with
         nSel := n.toNat, selMtf := List.range s.nGroups, selI := 0, phase := .selector }) := by
  rw [apply_ite Host.Outcome.next, apply_ite Host.Outcome.next]
  rfl

/-! ### The statements -/

/-- Settles O14: `NextRange()` from the range after `mapI`, once the range's bytes are appended. -/
theorem denseBitmapToken : Obligations.DenseBitmapToken := by
  refine ⟨fun m s => ⟨fun j hij hj hu hc => ?_, fun hi hc => ?_⟩,
    stepReads_of_decodeField (by decide) (by decide) fun _ _ => rfl⟩
  · rw [exec_map2]
    exact congrArg Host.Outcome.next (nextRange_used hij hj hu hc)
  · rw [exec_map2]
    exact congrArg Host.Outcome.next (nextRange_none hi hc)

/-- Settles O10: BCRC has one unconditional effect, and its phase reads one 32-bit field. -/
theorem blockChecksumToken : Obligations.BlockChecksumToken :=
  ⟨fun _ _ => rfl, stepReads_of_decodeField (by decide) (by decide) fun _ _ => rfl⟩

/-- Settles O11: the flag has two values, each with its own effect. -/
theorem randomisedFlagToken : Obligations.RandomisedFlagToken :=
  ⟨fun _ => rfl, fun _ => rfl, stepReads_of_decodeField (by decide) (by decide) fun _ _ => rfl⟩

/-- Settles O12: PTR has one unconditional effect, and its phase reads one 24-bit field. -/
theorem pointerToken : Obligations.PointerToken :=
  ⟨fun _ _ => rfl, stepReads_of_decodeField (by decide) (by decide) fun _ _ => rfl⟩

/-- Settles O13: `NextRange()` from range 0. -/
theorem sparseBitmapToken : Obligations.SparseBitmapToken := by
  refine ⟨fun m s j hj hu hc => ?_, fun s => ?_, stepReads_of_decodeField (by decide) (by decide) fun _ _ => rfl⟩
  · rw [exec_map1]
    exact congrArg Host.Outcome.next (nextRange_used (Nat.zero_le j) hj hu fun i _ => hc i)
  · rw [exec_map1]
    exact congrArg Host.Outcome.next (nextRange_none (Nat.zero_le 16) fun _ _ _ => BitVec.getLsbD_zero)

/-- Settles O15: the bounds on each side of the test. -/
theorem groupCountToken : Obligations.GroupCountToken := by
  refine ⟨fun g s h2 h6 => ?_, fun g s h => ?_, stepReads_of_decodeField (by decide) (by decide) fun _ _ => rfl⟩
  · rw [exec_ngrp, if_neg (by omega)]; rfl
  · rw [exec_ngrp, if_pos h]; rfl

/-- Settles O16: one clause for each of the three outcomes of the tests. -/
theorem selectorCountToken : Obligations.SelectorCountToken := by
  refine ⟨fun n s h1 h => ?_, fun s => ?_, fun n s h => ?_,
    stepReads_of_decodeField (by decide) (by decide) fun _ _ => rfl⟩
  · rw [exec_nsel, if_neg (by omega), if_neg (by omega)]; rfl
  · rw [exec_nsel, if_pos (show (0 : BitVec 15).toNat = 0 from rfl)]; rfl
  · rw [exec_nsel, if_neg (by omega), if_pos h]; rfl

end Sys2Proof.Machine

/-! ## Selectors and code lengths: SEL, LEN5, LKEEP, LINC, LDEC (43_selectors_and_tables.md R160..R168) -/

namespace Sys2Proof.Machine

open Sys2Proof.Claims

/-! ### The front of the window -/

/-- Bits that are left stand at the front of the window. -/
theorem window_eq_bitsAt_append {s : State} {n : Nat} (h48 : n ≤ 48) (hn : n ≤ bitsLeft s) :
    window s = bitsAt s n ++ (window s).drop n := by
  rw [← take_window h48 hn, List.take_append_drop]

/-- The last bits of the input are the whole window. -/
theorem window_eq_bitsAt {s : State} {n : Nat} (h48 : n ≤ 48) (hn : bitsLeft s = n) : window s = bitsAt s n := by
  rw [window, hn, min_eq_right h48]

theorem bitsAt_one (s : State) : bitsAt s 1 = [streamBit s s.pos.toNat] := rfl

theorem bitsAt_two (s : State) : bitsAt s 2 = [streamBit s s.pos.toNat, streamBit s (s.pos.toNat + 1)] := rfl

/-- A one-bit read's value is the stream bit. -/
theorem readBits_one_some {s t : State} {v : Nat} (h : readBits 1 s = some (v, t)) :
    s.pos.toNat + 1 ≤ 8 * s.inLen.toNat ∧ v = (streamBit s s.pos.toNat).toNat ∧ t = advance 1 s := by
  obtain ⟨hle, hv, ht⟩ := readBits_some h
  refine ⟨hle, hv.trans ?_, ht⟩
  rw [bitsAt_one, natOfBits_cons, List.length_nil, pow_zero, Nat.one_mul]
  rfl

/-! ### A step whose fetch is the decoder's answer -/

theorem step_of_decode_token {s : State} {i : Instr} {n : Nat} (ha : Alone s) (hf : fetch s = decodeAt s)
    (hd : decode (context s) (window s) = .token i n) : step s = exec i s := by
  rw [step_alone ha, engineTurn_token (hf.trans (decodeAt_token hd))]

theorem step_of_decode_truncated {s : State} {n : Nat} (ha : Alone s) (hf : fetch s = decodeAt s)
    (hd : decode (context s) (window s) = .truncated n) : step s = .next (fail .trunc (advance n s)) := by
  rw [step_alone ha, engineTurn_ended (hf.trans (decodeAt_truncated hd))]

theorem step_of_decode_illegal {s : State} {c : Cause} {n : Nat} (ha : Alone s) (hf : fetch s = decodeAt s)
    (hd : decode (context s) (window s) = .illegal c n) : step s = .next (fail c (advance n s)) := by
  rw [step_alone ha, engineTurn_ended (hf.trans (decodeAt_illegal hd))]

/-! ### SEL -/

/-- SEL inside the group count: the group at position `k` is recorded and moves to the front. -/
theorem exec_sel {k g : Nat} {s : State} (hk : k < s.nGroups) (hg : s.selMtf[k]? = some g) :
    exec (.sel k) s = .next { s with
      pos := s.pos + BitVec.ofNat 32 (k + 1)
      selMtf := g :: s.selMtf.eraseIdx k
      selector := putAll s.selector s.selI [g] 0
      selI := s.selI + 1
      lenG := if s.selI + 1 = s.nSel then 0 else s.lenG
      phase := if s.selI + 1 = s.nSel then .lenStart else s.phase } := by
  rw [show exec (.sel k) s = execSel k s from rfl, execSel, if_neg (by omega)]
  simp only [advance_selMtf, mtfTake_of_getElem? hg]
  by_cases hlast : s.selI + 1 = s.nSel
  · simp only [if_pos hlast]
    exact if_pos hlast
  · simp only [if_neg hlast]
    exact if_neg hlast

theorem fetch_selector {s : State} (hp : s.phase = .selector) : fetch s = decodeAt s :=
  fetch_plain (by simp [hp]) (by simp [hp]) (by simp [hp])

theorem decode_selector {s : State} (hp : s.phase = .selector) :
    decode (context s) (window s) = decodeUnary s.nGroups 0 (window s) := by
  rw [decode, show (context s).phase = .selector from hp]
  rfl

/-- `k` ones and a zero at the cursor are SEL's token. -/
theorem decode_selector_token {s : State} {k : Nat} (hp : s.phase = .selector) (hk : k < s.nGroups) (h48 : k + 1 ≤ 48)
    (hn : k + 1 ≤ bitsLeft s) (hb : bitsAt s (k + 1) = List.replicate k true ++ [false]) :
    decode (context s) (window s) = .token (.sel k) (k + 1) := by
  rw [decode_selector hp, window_eq_bitsAt_append h48 hn, hb, List.append_assoc, List.singleton_append,
    decodeUnary_ones_zero _ _ k 0 (by omega), Nat.zero_add]

/-- As many ones as groups are illegal at the last of them. -/
theorem decode_selector_run {s : State} (hp : s.phase = .selector) (hg : 1 ≤ s.nGroups) (h48 : s.nGroups ≤ 48)
    (hn : s.nGroups ≤ bitsLeft s) (hb : bitsAt s s.nGroups = List.replicate s.nGroups true) :
    decode (context s) (window s) = .illegal .selectorRun s.nGroups := by
  rw [decode_selector hp, window_eq_bitsAt_append h48 hn, hb, decodeUnary_too_many _ _ _ 0 hg (Nat.zero_add _)]

/-- Fewer ones up to the end of the input are a token cut short there. -/
theorem decode_selector_cut {s : State} {k : Nat} (hp : s.phase = .selector) (hk : k < s.nGroups) (h48 : k ≤ 48)
    (hn : bitsLeft s = k) (hb : bitsAt s k = List.replicate k true) :
    decode (context s) (window s) = .truncated k := by
  rw [decode_selector hp, window_eq_bitsAt h48 hn, hb, decodeUnary_all_ones _ k 0 (by omega), Nat.zero_add]

/-! ### LKEEP -/

/-- LKEEP of a legal length: the entry is written at (`lenG`, `lenS`). -/
theorem exec_lkeep_legal {s : State} (hl : 1 ≤ s.curLen ∧ s.curLen ≤ 20) :
    exec .lkeep s = .next { s with
      pos := s.pos + 1
      lens := putAll s.lens s.lenG [putAll (s.lens.getD s.lenG []) s.lenS [s.curLen.toNat] 0] []
      lenS := s.lenS + 1
      phase := if s.lenS + 1 = s.alpha then .build else s.phase } := by
  refine (if_pos (codeLenLegal_iff.2 hl)).trans ?_
  by_cases hlast : s.lenS + 1 = s.alpha
  · rw [if_pos hlast]
    exact if_pos hlast
  · rw [if_neg hlast]
    exact if_neg hlast

theorem exec_lkeep_illegal {s : State} (hl : s.curLen < 1 ∨ 20 < s.curLen) :
    exec .lkeep s = .next (fail .badCodeLen { s with pos := s.pos + 1 }) :=
  if_neg (Bool.eq_false_iff.1 (codeLenLegal_false.2 hl))

/-- One entry of a memory of rows written. -/
theorem getD_getD_put (rows : List (List Nat)) (i j v g k : Nat) :
    ((putAll rows i [putAll (rows.getD i []) j [v] 0] []).getD g []).getD k 0 =
      if g = i ∧ k = j then v else (rows.getD g []).getD k 0 := by
  rw [getD_put]
  by_cases hg : g = i
  · subst hg
    simp only [if_true, getD_put, true_and]
  · rw [if_neg hg, if_neg fun h => hg h.1]

/-! ### The delta tokens -/

theorem decode_lenDelta {s : State} (hp : s.phase = .lenDelta) :
    decode (context s) (window s) = decodeDelta s.cfg.deltaSense (window s) := by
  rw [decode, show (context s).phase = .lenDelta from hp]
  rfl

theorem decode_lenDelta_none {s : State} (hp : s.phase = .lenDelta) (hr : readBits 1 s = none) :
    decode (context s) (window s) = .truncated 0 := by
  have hn := readBits_none hr
  rw [decode_lenDelta hp, window_eq_bitsAt (n := 0) (by omega) (by rw [bitsLeft]; omega)]
  rfl

theorem decode_lenDelta_zero {s t : State} (hp : s.phase = .lenDelta) (hr : readBits 1 s = some (0, t)) :
    decode (context s) (window s) = .token .lkeep 1 := by
  obtain ⟨hle, hbit, -⟩ := readBits_one_some hr
  have hbit : streamBit s s.pos.toNat = false := Bool.toNat_eq_zero.1 hbit.symm
  rw [decode_lenDelta hp, window_eq_bitsAt_append (n := 1) (by omega) (by rw [bitsLeft]; omega), bitsAt_one, hbit]
  rfl

/-- After a one-bit, the direction bit's value and P_DELTA_SENSE give the token. -/
theorem decodeDelta_direction (sense : DeltaSense) (x : Bool) (rest : List Bool) :
    decodeDelta sense (true :: x :: rest) =
      .token (if x.toNat = (if sense = .ref then 0 else 1) then .linc else .ldec) 2 := by
  cases sense <;> cases x <;> rfl

/-- A one-bit read leads to the next bit: the input is too short for the cursor to wrap (00_scope.md R7). -/
theorem toNat_pos_of_readBits_one {s t : State} {v : Nat} (hI : Inv s) (hr : readBits 1 s = some (v, t)) :
    t.pos.toNat = s.pos.toNat + 1 := by
  obtain ⟨hle, -, rfl⟩ := readBits_one_some hr
  have hin : s.inLen.toNat ≤ 2 ^ 29 - 1 := hI.lengths.1.trans hI.params.2.1
  rw [advance_pos, BitVec.toNat_add, BitVec.toNat_ofNat]
  omega

section
variable {s t : State} (hI : Inv s) (hp : s.phase = .lenDelta) (hr : readBits 1 s = some (1, t))
include hI hp hr

theorem decode_lenDelta_cut (hr' : readBits 1 t = none) : decode (context s) (window s) = .truncated 1 := by
  have hpos := toNat_pos_of_readBits_one hI hr
  obtain ⟨hle, hbit, rfl⟩ := readBits_one_some hr
  have hbit : streamBit s s.pos.toNat = true := Bool.toNat_eq_one.1 hbit.symm
  have hn := readBits_none hr'
  rw [hpos, advance_inLen] at hn
  rw [decode_lenDelta hp, window_eq_bitsAt (n := 1) (by omega) (by rw [bitsLeft]; omega), bitsAt_one, hbit]
  rfl

theorem decode_lenDelta_move {x : Nat} {u : State} (hr' : readBits 1 t = some (x, u)) :
    decode (context s) (window s) =
      .token (if x = (if s.cfg.deltaSense = .ref then 0 else 1) then .linc else .ldec) 2 := by
  have hpos := toNat_pos_of_readBits_one hI hr
  obtain ⟨-, hbit, rfl⟩ := readBits_one_some hr
  obtain ⟨hle, rfl, -⟩ := readBits_one_some hr'
  have hbit : streamBit s s.pos.toNat = true := Bool.toNat_eq_one.1 hbit.symm
  have hdir : streamBit (advance 1 s) (s.pos.toNat + 1) = streamBit s (s.pos.toNat + 1) := rfl
  rw [hpos, advance_inLen] at hle
  rw [decode_lenDelta hp, window_eq_bitsAt_append (n := 2) (by omega) (by rw [bitsLeft]; omega), bitsAt_two, hbit,
    hpos, hdir]
  exact decodeDelta_direction _ _ _

end

/-! ### The statements -/

/-- Settles O17: `exec` takes and stores the group; the decoder's three answers on a unary selector give the step. -/
theorem selectorToken : Obligations.SelectorToken := by
  refine ⟨fun k g s hk hg => ⟨_, getD_put s.selector s.selI g 0, exec_sel hk hg⟩, fun k s hp ha h6 => ⟨?_, ?_, ?_⟩⟩
  · intro hk hn hb
    exact step_of_decode_token ha (fetch_selector hp)
      (decode_selector_token hp hk (by omega) (by rw [bitsLeft]; omega) hb)
  · intro hg hn hb
    exact step_of_decode_illegal ha (fetch_selector hp)
      (decode_selector_run hp hg (by omega) (by rw [bitsLeft]; omega) hb)
  · intro hk hn hb
    exact step_of_decode_truncated ha (fetch_selector hp)
      (decode_selector_cut hp hk (by omega) (by rw [bitsLeft]; omega) hb)

/-- Settles O20: the fetch makes the EVERY_STEP check; each read's outcome picks one answer of the decoder. -/
theorem deltaStep : Obligations.DeltaStep := by
  intro s hI hp ha
  refine ⟨fun he hl => ?_, fun hl => ?_⟩
  · rw [step_alone ha, engineTurn_ended (fetch_lenDelta_bad hp he hl)]
  · have hf : fetch s = decodeAt s := fetch_lenDelta hp fun he => hl.resolve_left (by rw [he]; decide)
    refine ⟨fun hr => ?_, fun t hr => ?_, fun t hr => ⟨fun hr' => ?_, fun x u hr' => ?_⟩⟩
    · rw [step_of_decode_truncated ha hf (decode_lenDelta_none hp hr), advance_zero]
    · exact step_of_decode_token ha hf (decode_lenDelta_zero hp hr)
    · have ht : t = advance 1 s := (readBits_some hr).2.2
      rw [step_of_decode_truncated ha hf (decode_lenDelta_cut hI hp hr hr'), ht]
    · exact step_of_decode_token ha hf (decode_lenDelta_move hI hp hr hr')

/-- Settles O18: LEN5 has one unconditional effect, and its phase reads one 5-bit field. -/
theorem startLengthToken : Obligations.StartLengthToken :=
  ⟨fun _ _ => rfl, stepReads_of_decodeField (by decide) (by decide) fun _ _ => rfl⟩

/-- Settles O19: LKEEP on each side of its range check; LINC and LDEC have one unconditional effect. -/
theorem deltaTokens : Obligations.DeltaTokens :=
  ⟨fun s h1 h20 => ⟨_, getD_getD_put s.lens s.lenG s.lenS s.curLen.toNat, exec_lkeep_legal ⟨h1, h20⟩⟩,
    fun _ => exec_lkeep_illegal, fun _ => rfl, fun _ => rfl⟩

end Sys2Proof.Machine

/-! ## The symbol stream: the code match, RUNA, RUNB, MTF, EOB (44_symbol_decode.md R181..R186) -/

namespace Sys2Proof.Machine

open Sys2Proof.Claims

/-! ### The canonical-code match -/

/-- Symbol `s` has a code of `n` bits, and it is the first `n` bits of `w` (44_symbol_decode.md R181). -/
def Hit (t : CodeTable) (w : List Bool) (n s : Nat) : Prop :=
  t.lens.getD s 0 = n ∧ t.code.getD s 0 = natOfBits (w.take n)

/-- Length `n` fits in `w`, and no symbol of the table matches at it. -/
def Missed (t : CodeTable) (w : List Bool) (n : Nat) : Prop := n ≤ w.length ∧ ∀ s ∈ t.perm, ¬ Hit t w n s

/-- The test `matchCode` makes of a symbol. -/
theorem hit_iff {t : CodeTable} {w : List Bool} {n s : Nat} :
    (t.lens.getD s 0 == n && t.code.getD s 0 == natOfBits (w.take n)) = true ↔ Hit t w n s := by
  rw [Bool.and_eq_true, beq_iff_eq, beq_iff_eq, Hit]

theorem matchCode_of_first_hit {t : CodeTable} {w : List Bool} {n s : Nat} {p q : List Nat}
    (hperm : t.perm = p ++ s :: q) (hp : ∀ r ∈ p, ¬ Hit t w n r) (hs : Hit t w n s) :
    matchCode t n (natOfBits (w.take n)) = some s := by
  refine List.find?_eq_some_iff_append.2 ⟨hit_iff.2 hs, p, q, hperm, fun r hr => ?_⟩
  rw [Bool.not_eq_true', ← Bool.not_eq_true, hit_iff]
  exact hp r hr

theorem matchCode_of_missed {t : CodeTable} {w : List Bool} {n : Nat} (h : Missed t w n) :
    matchCode t n (natOfBits (w.take n)) = none :=
  List.find?_eq_none.2 fun s hs => mt hit_iff.1 (h.2 s hs)

/-- A candidate length with a match is the answer's. -/
theorem decodeHuff_cons_match {alpha n s : Nat} {t : CodeTable} {w : List Bool} (ls : List Nat) (hn : n ≤ w.length)
    (hm : matchCode t n (natOfBits (w.take n)) = some s) :
    decodeHuff alpha t w (n :: ls) = .token (symbolToken alpha s) n := by
  rw [decodeHuff, if_neg (Nat.not_lt.2 hn), hm]

/-- A candidate length that does not fit ends the match. -/
theorem decodeHuff_cons_short {alpha n : Nat} {t : CodeTable} {w : List Bool} (ls : List Nat) (hn : w.length < n) :
    decodeHuff alpha t w (n :: ls) = .truncated 0 := by
  rw [decodeHuff, if_pos hn]

/-- A missed length leaves the match to the lengths after it. -/
theorem decodeHuff_cons_missed {alpha n : Nat} {t : CodeTable} {w : List Bool} (ls : List Nat) (h : Missed t w n) :
    decodeHuff alpha t w (n :: ls) = decodeHuff alpha t w ls := by
  rw [decodeHuff, if_neg (Nat.not_lt.2 h.1), matchCode_of_missed h]

/-- So does a whole prefix of missed lengths. -/
theorem decodeHuff_append_missed {alpha : Nat} {t : CodeTable} {w : List Bool} (ls : List Nat) :
    ∀ pre : List Nat, (∀ m ∈ pre, Missed t w m) → decodeHuff alpha t w (pre ++ ls) = decodeHuff alpha t w ls
  | [], _ => rfl
  | m :: pre, h => by
    rw [List.cons_append, decodeHuff_cons_missed _ (h m List.mem_cons_self)]
    exact decodeHuff_append_missed ls pre fun k hk => h k (List.mem_cons_of_mem m hk)

theorem decodeHuff_all_missed {alpha : Nat} {t : CodeTable} {w : List Bool} {ls : List Nat}
    (h : ∀ m ∈ ls, Missed t w m) : decodeHuff alpha t w ls = .illegal .noCodeMatch 0 := by
  rw [← List.append_nil ls, decodeHuff_append_missed [] ls h, decodeHuff]

theorem decode_symbol {c : Context} (hp : c.phase = .symbol) (w : List Bool) :
    decode c w = decodeHuff c.alpha c.table w c.table.present := by
  rw [decode, hp]

/-- The classes in an alphabet of at least the three special symbols (30_encoding.md R95). -/
theorem symbolToken_classes {alpha : Nat} (h3 : 3 ≤ alpha) :
    symbolToken alpha 0 = .runa ∧ symbolToken alpha 1 = .runb ∧ symbolToken alpha (alpha - 1) = .eob
      ∧ ∀ s, 2 ≤ s → s ≤ alpha - 2 → symbolToken alpha s = .mtf s := by
  refine ⟨rfl, rfl, ?_, fun s h2 hs => ?_⟩
  · rw [symbolToken, if_neg (by omega), if_neg (by omega), if_pos rfl]
  · rw [symbolToken, if_neg (by omega), if_neg (by omega), if_neg (by omega)]

/-! ### A symbol's step with a selector ready -/

/-- The model's group switch is the one the statements name. -/
theorem groupSwitch_ready {s : State} (h : SelectorReady s) : groupSwitch s = some (switched s) := by
  by_cases h0 : s.gpos = 0
  · rw [groupSwitch_due h0 (h.resolve_left (not_not.2 h0)), switched, if_pos h0]
  · rw [groupSwitch_running h0, switched, if_neg h0]

/-- The group switch writes `active`, `gno`, `gpos` only. -/
theorem switched_eq {s : State} (h : SelectorReady s) :
    switched s = { s with active := (switched s).active, gno := (switched s).gno, gpos := (switched s).gpos } :=
  groupSwitch_eq (groupSwitch_ready h)

theorem switched_pos {s : State} (h : SelectorReady s) : (switched s).pos = s.pos := by rw [switched_eq h]

theorem switched_rep {s : State} (h : SelectorReady s) : (switched s).rep = s.rep := by rw [switched_eq h]

theorem switched_reppow {s : State} (h : SelectorReady s) : (switched s).reppow = s.reppow := by rw [switched_eq h]

theorem symbolRead_rep {s : State} (h : SelectorReady s) (sym : Nat) : (symbolRead sym s).rep = s.rep :=
  switched_rep h

theorem symbolRead_reppow {s : State} (h : SelectorReady s) (sym : Nat) : (symbolRead sym s).reppow = s.reppow :=
  switched_reppow h

/-- With a selector ready the class rule acts on the state with the symbol's code consumed. -/
theorem symbolStep_ready {s : State} (h : SelectorReady s) (sym : Nat) (act : State → State) :
    symbolStep sym act s = act (symbolRead sym s) := by
  rw [symbolStep_some (groupSwitch_ready h), symbolRead, ← switched_pos h]
  rfl

/-! ### The class rules -/

theorem exec_runa {s : State} (h : SelectorReady s) : exec .runa s = .next (runDigit 1 (symbolRead 0 s)) :=
  congrArg Host.Outcome.next (symbolStep_ready h 0 _)

theorem exec_runb {s : State} (h : SelectorReady s) : exec .runb s = .next (runDigit 2 (symbolRead 1 s)) :=
  congrArg Host.Outcome.next (symbolStep_ready h 1 _)

theorem exec_mtf {s : State} (h : SelectorReady s) (sym : Nat) :
    exec (.mtf sym) s = .next (flushThen (emitMtf sym) (symbolRead sym s)) :=
  congrArg Host.Outcome.next (symbolStep_ready h sym _)

theorem exec_eob {s : State} (h : SelectorReady s) :
    exec .eob s = .next (flushThen (fun u => { u with phase := .ibwt }) (symbolRead (s.alpha - 1) s)) :=
  congrArg Host.Outcome.next (symbolStep_ready h (s.alpha - 1) _)

/-- One digit on the run accumulators, read from the state before the symbol. -/
theorem runDigit_symbolRead {s : State} (h : SelectorReady s) (sym weight : Nat) :
    runDigit weight (symbolRead sym s) = { symbolRead sym s with
      rep := s.rep + weight * (if s.rep = 0 then 1 else s.reppow)
      reppow := 2 * (if s.rep = 0 then 1 else s.reppow) } := by
  rw [runDigit, symbolRead_rep h, symbolRead_reppow h]

theorem flushThen_none {s : State} (hf : flushRun s = none) (act : State → State) :
    flushThen act s = fail .blockFull s := by
  rw [flushThen, hf]

theorem flushThen_some {s u : State} (hf : flushRun s = some u) (act : State → State) : flushThen act s = act u := by
  rw [flushThen, hf]

theorem emitMtf_full {u : State} (hfull : u.blkMax < u.size + 1) (sym : Nat) : emitMtf sym u = fail .blockFull u :=
  if_pos hfull

/-- With room, the byte at position `sym − 1` is stored at `tt[size]` and moves to the front. -/
theorem emitMtf_room {sym : Nat} {u : State} {v : Byte} (hroom : u.size + 1 ≤ u.blkMax)
    (hv : u.mtf[sym - 1]? = some v) :
    emitMtf sym u = { u with
      mtf := v :: u.mtf.eraseIdx (sym - 1), tt := putAll u.tt u.size [v] 0, size := u.size + 1 } := by
  rw [emitMtf, if_neg (Nat.not_lt.2 hroom), mtfTake_of_getElem? hv]

/-! ### The statements -/

/-- Settles O4: the lengths before the deciding one are missed, and that one ends the match; with all missed nothing
matches. -/
theorem huffDecodeTriesLengthsInOrder : Obligations.HuffDecodeTriesLengthsInOrder := by
  intro c w hphase
  rw [decode_symbol hphase]
  refine ⟨fun pre n post p s q hpresent hpre hn hperm hp hs => ?_, fun pre n post hpresent hpre hn => ?_,
    decodeHuff_all_missed, symbolToken_classes⟩
  · rw [hpresent, decodeHuff_append_missed _ pre hpre]
    exact decodeHuff_cons_match post hn (matchCode_of_first_hit hperm hp hs)
  · rw [hpresent, decodeHuff_append_missed _ pre hpre]
    exact decodeHuff_cons_short post hn

/-- Settles O27: the flush fails, the block is full after it, or the byte is emitted. -/
theorem mtfToken : Obligations.MtfToken := by
  intro sym s u hready
  rw [exec_mtf hready]
  refine ⟨fun hf => ?_, fun hf hfull => ?_, fun v hf hroom hv => ⟨_, getD_put u.tt u.size v 0, ?_⟩⟩
  · rw [flushThen_none hf]
  · rw [flushThen_some hf, emitMtf_full hfull]
  · rw [flushThen_some hf, emitMtf_room hroom hv]

/-- Settles O24: RUNA and RUNB are `runDigit` of weight 1 and 2 once the symbol's code is consumed. -/
theorem runTokens : Obligations.RunTokens := by
  intro s hready
  rw [exec_runa hready, exec_runb hready, runDigit_symbolRead hready, runDigit_symbolRead hready, Nat.one_mul]
  exact ⟨rfl, rfl⟩

/-- Settles O28: the flush succeeds or fails once the symbol's code is consumed. -/
theorem endOfBlockToken : Obligations.EndOfBlockToken := by
  intro s u hready
  rw [exec_eob hready]
  refine ⟨fun hf => ?_, fun hf => ?_⟩
  · rw [flushThen_some hf]
  · rw [flushThen_none hf]

end Sys2Proof.Machine

/-! ## The inverse transform: IBWT (45_inverse_bwt.md R200, R201) -/

namespace Sys2Proof.Machine

open Sys2Proof.Claims

/-! ### The block buffer's bytes -/

/-- The bytes `tt[0 .. size−1]` that IBWT works on (45_inverse_bwt.md R200). -/
def bwtBlock (s : State) : List Byte := firstN s.tt s.size 0

@[simp] theorem length_bwtBlock (s : State) : (bwtBlock s).length = s.size := length_firstN _ _ _

theorem getD_bwtBlock (s : State) {k : Nat} (h : k < s.size) : (bwtBlock s).getD k 0 = src s k := by
  rw [bwtBlock, getD_firstN, if_pos h, src]

theorem take_bwtBlock (s : State) {n : Nat} (h : n ≤ s.size) : (bwtBlock s).take n = (List.range n).map (src s) := by
  refine List.ext_getElem (by simp [h]) fun k hk _ => ?_
  have hn : k < n := by rw [List.length_take] at hk; omega
  rw [List.getElem_take, List.getElem_map, List.getElem_range, ← getD_bwtBlock s (by omega), List.getD_eq_getElem]

/-- The equal bytes before a position, counted by position as R200's loops count them. -/
theorem count_take_bwtBlock (s : State) (b : Byte) {n : Nat} (h : n ≤ s.size) :
    ((bwtBlock s).take n).count b = ((List.range n).filter fun j => src s j == b).length := by
  rw [take_bwtBlock s h, List.count, List.countP_map, List.countP_eq_length_filter]
  rfl

theorem count_bwtBlock (s : State) (b : Byte) :
    (bwtBlock s).count b = ((List.range s.size).filter fun j => src s j == b).length := by
  rw [← count_take_bwtBlock s b le_rfl, List.take_of_length_le (length_bwtBlock s).le]

/-! ### IBWT as one update -/

/-- What the chase places: the bytes met from position `j` on, the first one met last. -/
def chasedBytes (block : List Byte) (j : Nat) : List Byte :=
  ((List.range block.length).map fun m => block.getD ((nextPos block)^[m] j) 0).reverse

@[simp] theorem length_chasedBytes (block : List Byte) (j : Nat) : (chasedBytes block j).length = block.length := by
  simp [chasedBytes]

/-- Counted from the last byte down, `chasedBytes` is the orbit of the start position. -/
theorem getD_chasedBytes (block : List Byte) (j : Nat) {m : Nat} (h : m < block.length) :
    (chasedBytes block j).getD (block.length - 1 - m) 0 = block.getD ((nextPos block)^[m] j) 0 := by
  rw [List.getD_eq_getElem _ _ (by simp; omega)]
  simp only [chasedBytes, List.getElem_reverse, List.getElem_map, List.getElem_range, List.length_map, List.length_range]
  rw [show block.length - 1 - (block.length - 1 - m) = m by omega]

/-- The state IBWT leaves when the pointer is in range. -/
def untransformed (s : State) : State :=
  { s with
    bucketCount := bucketCounts (bwtBlock s)
    bucketStart := runningSums 0 (bucketCounts (bwtBlock s))
    bucketIndex := putAll s.bucketIndex 0 (bucketRanks [] (bwtBlock s)) 0
    dst := putAll s.dst 0 (chasedBytes (bwtBlock s) s.origPtr.toNat) 0
    phase := .rle }

@[simp] theorem untransformed_bucketCount (s : State) : (untransformed s).bucketCount = bucketCounts (bwtBlock s) := rfl
@[simp] theorem untransformed_bucketStart (s : State) :
    (untransformed s).bucketStart = runningSums 0 (bucketCounts (bwtBlock s)) := rfl
@[simp] theorem untransformed_bucketIndex (s : State) :
    (untransformed s).bucketIndex = putAll s.bucketIndex 0 (bucketRanks [] (bwtBlock s)) 0 := rfl
@[simp] theorem untransformed_dst (s : State) :
    (untransformed s).dst = putAll s.dst 0 (chasedBytes (bwtBlock s) s.origPtr.toNat) 0 := rfl
@[simp] theorem src_untransformed (s : State) (k : Nat) : src (untransformed s) k = src s k := rfl

theorem exec_ibwt_ptrRange {s : State} (h : s.size ≤ s.origPtr.toNat) : exec .ibwt s = .next (fail .bwtPtrRange s) := by
  rw [show exec .ibwt s = execIbwt s from rfl, execIbwt, if_pos h]

/-- From a pointer in range the chase succeeds: BWT_INDEX_RANGE is never met (45_inverse_bwt.md R201). -/
theorem chase_bwtBlock {s : State} (h : s.origPtr.toNat < s.size) :
    chase (bwtBlock s) (runningSums 0 (bucketCounts (bwtBlock s))) (bucketRanks [] (bwtBlock s)) s.size
      s.origPtr.toNat [] = some (chasedBytes (bwtBlock s) s.origPtr.toNat) := by
  rw [chase_eq _ _ _ _ (by simpa using h), List.append_nil, chasedBytes, length_bwtBlock]

theorem exec_ibwt {s : State} (h : s.origPtr.toNat < s.size) : exec .ibwt s = .next (untransformed s) := by
  have hchase := chase_bwtBlock h
  unfold bwtBlock at hchase
  rw [show exec .ibwt s = execIbwt s from rfl, execIbwt, if_neg (by omega)]
  simp only [hchase]
  rfl

/-! ### The bucket pass -/

theorem beq_ofNat {b : Nat} (hb : b < 256) (x : Byte) : (x == BitVec.ofNat 8 b) = (x.toNat == b) := by
  rw [Bool.eq_iff_iff, beq_iff_eq, beq_iff_eq, BitVec.toNat_eq, BitVec.toNat_ofNat, Nat.mod_eq_of_lt hb]

/-- `count[b]`, by position. -/
theorem bucketCount_untransformed (s : State) {b : Nat} (hb : b < 256) :
    (untransformed s).bucketCount.getD b 0 = ((List.range s.size).filter fun k => (src s k).toNat == b).length := by
  have hcount := getD_bucketCounts (bwtBlock s) (BitVec.ofNat 8 b)
  rw [BitVec.toNat_ofNat, Nat.mod_eq_of_lt hb, count_bwtBlock] at hcount
  rw [untransformed_bucketCount, hcount]
  simp only [beq_ofNat hb]

theorem sum_bucketCount_untransformed (s : State) : (untransformed s).bucketCount.sum = s.size :=
  (sum_bucketCounts (bwtBlock s)).trans (length_bwtBlock s)

theorem bucketStart_untransformed (s : State) {b : Nat} (hb : b < 256) :
    (untransformed s).bucketStart.getD b 0 = ((untransformed s).bucketCount.take b).sum :=
  (getD_runningSums _ 0 b (by simpa using hb)).trans (Nat.zero_add _)

theorem bucketIndex_untransformed (s : State) {k : Nat} (hk : k < s.size) :
    (untransformed s).bucketIndex.getD k 0 = (bucketRanks [] (bwtBlock s)).getD k 0 := by
  rw [untransformed_bucketIndex, getD_putAll, if_pos (by simpa using hk), Nat.sub_zero]

/-- `index[k]`, by position: the equal bytes before it. -/
theorem bucketIndex_untransformed_eq_count (s : State) {k : Nat} (hk : k < s.size) :
    (untransformed s).bucketIndex.getD k 0 = ((List.range k).filter fun j => src s j == src s k).length := by
  rw [bucketIndex_untransformed s hk, getD_bucketRanks _ _ _ (by simpa using hk), List.count_nil, Nat.zero_add,
    getD_bwtBlock s hk, count_take_bwtBlock s _ hk.le]

theorem bucketIndex_untransformed_lt (s : State) {k : Nat} (hk : k < s.size) :
    (untransformed s).bucketIndex.getD k 0 < (untransformed s).bucketCount.getD (src s k).toNat 0 := by
  rw [bucketIndex_untransformed s hk, ← getD_bwtBlock s hk]
  exact rank_lt _ (by simpa using hk)

/-! ### The chase map -/

/-- The map the statements write with the stored tables is the block's permutation. -/
theorem chain_untransformed (s : State) {k : Nat} (hk : k < s.size) :
    chain (untransformed s) k = nextPos (bwtBlock s) k := by
  rw [chain, src_untransformed, untransformed_bucketStart, bucketIndex_untransformed s hk, nextPos, getD_bwtBlock s hk]

theorem chain_untransformed_perm (s : State) :
    ((List.range s.size).map (chain (untransformed s))).Perm (List.range s.size) := by
  rw [List.map_congr_left fun k hk => chain_untransformed s (List.mem_range.1 hk)]
  simpa using nextPos_perm (bwtBlock s)

/-- From a position in the block, both maps have the same orbit, and it stays in the block. -/
theorem iterate_chain_untransformed (s : State) {j : Nat} (hj : j < s.size) : ∀ m : Nat,
    (chain (untransformed s))^[m] j = (nextPos (bwtBlock s))^[m] j ∧ (nextPos (bwtBlock s))^[m] j < s.size
  | 0 => ⟨rfl, hj⟩
  | m + 1 => by
    obtain ⟨heq, hlt⟩ := iterate_chain_untransformed s hj m
    rw [Function.iterate_succ_apply', Function.iterate_succ_apply', heq, chain_untransformed s hlt]
    exact ⟨rfl, by simpa using nextPos_lt (bwtBlock s) (by simpa using hlt)⟩

/-! ### The reconstruction -/

/-- From the last byte down, `dst` holds the bytes met by the chase from the pointer. -/
theorem dst_untransformed_below {s : State} (h : s.origPtr.toNat < s.size) {m : Nat} (hm : m < s.size) :
    (untransformed s).dst.getD (s.size - 1 - m) 0 = src s ((chain (untransformed s))^[m] s.origPtr.toNat) := by
  obtain ⟨horbit, hlt⟩ := iterate_chain_untransformed s h m
  have hchased := getD_chasedBytes (bwtBlock s) s.origPtr.toNat (m := m) (by simpa using hm)
  rw [length_bwtBlock, getD_bwtBlock s hlt] at hchased
  rw [horbit, ← hchased, untransformed_dst, getD_putAll, if_pos (by simp; omega), Nat.sub_zero]

theorem dst_untransformed_above (s : State) {k : Nat} (hk : s.size ≤ k) :
    (untransformed s).dst.getD k 0 = s.dst.getD k 0 := by
  rw [untransformed_dst, getD_putAll, if_neg (by simp; omega)]

/-! ### The statements -/

/-- Settles O29: the pointer check decides the outcome, and each listed invariant is a lemma on the state IBWT leaves. -/
theorem bucketPass : Obligations.BucketPass := by
  intro s
  refine ⟨exec_ibwt_ptrRange, fun h => ⟨untransformed s, exec_ibwt h, rfl, ?_⟩⟩
  exact ⟨fun _ => bucketCount_untransformed s, sum_bucketCount_untransformed s, fun _ => bucketStart_untransformed s,
    fun _ => bucketIndex_untransformed_eq_count s, fun _ => bucketIndex_untransformed_lt s, chain_untransformed_perm s⟩

/-- Settles O30: the chase follows the permutation of R200, so it stays in the block and IBWT reaches RLE. -/
theorem reconstruction : Obligations.Reconstruction := by
  intro s h
  exact ⟨untransformed s, exec_ibwt h, rfl, rfl, fun _ => dst_untransformed_below h, fun _ => dst_untransformed_above s⟩

end Sys2Proof.Machine

/-! ## The final run-length code: RLE (46_final_rle.md R210) -/

namespace Sys2Proof.Machine

open Sys2Proof.Claims

/-! ### The scan loop -/

/-- An iteration at `p` looks only at the bytes from `p` on. -/
theorem scanAt_drop (dst : List Byte) (p : Nat) : scanAt (dst.drop p) 0 = scanAt dst p := by
  have hread : ∀ i, (dst.drop p).getD i 0 = dst.getD (p + i) 0 := fun i => by
    rw [List.getD_eq_getElem?_getD, List.getElem?_drop, List.getD_eq_getElem?_getD]
  have hlt : ∀ i, i < (dst.drop p).length ↔ p + i < dst.length := fun i => by
    rw [List.length_drop]; omega
  simp only [scanAt, hread, hlt, Nat.zero_add, Nat.add_zero]

/-- Every iteration moves on, so the scan ends. -/
theorem scanAt_step_pos (dst : List Byte) (p : Nat) : 0 < (scanAt dst p).2 := by
  unfold scanAt
  split_ifs <;> simp

/-- The first run of a block is what one iteration at position 0 finds, and the rest are the runs after its step. -/
theorem rleRuns_cons (a : Byte) (rest : List Byte) :
    rleRuns (a :: rest) = ((scanAt (a :: rest) 0).1, a) :: rleRuns ((a :: rest).drop (scanAt (a :: rest) 0).2) := by
  by_cases hshort : rest.length < 3
  · rw [rleRuns_short hshort, scanAt, if_neg (by simp; omega), List.drop_one, List.tail_cons]
  · obtain ⟨b, c, d, more, rfl⟩ : ∃ b c d more, rest = b :: c :: d :: more := by
      rcases rest with _ | ⟨b, _ | ⟨c, _ | ⟨d, more⟩⟩⟩ <;> simp_all
    rw [rleRuns_four]
    by_cases heq : a = b ∧ b = c ∧ c = d
    · cases more with
      | nil => simp [scanAt, heq, rleRuns]
      | cons count more => simp [scanAt, heq]
    · simp [scanAt, heq]

/-- With enough fuel to pass the end, the scan from `p` emits the runs of the bytes from `p` on. -/
theorem scan_eq_rleRuns_drop (dst : List Byte) : ∀ fuel p : Nat, dst.length ≤ p + fuel →
    scan dst fuel p = rleRuns (dst.drop p)
  | 0, p, h => by rw [scan, List.drop_of_length_le (by omega), rleRuns]
  | fuel + 1, p, h => by
    rw [scan]
    split
    case isTrue hp =>
      have hstep := scanAt_step_pos dst p
      rw [scan_eq_rleRuns_drop dst fuel _ (by omega), List.drop_eq_getElem_cons hp, rleRuns_cons,
        ← List.drop_eq_getElem_cons hp, scanAt_drop, List.drop_drop, List.getD_eq_getElem _ _ hp]
    case isFalse hp => rw [List.drop_of_length_le (by omega), rleRuns]

/-! ### RLE as one emission -/

theorem firstN_dst_eq_block (s : State) : firstN s.dst s.size 0 = block s := by
  refine eq_of_getD 0 (by simp [block]) fun k hk => ?_
  rw [length_firstN] at hk
  rw [getD_firstN, if_pos hk]
  simp [block, hk]

/-- What the emission loop leaves on the block, with the room OUT_LEN and OUT_CAP leave: the state, and the CRC register
or `none`. -/
def emission (s : State) : State × Option U32 :=
  emitRuns (s.outCap.toNat - s.outLen.toNat) (rleRuns (block s)) crcInit { s with finLen := 0 }

theorem exec_rle_some {s t : State} {c : U32} (h : emission s = (t, some c)) :
    exec .rle s = .next { t with bcrc := c ^^^ crcInit, phase := .check } := by
  unfold emission at h
  simp only [exec, execRle, firstN_dst_eq_block, h]

theorem exec_rle_none {s t : State} (h : emission s = (t, none)) : exec .rle s = .next (fail .outCap t) := by
  unfold emission at h
  simp only [exec, execRle, firstN_dst_eq_block, h]

/-- The loop changes OUT_MEM and `fin_len` only. -/
theorem emission_frame (s : State) :
    (emission s).1 = { s with outMem := (emission s).1.outMem, finLen := (emission s).1.finLen } :=
  (emitRuns_frame _ (rleRuns (block s)) crcInit { s with finLen := 0 } (Nat.zero_le _)).1

theorem emission_finLen_le (s : State) : (emission s).1.finLen ≤ s.outCap.toNat - s.outLen.toNat :=
  (emitRuns_frame _ (rleRuns (block s)) crcInit { s with finLen := 0 } (Nat.zero_le _)).2.1

/-- No byte outside `[OUT_LEN, OUT_CAP)` is written. -/
theorem read_emission_outside {s : State} (hcap : s.outLen.toNat ≤ s.outCap.toNat) {a : Nat}
    (ha : a < s.outLen.toNat ∨ s.outCap.toNat ≤ a) :
    Memory.read .output (emission s).1.outMem a = Memory.read .output s.outMem a := by
  obtain ⟨-, -, houtside, -⟩ := emitRuns_frame (s.outCap.toNat - s.outLen.toNat) (rleRuns (block s)) crcInit
    { s with finLen := 0 } (Nat.zero_le _)
  exact houtside a (by rwa [Nat.add_sub_cancel' hcap])

/-- Where the final bytes fit, they are written from OUT_LEN upward, counted and fed to the CRC register. -/
theorem emission_fits {s : State} (h : s.outLen.toNat + (finalBytes (block s)).length ≤ s.outCap.toNat) :
    ∃ t, emission s = (t, some ((finalBytes (block s)).foldl crcStep crcInit))
      ∧ t.finLen = (finalBytes (block s)).length
      ∧ ∀ a, Memory.read .output t.outMem a =
          if s.outLen.toNat ≤ a ∧ a < s.outLen.toNat + (finalBytes (block s)).length
          then (finalBytes (block s)).getD (a - s.outLen.toNat) 0 else Memory.read .output s.outMem a := by
  have hroom : 0 + (finalBytes (block s)).length ≤ s.outCap.toNat - s.outLen.toNat := by omega
  obtain ⟨t, ht, hlen, hread⟩ := emitRuns_fits _ (rleRuns (block s)) crcInit { s with finLen := 0 } hroom
  exact ⟨t, ht, hlen.trans (Nat.zero_add _), hread⟩

theorem emission_overflow {s : State} (hcap : s.outLen.toNat ≤ s.outCap.toNat)
    (h : s.outCap.toNat < s.outLen.toNat + (finalBytes (block s)).length) : emission s = ((emission s).1, none) := by
  have hroom : s.outCap.toNat - s.outLen.toNat < 0 + (finalBytes (block s)).length := by omega
  exact Prod.ext rfl (emitRuns_overflow _ (rleRuns (block s)) crcInit { s with finLen := 0 } (Nat.zero_le _) hroom)

/-! ### The statements -/

/-- Settles O31: the block's length is fuel enough for the scan from position 0. -/
theorem runsAreTheScanLoop : Obligations.RunsAreTheScanLoop := by
  intro dst
  exact (scan_eq_rleRuns_drop dst dst.length 0 (Nat.le_add_left _ _)).symm

/-- Settles O32: RLE is the emission loop on the block, which either fits or stops inside the room left. -/
theorem rleOperation : Obligations.RleOperation := by
  intro s
  refine ⟨fun hfits => ?_, fun hcap hover => ?_⟩
  · obtain ⟨t, ht, hlen, hread⟩ := emission_fits hfits
    have hframe : t = { s with outMem := t.outMem, finLen := t.finLen } := by simpa only [ht] using emission_frame s
    refine ⟨_, exec_rle_some ht, ?_, hread⟩
    rw [hframe, ← hlen, crc32]
  · refine ⟨(emission s).1, exec_rle_none (emission_overflow hcap hover), emission_frame s, ?_,
      fun _ => read_emission_outside hcap⟩
    have := emission_finLen_le s
    omega

end Sys2Proof.Machine

/-! ## The host interface: register reads, DONE_CLR and the length writes (48_host_interface.md R230, R234..R236) -/

namespace Sys2Proof.Machine

/-! ### The commands DONE_CLR, IN_LEN_SET and OUT_CAP_SET -/

theorem exec_doneClr (v : U32) (s : State) :
    exec (.doneClr v) s = .next (if v.getLsbD 1 then { s with done := false } else s) := rfl

theorem exec_inLenSet_busy (v : U32) {s : State} (hb : s.busy = true) : exec (.inLenSet v) s = .next s :=
  congrArg Host.Outcome.next (if_pos hb)

theorem exec_outCapSet_busy (v : U32) {s : State} (hb : s.busy = true) : exec (.outCapSet v) s = .next s :=
  congrArg Host.Outcome.next (if_pos hb)

theorem exec_inLenSet_idle (v : U32) {s : State} (hb : s.busy = false) :
    exec (.inLenSet v) s = .next { s with inLen := BitVec.ofNat 32 (min v.toNat s.cfg.inMemBytes) } :=
  congrArg Host.Outcome.next (if_neg (Bool.eq_false_iff.1 hb))

theorem exec_outCapSet_idle (v : U32) {s : State} (hb : s.busy = false) :
    exec (.outCapSet v) s = .next { s with outCap := BitVec.ofNat 32 (min v.toNat s.cfg.outMemBytes.toNat) } :=
  congrArg Host.Outcome.next (if_neg (Bool.eq_false_iff.1 hb))

/-- A word clamped to a memory's size is exact: the clamped value fits because the written one does. -/
theorem toNat_ofNat_min (v : U32) (size : Nat) : (BitVec.ofNat 32 (min v.toNat size)).toNat = min v.toNat size :=
  Nat.mod_eq_of_lt ((Nat.min_le_left _ _).trans_lt v.isLt)

/-! ### The bits of CTRL and STATUS -/

/-- A field of `n` bits placed at bit `p` of a 32-bit word shows there and nowhere else. -/
theorem getLsbD_field {n p : Nat} (x : BitVec n) (hp : p + n ≤ 32) (k : Nat) :
    (x.setWidth 32 <<< p).getLsbD k = (decide (p ≤ k) && x.getLsbD (k - p)) := by
  rw [BitVec.getLsbD_shiftLeft, BitVec.getLsbD_setWidth]
  by_cases hk : p ≤ k ∧ k < p + n
  · simp [show k < 32 by omega, show ¬ k < p by omega, show k - p < 32 by omega, hk.1]
  · by_cases hlow : p ≤ k
    · simp [BitVec.getLsbD_of_ge x (k - p) (by omega)]
    · simp [hlow, show k < p by omega]

/-- Outside its `n` bits the field is clear. -/
theorem field_clear {n p k : Nat} (x : BitVec n) (h : k < p ∨ p + n ≤ k) :
    (decide (p ≤ k) && x.getLsbD (k - p)) = false := by
  rcases h with h | h
  · rw [decide_eq_false (Nat.not_le.2 h), Bool.false_and]
  · rw [BitVec.getLsbD_of_ge x (k - p) (Nat.le_sub_of_add_le' h), Bool.and_false]

/-- A flag placed at bit `p` shows there alone. -/
theorem getLsbD_flag (b : Bool) {p : Nat} (hp : p < 32) (k : Nat) :
    ((BitVec.ofBool b).setWidth 32 <<< p).getLsbD k = (decide (k = p) && b) := by
  rw [getLsbD_field _ hp]
  by_cases hk : k = p
  · simp [hk]
  · rw [field_clear _ (by omega), decide_eq_false hk, Bool.false_and]

theorem getLsbD_ctrlWord (s : State) (k : Nat) : (ctrlWord s).getLsbD k = (decide (k = 1) && s.irqEn) :=
  getLsbD_flag s.irqEn (by decide) k

/-- STATUS as its five fields, each at its own place (10_state.md R24). -/
theorem getLsbD_statusWord (s : State) (k : Nat) :
    (statusWord s).getLsbD k =
      (decide (k = 0) && s.busy || decide (k = 1) && s.done || decide (k = 2) && s.err
        || decide (8 ≤ k) && s.errKind.getLsbD (k - 8) || decide (16 ≤ k) && s.errCause.getLsbD (k - 16)) := by
  rw [statusWord, ← BitVec.shiftLeft_zero ((BitVec.ofBool s.busy).setWidth 32)]
  simp only [BitVec.getLsbD_or]
  rw [getLsbD_flag s.busy (by decide), getLsbD_flag s.done (by decide), getLsbD_flag s.err (by decide),
    getLsbD_field s.errKind (by decide), getLsbD_field s.errCause (by decide)]

theorem statusWord_busy (s : State) : (statusWord s).getLsbD 0 = s.busy :=
  (getLsbD_statusWord s 0).trans (by simp)

theorem statusWord_done (s : State) : (statusWord s).getLsbD 1 = s.done :=
  (getLsbD_statusWord s 1).trans (by simp)

theorem statusWord_err (s : State) : (statusWord s).getLsbD 2 = s.err :=
  (getLsbD_statusWord s 2).trans (by simp)

theorem statusWord_errKind (s : State) {k : Nat} (hk : k < 4) :
    (statusWord s).getLsbD (8 + k) = s.errKind.getLsbD k := by
  rw [getLsbD_statusWord, field_clear s.errCause (by omega)]
  simp [show 8 + k ≠ 1 by omega, show 8 + k ≠ 2 by omega]

theorem statusWord_errCause (s : State) (k : Nat) : (statusWord s).getLsbD (16 + k) = s.errCause.getLsbD k := by
  rw [getLsbD_statusWord, field_clear s.errKind (by omega)]
  simp [show 16 + k ≠ 1 by omega, show 16 + k ≠ 2 by omega]

theorem statusWord_reserved (s : State) {k : Nat} (hk : (3 ≤ k ∧ k < 8) ∨ (12 ≤ k ∧ k < 16) ∨ 24 ≤ k) :
    (statusWord s).getLsbD k = false := by
  rw [getLsbD_statusWord, field_clear s.errKind (by omega), field_clear s.errCause (by omega)]
  simp [show k ≠ 0 by omega, show k ≠ 1 by omega, show k ≠ 2 by omega]

/-! ### A register read -/

theorem regRead_reserved {off : Nat} (h : 0x2C ≤ off) (s : State) : regRead off s = 0 := by
  have hne : ∀ r < 0x2C, off ≠ r := fun r hr => by omega
  simp [regRead, hne]

/-- An aligned offset of the window is the one its host address decodes to (20_memory.md R67). -/
theorem regOffset_base_add (cfg : Params) {off : Nat} (ha : off % 4 = 0) (hw : off < 256) :
    regOffset cfg (cfg.regBase + off) = some off := by
  rw [regOffset, Nat.add_sub_cancel_left, if_pos ⟨Nat.le_add_right _ _, Nat.add_lt_add_left hw _, ha⟩]

theorem step_regRead (s : State) {off : Nat} (rest : List Turn) (ha : off % 4 = 0) (hw : off < 256) :
    step { s with schedule := .host (.regRead (s.cfg.regBase + off)) :: rest }
      = .next { s with schedule := rest, busData := regRead off s } := by
  rw [step_host, hostTurn]
  simp only [regOffset_base_add s.cfg ha hw]
  rfl

/-! ### The statements -/

/-- Settles O39: an aligned offset in the window decodes to itself, and the word read is `regRead`, bit by bit. -/
theorem registerRead : Obligations.RegisterRead := by
  intro s off rest ha hw
  refine ⟨regRead off s, step_regRead s rest ha hw, ?ctrl, ?status, ?_, ?_, ?_, ?_, ?_, ?_, ?_, ?_, ?_,
    fun h => regRead_reserved h s⟩
  case ctrl =>
    rintro rfl k -
    exact getLsbD_ctrlWord s k
  case status =>
    rintro rfl
    exact ⟨statusWord_busy s, statusWord_done s, statusWord_err s, fun _ => statusWord_errKind s,
      fun k _ => statusWord_errCause s k, fun _ => statusWord_reserved s⟩
  all_goals rintro rfl; rfl

/-- Settles O37: the two cases are the two branches of DONE_CLR. -/
theorem doneClear : Obligations.DoneClear := by
  intro v s
  rw [exec_doneClr]
  exact ⟨fun hv => by rw [if_pos hv], fun hv => by rw [if_neg (Bool.eq_false_iff.1 hv)]⟩

/-- Settles O38: busy, both writes are ignored; idle, each word is the clamped value, exactly. -/
theorem lengthWrites : Obligations.LengthWrites := by
  intro v s
  refine ⟨fun hb => ⟨exec_inLenSet_busy v hb, exec_outCapSet_busy v hb⟩, fun hb _ => ?_⟩
  exact ⟨_, _, toNat_ofNat_min v _, toNat_ofNat_min v _, exec_inLenSet_idle v hb, exec_outCapSet_idle v hb⟩

end Sys2Proof.Machine

/-! ## Exceptions: the interrupt line (60_exceptions.md R260) -/

namespace Sys2Proof.Machine

/-! ### The line and its two register bits -/

theorem irq_of_done {s : State} (h : s.done = true) : irq s = s.irqEn := by rw [irq, h, Bool.true_and]

theorem irq_of_not_done {s : State} (h : s.done = false) : irq s = false := by rw [irq, h, Bool.false_and]

theorem irq_of_not_irqEn {s : State} (h : s.irqEn = false) : irq s = false := by rw [irq, h, Bool.and_false]

theorem irq_eq_regRead (s : State) : irq s = ((regRead 0x04 s).getLsbD 1 && (regRead 0x00 s).getLsbD 1) := by
  have hdone : (regRead 0x04 s).getLsbD 1 = s.done := statusWord_done s
  have hirqEn : (regRead 0x00 s).getLsbD 1 = s.irqEn := getLsbD_ctrlWord s 1
  rw [hdone, hirqEn, irq]

/-! ### CTRL writes -/

theorem exec_start (v : U32) (s : State) : exec (.start v) s = .next (ctrlWrite v s) := rfl

theorem exec_irqEnSet (v : U32) (s : State) : exec (.irqEnSet v) s = .next (ctrlWrite v s) := rfl

theorem ctrlWrite_starts {v : U32} {s : State} (hv : v.getLsbD 0 = true) (hb : s.busy = false) :
    ctrlWrite v s = startRun { s with irqEn := v.getLsbD 1 } := if_pos ⟨hv, hb⟩

theorem ctrlWrite_no_start {v : U32} {s : State} (h : ¬ (v.getLsbD 0 = true ∧ s.busy = false)) :
    ctrlWrite v s = { s with irqEn := v.getLsbD 1 } := if_neg h

/-- Whether or not the write starts a run, IRQ_EN takes bit 1. -/
theorem ctrlWrite_irqEn (v : U32) (s : State) : (ctrlWrite v s).irqEn = v.getLsbD 1 := by
  by_cases h : v.getLsbD 0 = true ∧ s.busy = false
  · rw [ctrlWrite_starts h.1 h.2, startRun_irqEn]
  · rw [ctrlWrite_no_start h]

/-! ### The statement -/

/-- Settles O44: both ends of a run set DONE, DONE_CLR and START clear it, and a CTRL write gives IRQ_EN its bit 1. -/
theorem interruptLine : Obligations.InterruptLine := by
  refine ⟨irq_eq_regRead, fun s c => ⟨irq_of_done (fail_done c s), irq_of_done (finish_done s)⟩,
    fun s t h => ?doneClr, fun s t v hv h => ?irqEnSet, fun s t v hv hb h => ?start, rfl⟩
  case doneClr =>
    rw [exec_doneClr, if_pos (by decide)] at h
    obtain rfl := Host.Outcome.next.inj h
    exact irq_of_not_done rfl
  case irqEnSet =>
    rw [exec_irqEnSet] at h
    obtain rfl := Host.Outcome.next.inj h
    exact irq_of_not_irqEn ((ctrlWrite_irqEn v s).trans hv)
  case start =>
    rw [exec_start, ctrlWrite_starts hv hb] at h
    obtain rfl := Host.Outcome.next.inj h
    exact irq_of_not_done (startRun_done _)

end Sys2Proof.Machine

/-! ## Reset: the power-on state and the reset input (70_reset_and_hazards.md R280, R281) -/

namespace Sys2Proof.Machine

/-! ### What the reset input gives the registers, and what it keeps -/

theorem ctrlWord_reset : ctrlWord State.reset = 0 := by decide

theorem statusWord_reset : statusWord State.reset = 0 := by decide

/-- CTRL and STATUS are packed from fields that are all clear; every other branch of the read is a field at 0. -/
theorem regRead_reset (off : Nat) : regRead off State.reset = 0 := by
  unfold regRead
  split_ifs
  case pos => exact ctrlWord_reset
  case pos => exact statusWord_reset
  all_goals rfl

/-- The reset input keeps no register: what a read returns does not depend on the state it interrupts. -/
theorem regRead_resetInput (off : Nat) (s : State) : regRead off (resetInput s) = regRead off State.reset := rfl

@[simp] theorem resetInput_phase (s : State) : (resetInput s).phase = .idle := rfl

@[simp] theorem resetInput_done (s : State) : (resetInput s).done = false := rfl

@[simp] theorem resetInput_inMem (s : State) : (resetInput s).inMem = s.inMem := rfl

@[simp] theorem resetInput_outMem (s : State) : (resetInput s).outMem = s.outMem := rfl

@[simp] theorem resetInput_cfg (s : State) : (resetInput s).cfg = s.cfg := rfl

@[simp] theorem resetInput_schedule (s : State) : (resetInput s).schedule = s.schedule := rfl

end Sys2Proof.Machine

/-! ### The statement

In a namespace of its own, as the model's `resetInput` has the theorem's name. -/

namespace Sys2Proof.Machine.Reset

/-- Settles O45: the turn is `resetInput`, whose registers are those of power-on and whose memories are the ones it
found; DONE is clear, so the line is low. -/
theorem resetInput : Obligations.ResetInput := by
  refine ⟨regRead_reset, rfl, fun s rest => ⟨_, step_reset s rest, ?regs, resetInput_phase _,
    irq_of_not_done (resetInput_done _), resetInput_inMem _, resetInput_outMem _, resetInput_cfg _,
    resetInput_schedule _⟩⟩
  case regs => exact fun off => (regRead_resetInput off _).trans (regRead_reset off)

end Sys2Proof.Machine.Reset

/-! ## Encoding: decoding what `encode` writes (30_encoding.md R90..R97, 44_symbol_decode.md R181) -/

namespace Sys2Proof

/-! ### Stream, header and table tokens -/

/-- A fixed field's token comes back from the bits of its value. -/
theorem decodeField_encoded {w : Nat} (v : BitVec w) (rest : List Bool) (mk : BitVec w → Instr) :
    decodeField w (bitsOfNat w v.toNat ++ rest) (fun x => .token (mk (BitVec.ofNat w x)) w) =
      .token (mk v) (bitsOfNat w v.toNat).length := by
  rw [decodeField_bitsOfNat, Nat.mod_eq_of_lt v.isLt, BitVec.ofNat_toNat, BitVec.setWidth_eq, length_bitsOfNat]

/-- The magic's 24 bits and the digit's 8 are one field of 32. -/
theorem decodeField_hdr (d : BitVec 8) (rest : List Bool) :
    decodeField 32 (bitsOfNat 24 hdrMagic ++ bitsOfNat 8 d.toNat ++ rest) decodeHdr = .token (.hdr d) 32 := by
  have hd := d.isLt
  have hfield : natOfBits (bitsOfNat 24 hdrMagic ++ bitsOfNat 8 d.toNat) = hdrMagic * 2 ^ 8 + d.toNat := by
    rw [natOfBits_append, natOfBits_bitsOfNat, natOfBits_bitsOfNat_toNat, length_bitsOfNat,
      Nat.mod_eq_of_lt (by decide), Nat.mul_comm]
  rw [decodeField_long (by simp; omega), List.take_left' (by simp), hfield, decodeHdr,
    if_pos (by rw [Nat.shiftRight_eq_div_pow]; omega)]
  congr 2
  exact BitVec.eq_of_toNat_eq (by rw [BitVec.toNat_ofNat]; omega)

theorem decodeMagic_block : decodeMagic blockMagic = .token .block 48 := if_pos rfl

theorem decodeMagic_eos : decodeMagic eosMagic = .token .eos 48 := (if_neg (by decide)).trans (if_pos rfl)

/-- A direction bit, in either sense, gives its token back. -/
theorem decodeDelta_inc (sense : DeltaSense) (rest : List Bool) :
    decodeDelta sense (true :: incBit sense :: rest) = .token .linc 2 := if_pos rfl

theorem decodeDelta_dec (sense : DeltaSense) (rest : List Bool) :
    decodeDelta sense (true :: (!incBit sense) :: rest) = .token .ldec 2 := if_neg (Bool.not_ne_self _)

/-- Every token whose bits need no table comes back, whatever bits follow. -/
theorem decode_encode_append (c : Context) (i : Instr) (rest : List Bool) (hhost : i.hostOffset = none)
    (hsym : i.symbol? c.alpha = none) (hphase : c.phase = i.phase) (hsel : ∀ k, i = .sel k → k < c.nGroups) :
    decode c (encode c i ++ rest) = .token i (encode c i).length := by
  rw [decode, hphase]
  cases i with
  | hdr d => exact (decodeField_hdr d rest).trans (by rw [Laws.TokenLength.hdr d c]; rfl)
  | block =>
    refine (decodeField_bitsOfNat 48 blockMagic rest decodeMagic).trans ?_
    rw [Nat.mod_eq_of_lt (by decide), decodeMagic_block, Laws.TokenLength.block c]; rfl
  | eos =>
    refine (decodeField_bitsOfNat 48 eosMagic rest decodeMagic).trans ?_
    rw [Nat.mod_eq_of_lt (by decide), decodeMagic_eos, Laws.TokenLength.eos c]; rfl
  | scrc v => exact decodeField_encoded v rest .scrc
  | bcrc v => exact decodeField_encoded v rest .bcrc
  | rand r => exact decodeField_encoded r rest .rand
  | ptr p => exact decodeField_encoded p rest .ptr
  | map1 m => exact decodeField_encoded m rest .map1
  | map2 m => exact decodeField_encoded m rest .map2
  | ngrp g => exact decodeField_encoded g rest .ngrp
  | nsel n => exact decodeField_encoded n rest .nsel
  | len5 l => exact decodeField_encoded l rest .len5
  | sel k =>
    have hk := decodeUnary_ones_zero c.nGroups rest k 0 (.inr (by have := hsel k rfl; omega))
    simpa [encode, Instr.phase] using hk
  | lkeep => rfl
  | linc => exact decodeDelta_inc c.sense rest
  | ldec => exact decodeDelta_dec c.sense rest
  | build | ibwt | rle | check => rfl
  | runa | runb | mtf _ | eob => exact absurd hsym (Option.some_ne_none _)
  | start _ | irqEnSet _ | doneClr _ | inLenSet _ | outCapSet _ => exact absurd hhost (Option.some_ne_none _)

/-! ### Host commands -/

/-- The bits of a host command are those of the word it writes. -/
theorem ofNat_natOfBits_encode {i : Instr} {off : Nat} (c : Context) (h : i.hostOffset = some off) :
    BitVec.ofNat 32 (natOfBits (encode c i)) = i.hostWord := by
  have hword : ∀ v : BitVec 32, BitVec.ofNat 32 (natOfBits (bitsOfNat 32 v.toNat)) = v := fun v => by
    rw [natOfBits_bitsOfNat_toNat, BitVec.ofNat_toNat, BitVec.setWidth_eq]
  cases i
  case start v | irqEnSet v | doneClr v | inLenSet v | outCapSet v => exact hword v
  all_goals exact absurd h.symm (Option.some_ne_none _)

/-- A host command comes back from the offset and the word it writes: its name is fixed by the word's bits. -/
theorem decodeHost_hostWord {i : Instr} {off : Nat} (hwf : i.wellFormed = true) (h : i.hostOffset = some off) :
    decodeHost off i.hostWord = some i := by
  cases i
  case start v =>
    obtain rfl := Option.some.inj h
    exact congrArg some (if_pos hwf)
  case irqEnSet v =>
    obtain rfl := Option.some.inj h
    exact congrArg some (if_neg (Bool.eq_false_iff.1 (Bool.not_inj hwf)))
  case doneClr v =>
    obtain rfl := Option.some.inj h
    exact if_pos hwf
  case inLenSet v | outCapSet v =>
    obtain rfl := Option.some.inj h
    rfl
  all_goals exact absurd h.symm (Option.some_ne_none _)

/-! ### Symbol tokens -/

/-- The first bits of a field are its value shifted down. -/
theorem natOfBits_take (l : List Bool) (m : Nat) :
    natOfBits (l.take m) = natOfBits l / 2 ^ (l.length - m) := by
  have hlow : natOfBits (l.drop m) < 2 ^ (l.length - m) := (natOfBits_lt _).trans_eq (by rw [List.length_drop])
  have hsplit := natOfBits_append (l.take m) (l.drop m)
  rw [List.take_append_drop, List.length_drop] at hsplit
  rw [hsplit, Nat.mul_add_div (Nat.two_pow_pos _), Nat.div_eq_of_lt hlow, Nat.add_zero]

/-- A symbol token's symbol gives the token back in the classes' order. -/
theorem symbolToken_of_symbol? {alpha sym : Nat} {i : Instr} (h3 : 3 ≤ alpha) (hi : i.symbol? alpha = some sym)
    (hmtf : ∀ s, i = .mtf s → 2 ≤ s ∧ s + 2 ≤ alpha) : symbolToken alpha sym = i ∧ sym < alpha := by
  obtain ⟨hrunA, hrunB, heob, hclass⟩ := Machine.symbolToken_classes h3
  cases i
  case runa => obtain rfl := Option.some.inj hi; exact ⟨hrunA, by omega⟩
  case runb => obtain rfl := Option.some.inj hi; exact ⟨hrunB, by omega⟩
  case eob => obtain rfl := Option.some.inj hi; exact ⟨heob, by omega⟩
  case mtf s =>
    obtain rfl := Option.some.inj hi
    obtain ⟨h2, hs⟩ := hmtf s rfl
    exact ⟨hclass s h2 (by omega), by omega⟩
  all_goals exact absurd hi.symm (Option.some_ne_none _)

/-- A symbol token's encoding is its symbol's code. -/
theorem encode_of_symbol? {c : Context} {i : Instr} {sym : Nat} (h : i.symbol? c.alpha = some sym) :
    encode c i = codeBits c.table sym := by
  cases i
  case runa | runb | mtf _ | eob => obtain rfl := Option.some.inj h; rfl
  all_goals exact absurd h.symm (Option.some_ne_none _)

end Sys2Proof

namespace Sys2Proof.Machine

open Sys2Proof.Claims

/-! ### The match in a canonical table -/

theorem mem_present_buildTable {lens : List Nat} {n : Nat} : n ∈ (buildTable lens).present ↔ n ∈ lens := by
  rw [show (buildTable lens).present =
    (List.range (lens.foldr max 0 + 1)).filter fun n => lens.contains n from rfl, List.mem_filter, List.mem_range,
    List.contains_iff_mem]
  exact ⟨And.right, fun h => ⟨Nat.lt_succ_of_le (le_foldr_max lens n h), h⟩⟩

theorem pairwise_present_buildTable (lens : List Nat) : (buildTable lens).present.Pairwise (· < ·) :=
  List.Pairwise.filter _ List.pairwise_lt_range

/-- The lengths before `n` in `present` are the shorter ones. -/
theorem exists_present_split {lens : List Nat} {n : Nat} (h : n ∈ lens) :
    ∃ pre post, (buildTable lens).present = pre ++ n :: post ∧ ∀ m ∈ pre, m < n := by
  obtain ⟨pre, post, hsplit⟩ := List.append_of_mem (mem_present_buildTable.2 h)
  have hpw := pairwise_present_buildTable lens
  rw [hsplit] at hpw
  exact ⟨pre, post, hsplit, fun m hm => (List.pairwise_append.1 hpw).2.2 m hm n List.mem_cons_self⟩

section
variable {lens : List Nat} {sym : Nat} (hfits : (buildTable lens).code.getD sym 0 < 2 ^ lens.getD sym 0)
  (hsym : sym < lens.length) (rest : List Bool)
include hfits

/-- The code's first `m` bits are the code shifted down. -/
theorem natOfBits_take_codeBits {m : Nat} (hm : m ≤ lens.getD sym 0) :
    natOfBits ((codeBits (buildTable lens) sym ++ rest).take m) =
      (buildTable lens).code.getD sym 0 / 2 ^ (lens.getD sym 0 - m) := by
  have hlen : (codeBits (buildTable lens) sym).length = lens.getD sym 0 := length_bitsOfNat _ _
  have hcode : natOfBits (codeBits (buildTable lens) sym) = (buildTable lens).code.getD sym 0 :=
    (natOfBits_bitsOfNat _ _).trans (Nat.mod_eq_of_lt hfits)
  rw [List.take_append_of_le_length (hm.trans_eq hlen.symm), natOfBits_take, hlen, hcode]

include hsym

/-- No code of a shorter length stands at the front: a canonical code is past every earlier one extended to its length. -/
theorem missed_of_shorter {m : Nat} (hm : m < lens.getD sym 0) :
    Missed (buildTable lens) (codeBits (buildTable lens) sym ++ rest) m := by
  refine ⟨by simp only [codeBits, List.length_append, length_bitsOfNat]; exact hm.le.trans (Nat.le_add_right _ _), ?_⟩
  rintro s hs ⟨hlen, hcode⟩
  have hlen : lens.getD s 0 = m := hlen
  have hstep := code_step (mem_sortedSymbols.1 hs) hsym (.inl (hlen ▸ hm))
  rw [natOfBits_take_codeBits hfits rest hm.le] at hcode
  have := (Nat.le_div_iff_mul_le (Nat.two_pow_pos _)).2 hstep
  rw [hlen] at this
  omega

/-- At the code's own length the match finds its symbol. -/
theorem matchCode_codeBits : matchCode (buildTable lens) (lens.getD sym 0)
    (natOfBits ((codeBits (buildTable lens) sym ++ rest).take (lens.getD sym 0))) = some sym := by
  have hvalue := natOfBits_take_codeBits hfits rest le_rfl
  rw [Nat.sub_self, pow_zero, Nat.div_one] at hvalue
  obtain ⟨p, q, hperm⟩ := List.append_of_mem (mem_sortedSymbols.2 hsym)
  refine matchCode_of_first_hit hperm ?_ ⟨rfl, hvalue.symm⟩
  rintro r hr ⟨hlen, hcode⟩
  have hrlt : r < lens.length := mem_sortedSymbols.1 (hperm ▸ List.mem_append_left _ hr)
  have hne : r ≠ sym := by
    have hnodup := nodup_sortedSymbols lens
    rw [hperm, List.nodup_append] at hnodup
    exact hnodup.2.2 r hr sym List.mem_cons_self
  exact code_injective hrlt hsym hne hlen (hcode.trans hvalue)

/-- The match of a symbol's code, whatever bits follow. -/
theorem decodeHuff_codeBits (alpha : Nat) :
    decodeHuff alpha (buildTable lens) (codeBits (buildTable lens) sym ++ rest) (buildTable lens).present =
      .token (symbolToken alpha sym) (lens.getD sym 0) := by
  obtain ⟨pre, post, hpresent, hpre⟩ : ∃ pre post, (buildTable lens).present = pre ++ lens.getD sym 0 :: post
      ∧ ∀ m ∈ pre, m < lens.getD sym 0 :=
    exists_present_split (by rw [List.getD_eq_getElem _ _ hsym]; exact List.getElem_mem hsym)
  rw [hpresent, decodeHuff_append_missed _ pre fun m hm => missed_of_shorter hfits hsym rest (hpre m hm)]
  refine decodeHuff_cons_match post ?_ (matchCode_codeBits hfits hsym rest)
  simp only [codeBits, List.length_append, length_bitsOfNat]
  exact Nat.le_add_right _ _

end

/-! ### The statements -/

/-- Settles O3: a canonical code misses at every shorter length and is the only one of its own. -/
theorem decodeEncodeSymbolTokens : Obligations.DecodeEncodeSymbolTokens := by
  intro c lens i sym rest hphase htable halpha h3 hi hmtf hfits
  obtain ⟨htoken, hlt⟩ := symbolToken_of_symbol? h3 hi hmtf
  rw [htable] at hfits
  rw [encode_of_symbol? hi, decode_symbol hphase, htable, decodeHuff_codeBits hfits (halpha ▸ hlt), htoken]

/-- Settles O2: the cases are the formats; a host command's offset and word fix its name. -/
theorem decodeEncodeStreamTokens : Obligations.DecodeEncodeStreamTokens := by
  refine ⟨fun c i rest _ => decode_encode_append c i rest, fun c i off hwf hoff => ?_⟩
  rw [ofNat_natOfBits_encode c hoff, decodeHost_hostWord hwf hoff]

/-- Settles O1: each word is decoded as it stands; the symbol's table is the one built from its lengths. -/
theorem decodesTheSpecsWords : Obligations.DecodesTheSpecsWords := by
  unfold Obligations.DecodesTheSpecsWords
  decide

end Sys2Proof.Machine

/-! ## Frames: what a token, a host command and an engine turn can change (10_state.md R21..R33, 20_memory.md R63) -/

namespace Sys2Proof.Machine

open Sys2Proof.Claims

/-! ### All that a token can do -/

/-- What RLE's emission leaves: OUT_MEM and `fin_len` written, inside the room between OUT_LEN and OUT_CAP. -/
structure Emitted (s u : State) : Prop where
  frame   : u = { s with outMem := u.outMem, finLen := u.finLen }
  room    : u.finLen ≤ s.outCap.toNat - s.outLen.toNat
  outside : ∀ a, a < s.outLen.toNat ∨ s.outLen.toNat + (s.outCap.toNat - s.outLen.toNat) ≤ a →
    Memory.read .output u.outMem a = Memory.read .output s.outMem a
  wf      : Memory.wf s.outMem = true → Memory.wf u.outMem = true
  listed  : ∀ e ∈ u.outMem, e ∈ s.outMem ∨ e.1 < s.outLen.toNat + (s.outCap.toNat - s.outLen.toNat)

/-- The state of a CHECK that commits. -/
def committed (s : State) : State := commit { s with blockCrcCalc := s.bcrc }

/-- All that a token or internal operation can do: the frame, RLE's emission, or CHECK's commit. -/
inductive TokenOutcome (i : Instr) (s : State) : State → Prop where
  | framed (t : State) (h : TokenFrame s t) (hr : i ≠ .rle) : TokenOutcome i s t
  | overflowed (u : State) (hi : i = .rle) (h : Emitted s u) : TokenOutcome i s (fail .outCap u)
  | emitted (u : State) (c : U32) (hi : i = .rle) (h : Emitted s u) :
      TokenOutcome i s { u with bcrc := c, phase := .check }
  | commits (hi : i = .check) (h : s.bcrc = s.storedCrc) : TokenOutcome i s (committed s)

theorem exec_outcome {i : Instr} {s t : State} (h : exec i s = .next t) (hh : i.hostOffset = none) :
    TokenOutcome i s t := by
  by_cases hr : i = .rle
  · subst hr
    obtain ⟨u, frame, room, outside, wf, listed, rfl | ⟨c, rfl⟩⟩ := execRle_frame h
    · exact .overflowed u rfl ⟨frame, room, outside, wf, listed⟩
    · exact .emitted u c rfl ⟨frame, room, outside, wf, listed⟩
  · by_cases hc : i = .check ∧ s.bcrc = s.storedCrc
    · obtain ⟨rfl, hcrc⟩ := hc
      rw [exec_check_commits hcrc] at h
      obtain rfl := Host.Outcome.next.inj h
      exact .commits rfl hcrc
    · exact .framed t (exec_frame h hh hr fun hi he => hc ⟨hi, he⟩) hr

theorem hostOffset_eq_none_iff {i : Instr} : i.hostOffset = none ↔ ¬ HostCommand i := by
  rw [HostCommand, Bool.not_eq_true, Option.isSome_eq_false_iff, Option.isNone_iff_eq_none]

/-- The host's side of the state, which no token writes. -/
structure SameHostSide (s t : State) : Prop where
  cfg      : t.cfg = s.cfg
  irqEn    : t.irqEn = s.irqEn
  inLen    : t.inLen = s.inLen
  outCap   : t.outCap = s.outCap
  inMem    : t.inMem = s.inMem
  schedule : t.schedule = s.schedule

theorem SameHostSide.of_keeps {s t : State} (k : Keeps s t) : SameHostSide s t :=
  ⟨k.cfg, k.irqEn, k.inLen, k.outCap, k.inMem, k.schedule⟩

theorem SameHostSide.fail {s u : State} (h : SameHostSide s u) (c : Cause) : SameHostSide s (fail c u) :=
  ⟨h.cfg, h.irqEn, h.inLen, h.outCap, h.inMem, h.schedule⟩

theorem Emitted.sameHostSide {s u : State} (h : Emitted s u) : SameHostSide s u := by
  rw [h.frame]
  exact ⟨rfl, rfl, rfl, rfl, rfl, rfl⟩

theorem exec_sameHostSide {i : Instr} {s t : State} (h : exec i s = .next t) (hh : i.hostOffset = none) :
    SameHostSide s t := by
  cases exec_outcome h hh with
  | framed t hf _ =>
    cases hf with
    | failed c u k => exact (SameHostSide.of_keeps k).fail c
    | finished u k => exact ⟨k.cfg, k.irqEn, k.inLen, k.outCap, k.inMem, k.schedule⟩
    | goesOn t k _ => exact .of_keeps k
  | overflowed u _ he => exact he.sameHostSide.fail _
  | emitted u c _ he =>
    have k := he.sameHostSide
    exact ⟨k.cfg, k.irqEn, k.inLen, k.outCap, k.inMem, k.schedule⟩
  | commits _ _ => exact ⟨rfl, rfl, rfl, rfl, rfl, rfl⟩

/-- Only RLE's emission writes OUT_MEM. -/
theorem exec_outMem {i : Instr} {s t : State} (h : exec i s = .next t) (hh : i.hostOffset = none) (hr : i ≠ .rle) :
    t.outMem = s.outMem := by
  cases exec_outcome h hh with
  | framed t hf _ =>
    cases hf with
    | failed _ _ k | finished _ k | goesOn _ k => exact k.outMem
  | overflowed u hi _ | emitted u _ hi _ => exact absurd hi hr
  | commits _ _ => rfl

/-! ### All that a host command can do -/

/-- A host command's effect, one case a register. -/
inductive CommandOutcome (s : State) : Instr → State → Prop where
  | start (v : U32) : CommandOutcome s (.start v) (ctrlWrite v s)
  | irqEnSet (v : U32) : CommandOutcome s (.irqEnSet v) (ctrlWrite v s)
  | doneClr (v : U32) (d : Bool) (hd : d = true → s.done = true) : CommandOutcome s (.doneClr v) { s with done := d }
  | ignored (i : Instr) : CommandOutcome s i s
  | inLenSet (v : U32) (hb : s.busy = false) :
      CommandOutcome s (.inLenSet v) { s with inLen := BitVec.ofNat 32 (min v.toNat s.cfg.inMemBytes) }
  | outCapSet (v : U32) (hb : s.busy = false) :
      CommandOutcome s (.outCapSet v) { s with outCap := BitVec.ofNat 32 (min v.toNat s.cfg.outMemBytes.toNat) }

theorem exec_command {i : Instr} {s t : State} (h : exec i s = .next t) (hh : HostCommand i) :
    CommandOutcome s i t := by
  cases i
  case start v =>
    obtain rfl := Host.Outcome.next.inj h
    exact .start v
  case irqEnSet v =>
    obtain rfl := Host.Outcome.next.inj h
    exact .irqEnSet v
  case doneClr v =>
    rw [exec_doneClr] at h
    obtain rfl := Host.Outcome.next.inj h
    split
    · exact .doneClr v false Bool.noConfusion
    · exact .ignored _
  case inLenSet v =>
    cases hb : s.busy with
    | true =>
      rw [exec_inLenSet_busy v hb] at h
      obtain rfl := Host.Outcome.next.inj h
      exact .ignored _
    | false =>
      rw [exec_inLenSet_idle v hb] at h
      obtain rfl := Host.Outcome.next.inj h
      exact .inLenSet v hb
  case outCapSet v =>
    cases hb : s.busy with
    | true =>
      rw [exec_outCapSet_busy v hb] at h
      obtain rfl := Host.Outcome.next.inj h
      exact .ignored _
    | false =>
      rw [exec_outCapSet_idle v hb] at h
      obtain rfl := Host.Outcome.next.inj h
      exact .outCapSet v hb
  all_goals exact absurd hh Bool.noConfusion

/-- A CTRL write keeps the memories, the parameters and the lengths. -/
theorem ctrlWrite_keeps (v : U32) (s : State) :
    (ctrlWrite v s).cfg = s.cfg ∧ (ctrlWrite v s).inMem = s.inMem ∧ (ctrlWrite v s).outMem = s.outMem
      ∧ (ctrlWrite v s).inLen = s.inLen ∧ (ctrlWrite v s).outCap = s.outCap := by
  by_cases h : v.getLsbD 0 = true ∧ s.busy = false
  · rw [ctrlWrite_starts h.1 h.2]; exact ⟨rfl, rfl, rfl, rfl, rfl⟩
  · rw [ctrlWrite_no_start h]; exact ⟨rfl, rfl, rfl, rfl, rfl⟩

theorem exec_command_outMem {i : Instr} {s t : State} (h : exec i s = .next t) (hh : HostCommand i) :
    t.outMem = s.outMem := by
  cases exec_command h hh with
  | start v | irqEnSet v =>
    obtain ⟨-, -, hout, -, -⟩ := ctrlWrite_keeps v s
    exact hout
  | doneClr | ignored | inLenSet | outCapSet => rfl

/-! ### Frames of the whole instruction set -/

/-- Settles O48: a token keeps the host's side; each command writes its own register. -/
theorem inputsChangeOnlyByTheirWrites : Obligations.InputsChangeOnlyByTheirWrites := by
  intro i s t h
  by_cases hh : HostCommand i
  · cases exec_command h hh with
    | start v =>
      obtain ⟨hcfg, hin, -, hlen, hcap⟩ := ctrlWrite_keeps v s
      exact ⟨hcfg, fun a => by rw [hin], fun _ => hlen, fun _ => hcap, fun hi => absurd rfl (hi v).1⟩
    | irqEnSet v =>
      obtain ⟨hcfg, hin, -, hlen, hcap⟩ := ctrlWrite_keeps v s
      exact ⟨hcfg, fun a => by rw [hin], fun _ => hlen, fun _ => hcap, fun hi => absurd rfl (hi v).2⟩
    | doneClr | ignored => exact ⟨rfl, fun _ => rfl, fun _ => rfl, fun _ => rfl, fun _ => rfl⟩
    | inLenSet v => exact ⟨rfl, fun _ => rfl, fun hi => absurd rfl (hi v), fun _ => rfl, fun _ => rfl⟩
    | outCapSet v => exact ⟨rfl, fun _ => rfl, fun _ => rfl, fun hi => absurd rfl (hi v), fun _ => rfl⟩
  · have k := exec_sameHostSide h (hostOffset_eq_none_iff.2 hh)
    exact ⟨k.cfg, fun a => by rw [k.inMem], fun _ => k.inLen, fun _ => k.outCap, fun _ => k.irqEn⟩

/-- Settles O49: a run that goes on, RLE's emission and a commit all keep the flags. -/
theorem tokensWriteNoFlags : Obligations.TokensWriteNoFlags := by
  intro i s t hh h hphase
  cases exec_outcome h (hostOffset_eq_none_iff.2 hh) with
  | framed t hf _ =>
    cases hf with
    | failed c u k => exact absurd rfl hphase
    | finished u k => exact absurd rfl hphase
    | goesOn t k _ => exact ⟨k.busy, k.done, k.err, k.errKind, k.errCause, k.errBitpos⟩
  | overflowed u _ he => exact absurd rfl hphase
  | emitted u c _ he =>
    rw [he.frame]
    exact ⟨rfl, rfl, rfl, rfl, rfl, rfl⟩
  | commits _ _ => exact ⟨rfl, rfl, rfl, rfl, rfl, rfl⟩

/-- Settles O50: only RLE's emission writes OUT_MEM, and it stays in its room. -/
theorem outputMemoryFrame : Obligations.OutputMemoryFrame := by
  intro i s t h
  refine ⟨fun hr a => ?_, fun hi hcap a ha => ?_⟩
  · by_cases hh : HostCommand i
    · rw [exec_command_outMem h hh]
    · rw [exec_outMem h (hostOffset_eq_none_iff.2 hh) hr]
  · subst hi
    cases exec_outcome h rfl with
    | framed _ _ hr => exact absurd rfl hr
    | overflowed u _ he | emitted u _ _ he => exact he.outside a (by rwa [Nat.add_sub_cancel' hcap])
    | commits hi _ => exact absurd hi Instr.noConfusion

/-- Settles O51: a commit and a CTRL write that starts a run are the only outcomes that change a result. -/
theorem resultsChangeOnlyAtCommit : Obligations.ResultsChangeOnlyAtCommit := by
  intro i s t h hchange
  have kept : ¬ (t.outLen = s.outLen ∧ t.streamCrc = s.streamCrc ∧ t.blockCount = s.blockCount) := by
    rintro ⟨hlen, hcrc, hcount⟩
    rcases hchange with hne | hne | hne
    · exact hne hlen
    · exact hne hcrc
    · exact hne hcount
  have starts : ∀ v, t = ctrlWrite v s → v.getLsbD 0 = true ∧ s.busy = false ∧ t.phase = .header := by
    rintro v rfl
    by_cases hv : v.getLsbD 0 = true ∧ s.busy = false
    · rw [ctrlWrite_starts hv.1 hv.2]
      exact ⟨hv.1, hv.2, rfl⟩
    · rw [ctrlWrite_no_start hv] at kept
      exact absurd ⟨rfl, rfl, rfl⟩ kept
  by_cases hh : HostCommand i
  · cases exec_command h hh with
    | start v => exact .inr ⟨v, .inl rfl, starts v rfl⟩
    | irqEnSet v => exact .inr ⟨v, .inr rfl, starts v rfl⟩
    | doneClr | ignored | inLenSet | outCapSet => exact absurd ⟨rfl, rfl, rfl⟩ kept
  · cases exec_outcome h (hostOffset_eq_none_iff.2 hh) with
    | framed t hf hr =>
      refine absurd ?_ kept
      cases hf with
      | failed _ _ k | finished _ k | goesOn _ k => exact ⟨k.outLen, k.streamCrc, k.blockCount⟩
    | overflowed u hi he =>
      rw [he.frame] at kept
      exact absurd ⟨rfl, rfl, rfl⟩ kept
    | emitted u c hi he =>
      rw [he.frame] at kept
      exact absurd ⟨rfl, rfl, rfl⟩ kept
    | commits hi hcrc => exact .inl ⟨hi, hcrc, rfl⟩

/-- Settles O47: no meaning has a branch that faults or refuses. -/
theorem everyInstructionAnswersANextState : Obligations.EveryInstructionAnswersANextState := exec_next

/-! ### An engine step's phase and cursor -/

/-- The state a run ends in, or a symbol is decoded in, is the state itself or the group switch's. -/
theorem keeps_fetched {s u : State} (hu : u = s ∨ groupSwitch s = some u) : Keeps s u := by
  rcases hu with rfl | hu
  · exact .refl u
  · exact keeps_groupSwitch hu

/-- A fetched token that does not end the run moves the cursor by its encoding's length. -/
theorem fetched_pos {i : Instr} {s t u : State} (h : exec i s = .next t) (hp : i.phase = s.phase)
    (hh : i.hostOffset = none) (hu : (s.phase ≠ .symbol ∧ u = s) ∨ (s.phase = .symbol ∧ groupSwitch s = some u))
    (ht : t.phase ≠ .idle) : t.pos = s.pos + BitVec.ofNat 32 (encode (context u) i).length :=
  (exec_pos h hh (hu.imp (fun ⟨hs, he⟩ => ⟨fun e => hs (hp.symm.trans e), he⟩) And.right)).resolve_left ht

/-- Settles O52: a run ends in the fetch, or a token of the phase's kind runs. -/
theorem phasesFollowTheTransitionTable : Obligations.PhasesFollowTheTransitionTable := by
  intro s t ha hphase h
  rw [step_alone ha] at h
  rcases engineTurn_cases h with ⟨hidle, -⟩ | ⟨c, u, n, rfl, -, -, -⟩ | ⟨i, u, hexec, hp, hh, -, -, -⟩
  · exact absurd hidle hphase
  · exact .inl rfl
  · exact exec_phase hexec hh hp

/-- A decoded token is of the context's phase, no host command, and as long as its encoding. -/
theorem decode_token {c : Context} {bits : List Bool} {i : Instr} {n : Nat} (h : decode c bits = .token i n) :
    i.phase = c.phase ∧ i.hostOffset = none ∧ n = (encode c i).length ∧ n ≤ bits.length := by
  rcases decode_bounds c bits with ⟨j, m, hd, hp, hh, hm, hl⟩ | ⟨m, hd, -⟩ | ⟨e, m, hd, -⟩ | ⟨hd, -⟩
  · obtain ⟨rfl, rfl⟩ := Decoded.token.inj (h.symm.trans hd)
    exact ⟨hp, hh, hm, hl⟩
  all_goals exact absurd (h.symm.trans hd) Decoded.noConfusion

/-- Settles O53: the decoder's count is the encoding's length, and that is how far the token moves the cursor. -/
theorem tokensAdvanceByTheirLength : Obligations.TokensAdvanceByTheirLength := by
  intro s t i n h hphase
  refine ⟨fun hp hd => ?_, fun hp hready hd => ?_⟩
  · obtain ⟨hkind, hh, rfl, -⟩ := decode_token hd
    exact (exec_pos h hh (.inl ⟨fun hi => hp (hkind.symm.trans hi), rfl⟩)).resolve_left hphase
  · obtain ⟨-, hh, rfl, -⟩ := decode_token hd
    exact (exec_pos h hh (.inr (groupSwitch_ready hready))).resolve_left hphase

end Sys2Proof.Machine

/-! ## The machine's invariant (10_state.md R21, R24..R27, R40) -/

namespace Sys2Proof.Machine

open Sys2Proof.Claims

/-! ### What the invariant does not see, and what it sees of a memory or a length -/

theorem inv_withSchedule {s : State} (hI : Inv s) (rest : List Turn) : Inv { s with schedule := rest } :=
  ⟨hI.params, hI.busy, hI.memories, hI.lengths, hI.cursor, hI.output, hI.errors⟩

theorem inv_withIrqEn {s : State} (hI : Inv s) (b : Bool) : Inv { s with irqEn := b } :=
  ⟨hI.params, hI.busy, hI.memories, hI.lengths, hI.cursor, hI.output, hI.errors⟩

theorem inv_withBusData {s : State} (hI : Inv s) (w : U32) : Inv { s with busData := w } :=
  ⟨hI.params, hI.busy, hI.memories, hI.lengths, hI.cursor, hI.output, hI.errors⟩

theorem inv_withBlockCrcCalc {s : State} (hI : Inv s) (w : U32) : Inv { s with blockCrcCalc := w } :=
  ⟨hI.params, hI.busy, hI.memories, hI.lengths, hI.cursor, hI.output, hI.errors⟩

/-- DONE may be cleared at any time, and stays clear during a run. -/
theorem inv_withDone {s : State} (hI : Inv s) {d : Bool} (hd : d = true → s.done = true) : Inv { s with done := d } := by
  refine ⟨hI.params, hI.busy, hI.memories, hI.lengths, hI.cursor, hI.output, hI.errors.1, fun hb => ?_⟩
  obtain ⟨hdone, herr⟩ := hI.errors.2 hb
  exact ⟨Bool.eq_false_iff.2 fun h => Bool.eq_false_iff.1 hdone (hd h), herr⟩

/-- The two length registers are the host's while the engine is idle. -/
theorem inv_withLengths {s : State} (hI : Inv s) (hb : s.busy = false) {n m : U32}
    (hn : n.toNat ≤ s.cfg.inMemBytes) (hm : m.toNat ≤ s.cfg.outMemBytes.toNat) :
    Inv { s with inLen := n, outCap := m } := by
  have hidle : s.phase = .idle := by
    by_contra hp
    exact Bool.eq_false_iff.1 hb (hI.busy.2 hp)
  refine ⟨hI.params, hI.busy, hI.memories, ⟨hn, hm⟩, fun h => absurd h (Bool.eq_false_iff.1 hb),
    ⟨fun h => absurd h (Bool.eq_false_iff.1 hb), fun h => ?_⟩, hI.errors⟩
  exact absurd (hidle.symm.trans h) Phase.noConfusion

/-- A byte written below a memory's size keeps the memory legal. -/
theorem memory_write_legal {m : Memory} {a size : Nat} (b : Byte) (hwf : Memory.wf m = true)
    (hsize : ∀ e ∈ m, e.1 < size) (ha : a < size) :
    Memory.wf (Memory.write m a b) = true ∧ ∀ e ∈ Memory.write m a b, e.1 < size := by
  refine ⟨Memory.wf_write hwf a b, fun e he => ?_⟩
  rcases Memory.mem_write he with rfl | he
  · exact ha
  · exact hsize e he

/-! ### The host's moves -/

theorem inv_startRun {s : State} (hI : Inv s) : Inv (startRun s) where
  params := hI.params
  busy := ⟨fun _ => Phase.noConfusion, fun _ => rfl⟩
  memories := hI.memories
  lengths := hI.lengths
  cursor := fun _ => Nat.zero_le _
  output := ⟨fun _ => Nat.zero_le _, fun h => Phase.noConfusion h⟩
  errors := ⟨.inl ⟨rfl, rfl, rfl⟩, fun _ => ⟨rfl, rfl⟩⟩

theorem inv_ctrlWrite {s : State} (hI : Inv s) (v : U32) : Inv (ctrlWrite v s) := by
  by_cases h : v.getLsbD 0 = true ∧ s.busy = false
  · rw [ctrlWrite_starts h.1 h.2]; exact inv_startRun (inv_withIrqEn hI _)
  · rw [ctrlWrite_no_start h]; exact inv_withIrqEn hI _

theorem inv_command {i : Instr} {s t : State} (hI : Inv s) (hh : HostCommand i) (h : exec i s = .next t) : Inv t := by
  cases exec_command h hh with
  | start v | irqEnSet v => exact inv_ctrlWrite hI v
  | doneClr v d hd => exact inv_withDone hI hd
  | ignored => exact hI
  | inLenSet v hb =>
    exact inv_withLengths hI hb ((toNat_ofNat_min v _).trans_le (Nat.min_le_right _ _)) hI.lengths.2
  | outCapSet v hb =>
    exact inv_withLengths hI hb hI.lengths.1 ((toNat_ofNat_min v _).trans_le (Nat.min_le_right _ _))

/-- The reset input leaves an idle engine with clear registers and the memories it found. -/
theorem inv_resetInput {s : State} (hI : Inv s) : Inv (resetInput s) where
  params := hI.params
  busy := ⟨Bool.noConfusion, fun h => absurd rfl h⟩
  memories := hI.memories
  lengths := ⟨Nat.zero_le _, Nat.zero_le _⟩
  cursor := Bool.noConfusion
  output := ⟨Bool.noConfusion, Phase.noConfusion⟩
  errors := ⟨.inl ⟨rfl, rfl, rfl⟩, Bool.noConfusion⟩

/-- The commands a register write can be are host commands. -/
theorem decodeHost_command {off : Nat} {v : U32} {i : Instr} (h : decodeHost off v = some i) : HostCommand i := by
  unfold decodeHost at h
  split_ifs at h <;> obtain rfl := Option.some.inj h
  all_goals rfl

/-- All that a host move can do. -/
inductive MoveOutcome (s : State) : State → Prop where
  | busData (w : U32) : MoveOutcome s { s with busData := w }
  | command (i : Instr) (t : State) (hh : HostCommand i) (h : exec i s = .next t) : MoveOutcome s t
  | ignored : MoveOutcome s s
  | inWrite (a : Nat) (b : Byte) (ha : a < s.cfg.inMemBytes) (hb : s.busy = false) :
      MoveOutcome s { s with inMem := Memory.write s.inMem a b }
  | outWrite (a : Nat) (b : Byte) (free : List FreeSpan) (ha : a < s.cfg.outMemBytes.toNat) (hb : s.busy = false) :
      MoveOutcome s { s with outMem := Memory.write s.outMem a b, outFree := free }

theorem hostTurn_outcome {m : HostMove} {s t : State} (h : hostTurn m s = .next t) : MoveOutcome s t := by
  cases m with
  | regRead addr =>
    simp only [hostTurn] at h
    split at h
    · cases h
    · obtain rfl := Host.Outcome.next.inj h
      exact .busData _
  | regWrite addr v =>
    simp only [hostTurn] at h
    split at h
    · cases h
    · split at h
      next hi => exact .command _ t (decodeHost_command hi) h
      next =>
        obtain rfl := Host.Outcome.next.inj h
        exact .ignored
  | inWrite a b =>
    simp only [hostTurn, hostInWrite] at h
    split_ifs at h with ha hb
    obtain rfl := Host.Outcome.next.inj h
    exact .inWrite a b (Nat.not_le.1 ha) (Bool.eq_false_iff.2 hb)
  | outWrite a b =>
    simp only [hostTurn, hostOutWrite] at h
    split_ifs at h with ha hb
    obtain rfl := Host.Outcome.next.inj h
    exact .outWrite a b _ (Nat.not_le.1 ha) (Bool.eq_false_iff.2 hb)
  | outRead a =>
    simp only [hostTurn] at h
    split_ifs at h
    obtain rfl := Host.Outcome.next.inj h
    exact .busData _

theorem inv_hostTurn {m : HostMove} {s t : State} (hI : Inv s) (h : hostTurn m s = .next t) : Inv t := by
  obtain ⟨hin, hout, hinSize, houtSize⟩ := hI.memories
  cases hostTurn_outcome h with
  | busData w => exact inv_withBusData hI w
  | command i _ hh hexec => exact inv_command hI hh hexec
  | ignored => exact hI
  | inWrite a b ha _ =>
    obtain ⟨hwf, hsize⟩ := memory_write_legal b hin hinSize ha
    exact ⟨hI.params, hI.busy, ⟨hwf, hout, hsize, houtSize⟩, hI.lengths, hI.cursor, hI.output, hI.errors⟩
  | outWrite a b free ha _ =>
    obtain ⟨hwf, hsize⟩ := memory_write_legal b hout houtSize ha
    exact ⟨hI.params, hI.busy, ⟨hin, hwf, hinSize, hsize⟩, hI.lengths, hI.cursor, hI.output, hI.errors⟩

/-! ### The engine's turn -/

theorem phase_ne_idle_of_token {i : Instr} {s : State} (hp : i.phase = s.phase) (hh : i.hostOffset = none) :
    s.phase ≠ .idle := by
  rw [← hp]
  cases i
  case start _ | irqEnSet _ | doneClr _ | inLenSet _ | outCapSet _ => exact absurd hh (Option.some_ne_none _)
  all_goals exact Phase.noConfusion

section
variable {s u : State} (hI : Inv s) (hp : s.phase = .rle) (he : Emitted s u)
include hI hp he

/-- A busy engine's room ends at OUT_CAP. -/
theorem rle_room : s.outLen.toNat + u.finLen ≤ s.outCap.toNat := by
  have hbusy : s.busy = true := hI.busy.2 (by rw [hp]; exact Phase.noConfusion)
  have hcap := hI.output.1 hbusy
  have hroom := he.room
  omega

/-- RLE's emission stays in OUT_MEM, so it keeps the invariant. -/
theorem inv_emitted : Inv u := by
  obtain ⟨hin, hout, hinSize, houtSize⟩ := hI.memories
  have hbusy : s.busy = true := hI.busy.2 (by rw [hp]; exact Phase.noConfusion)
  have hcap := hI.output.1 hbusy
  have hlisted : ∀ e ∈ u.outMem, e.1 < s.cfg.outMemBytes.toNat := fun e hmem => by
    rcases he.listed e hmem with h | h
    · exact houtSize e h
    · have := hI.lengths.2
      omega
  rw [he.frame]
  exact ⟨hI.params, hI.busy, ⟨hin, he.wf hout, hinSize, hlisted⟩, hI.lengths, hI.cursor,
    ⟨hI.output.1, fun h => absurd (hp.symm.trans h) Phase.noConfusion⟩, hI.errors⟩

theorem inv_emitted_check (c : U32) : Inv { u with bcrc := c, phase := .check } := by
  have hroom := rle_room hI hp he
  have hbusy : s.busy = true := hI.busy.2 (by rw [hp]; exact Phase.noConfusion)
  have hIu := inv_emitted hI hp he
  rw [he.frame] at hIu ⊢
  exact ⟨hIu.params, ⟨fun _ => Phase.noConfusion, fun _ => hbusy⟩, hIu.memories, hIu.lengths, hIu.cursor,
    ⟨hIu.output.1, fun _ => hroom⟩, hIu.errors⟩

end

/-- A commit's new OUT_LEN is the checked one: it does not wrap. -/
theorem inv_committed {s : State} (hI : Inv s) (hp : s.phase = .check) : Inv (committed s) := by
  have hroom := hI.output.2 hp
  have hbusy : s.busy = true := hI.busy.2 (by rw [hp]; exact Phase.noConfusion)
  have hcap := s.outCap.isLt
  refine ⟨hI.params, ⟨fun _ => Phase.noConfusion, fun _ => hbusy⟩, hI.memories, hI.lengths, hI.cursor,
    ⟨fun _ => ?_, fun h => Phase.noConfusion h⟩, hI.errors⟩
  show (s.outLen + BitVec.ofNat 32 s.finLen).toNat ≤ s.outCap.toNat
  rw [BitVec.toNat_add, BitVec.toNat_ofNat]
  omega

/-- A token found in its phase keeps the invariant, once its bits are left in the input. -/
theorem inv_token {i : Instr} {s t u : State} (hI : Inv s) (h : exec i s = .next t) (hp : i.phase = s.phase)
    (hh : i.hostOffset = none) (hu : (s.phase ≠ .symbol ∧ u = s) ∨ (s.phase = .symbol ∧ groupSwitch s = some u))
    (hl : (encode (context u) i).length ≤ bitsLeft s) : Inv t := by
  have hs := phase_ne_idle_of_token hp hh
  cases exec_outcome h hh with
  | framed t hf hr =>
    have hcheck := exec_not_check h hh hp hr
    cases hf with
    | failed c v k => exact inv_fail hI k c
    | finished v k => exact inv_finish hI k
    | goesOn t k hphase =>
      have ht : t.phase ≠ .idle := hphase.elim id fun e => by rwa [e]
      exact inv_on hI k hs ht hcheck (fetched_pos h hp hh hu ht ▸ cursor_advance hI hs hl)
  | overflowed v hi he =>
    subst hi
    exact inv_fail (inv_emitted hI hp.symm he) (.refl v) _
  | emitted v c hi he =>
    subst hi
    exact inv_emitted_check hI hp.symm he c
  | commits hi _ =>
    subst hi
    exact inv_committed hI hp.symm

theorem inv_engineTurn {s t : State} (hI : Inv s) (h : engineTurn s = .next t) : Inv t := by
  rcases engineTurn_cases h with ⟨-, rfl⟩ | ⟨c, u, n, rfl, hu, -, -⟩ | ⟨i, u, hexec, hp, hh, hu, -, hl⟩
  · exact hI
  · exact inv_fail hI ((keeps_fetched hu).trans (.advance n u)) c
  · exact inv_token hI hexec hp hh hu hl

/-! ### The statement -/

/-- What the engine's turn, a host move and the reset input keep, a step keeps: the turn is taken off the schedule
first. -/
theorem step_keeps {P : State → Prop} (hschedule : ∀ s rest, P s → P { s with schedule := rest })
    (hengine : ∀ s t, P s → engineTurn s = .next t → P t) (hhost : ∀ m s t, P s → hostTurn m s = .next t → P t)
    (hreset : ∀ s, P s → P (resetInput s)) {s t : State} (hs : P s) (h : step s = .next t) : P t := by
  unfold step takeTurn at h
  split at h
  · exact hengine s t hs h
  · exact hengine _ t (hschedule s _ hs) h
  · exact hhost _ _ t (hschedule s _ hs) h
  · obtain rfl := Host.Outcome.next.inj h
    exact hreset _ (hschedule s _ hs)

/-- Settles O55: the engine's turn, a host move and the reset input each keep the invariant. -/
theorem stepKeepsInv : Obligations.StepKeepsInv := fun _ _ =>
  step_keeps (fun _ rest hI => inv_withSchedule hI rest) (fun _ _ => inv_engineTurn) (fun _ _ _ => inv_hostTurn)
    fun _ => inv_resetInput

end Sys2Proof.Machine

/-! ## The block's invariant (43_selectors_and_tables.md R161, R166; 44_symbol_decode.md R184, R185) -/

namespace Sys2Proof.Machine

open Sys2Proof.Claims

/-! ### A block's state after one token -/

/-- Every built table has recorded lengths only. -/
def TablesRecorded (s : State) : Prop := ∀ t ∈ s.tbl, ∀ n ∈ t.present, LengthRecorded n

/-- From the bitmap's completion to the end of the symbol stream: the alphabet, the block's size and the tables. -/
structure AlphabetReady (s : State) : Prop where
  tables   : TablesRecorded s
  alphabet : 3 ≤ s.alpha ∧ s.mtf.length + 2 = s.alpha
  size     : s.size ≤ s.blkMax

theorem BlockInv.alphabetReady {s : State} (hI : BlockInv s) (h : AlphabetKnown s.phase) (hb : InBlock s.phase) :
    AlphabetReady s := ⟨hI.tables, hI.alphabet h, hI.size hb⟩

/-- The working state the invariant constrains is the same. -/
theorem AlphabetReady.congr {s t : State} (h : AlphabetReady s) (htbl : t.tbl = s.tbl) (halpha : t.alpha = s.alpha)
    (hmtf : t.mtf = s.mtf) (hsize : t.size = s.size) (hmax : t.blkMax = s.blkMax) : AlphabetReady t :=
  ⟨by rw [TablesRecorded, htbl]; exact h.tables, by rw [halpha, hmtf]; exact h.alphabet,
    by rw [hsize, hmax]; exact h.size⟩

/-- While no alphabet is known only the size is constrained. -/
theorem blockInv_noAlphabet {t : State} (ht : TablesRecorded t) (hs : t.size ≤ t.blkMax)
    (hp : ¬ AlphabetKnown t.phase) : BlockInv t := by
  refine ⟨ht, ?_, ?_, fun h => absurd h hp, ?_, fun _ => hs⟩ <;> intro h <;> rw [h] at hp <;>
    exact absurd trivial hp

/-- The phases with an alphabet that add no fact of their own. -/
def AlphabetOnly : Phase → Prop
  | .ngrp | .nsel | .lenStart | .symbol => True
  | _ => False

theorem blockInv_alphabet {t : State} (ht : AlphabetReady t) (hp : AlphabetOnly t.phase) : BlockInv t := by
  refine ⟨ht.tables, ?_, ?_, fun _ => ht.alphabet, ?_, fun _ => ht.size⟩ <;> intro h <;> rw [h] at hp <;>
    exact hp.elim

theorem blockInv_selector {t : State} (ht : AlphabetReady t) (hp : t.phase = .selector)
    (hm : t.selMtf.Perm (List.range t.nGroups)) : BlockInv t := by
  refine ⟨ht.tables, ?_, ?_, fun _ => ht.alphabet, fun _ => hm, fun _ => ht.size⟩ <;> intro h <;> rw [hp] at h <;> cases h

theorem blockInv_lenDelta {t : State} (ht : AlphabetReady t) (hp : t.phase = .lenDelta) (hs : t.lenS < t.alpha)
    (hrow : ∀ k < t.lenS, LengthRecorded ((t.lens.getD t.lenG []).getD k 0)) : BlockInv t := by
  refine ⟨ht.tables, fun _ => ⟨hs, hrow⟩, ?_, fun _ => ht.alphabet, ?_, fun _ => ht.size⟩ <;> intro h <;> rw [hp] at h <;>
    cases h

theorem blockInv_build {t : State} (ht : AlphabetReady t) (hp : t.phase = .build)
    (hrow : ∀ k < t.alpha, LengthRecorded ((t.lens.getD t.lenG []).getD k 0)) : BlockInv t := by
  refine ⟨ht.tables, ?_, fun _ => hrow, fun _ => ht.alphabet, ?_, fun _ => ht.size⟩ <;> intro h <;> rw [hp] at h <;> cases h

theorem blockInv_fail {s : State} (ht : TablesRecorded s) (c : Cause) : BlockInv (fail c s) :=
  blockInv_outside ht (.inl rfl)

/-! ### The tokens that write what the invariant constrains -/

theorem blockInv_sel {s t : State} (hI : BlockInv s) (hp : s.phase = .selector) (k : Nat)
    (h : exec (.sel k) s = .next t) : BlockInv t := by
  have ha := hI.alphabetReady (by rw [hp]; trivial) (by rw [hp]; trivial)
  have hperm := (mtfTake_perm 0 s.selMtf k).trans (hI.selMtf hp)
  simp only [exec, execSel] at h
  split_ifs at h <;> obtain rfl := Host.Outcome.next.inj h
  case pos => exact blockInv_fail (s := advance _ s) hI.tables _
  case pos => exact blockInv_alphabet ⟨ha.tables, ha.alphabet, ha.size⟩ trivial
  case neg => exact blockInv_selector ⟨ha.tables, ha.alphabet, ha.size⟩ hp hperm

theorem blockInv_lkeep {s t : State} (hI : BlockInv s) (hp : s.phase = .lenDelta) (h : exec .lkeep s = .next t) :
    BlockInv t := by
  have ha := hI.alphabetReady (by rw [hp]; trivial) (by rw [hp]; trivial)
  obtain ⟨hlt, hrow⟩ := hI.lenDelta hp
  by_cases hl : 1 ≤ s.curLen ∧ s.curLen ≤ 20
  · have hnew : ∀ k < s.lenS + 1, LengthRecorded
        (((putAll s.lens s.lenG [putAll (s.lens.getD s.lenG []) s.lenS [s.curLen.toNat] 0] []).getD s.lenG []).getD k 0) := by
      intro k hk
      rw [getD_getD_put]
      split_ifs with hkey
      · exact ⟨show 1 ≤ s.curLen.toNat by omega, show s.curLen.toNat ≤ 20 by omega⟩
      · exact hrow k (by omega)
    rw [exec_lkeep_legal hl] at h
    obtain rfl := Host.Outcome.next.inj h
    by_cases hlast : s.lenS + 1 = s.alpha
    · exact blockInv_build ⟨ha.tables, ha.alphabet, ha.size⟩ (if_pos hlast) fun k hk => hnew k (hk.trans_eq hlast.symm)
    · exact blockInv_lenDelta ⟨ha.tables, ha.alphabet, ha.size⟩ ((if_neg hlast).trans hp)
        (show s.lenS + 1 < s.alpha by omega) hnew
  · rw [exec_lkeep_illegal (by omega)] at h
    obtain rfl := Host.Outcome.next.inj h
    exact blockInv_fail (s := { s with pos := s.pos + 1 }) hI.tables _

/-- The table BUILD makes has the row's lengths, all of them recorded. -/
theorem tablesRecorded_build {s : State} (hI : BlockInv s) (hp : s.phase = .build) :
    ∀ t ∈ putAll s.tbl s.lenG [buildTable (firstN (s.lens.getD s.lenG []) s.alpha 0)] default,
      ∀ n ∈ t.present, LengthRecorded n := by
  intro t ht n hn
  rcases mem_putAll ht with ht | rfl | ht
  · exact hI.tables t ht n hn
  · cases hn
  · rw [List.mem_singleton.1 ht, mem_present_buildTable] at hn
    obtain ⟨k, hk, rfl⟩ := exists_getD_of_mem hn
    rw [length_firstN] at hk
    rw [getD_firstN, if_pos hk]
    exact hI.build hp k hk

theorem blockInv_execBuild {s t : State} (hI : BlockInv s) (hp : s.phase = .build) (h : exec .build s = .next t) :
    BlockInv t := by
  have ha := hI.alphabetReady (by rw [hp]; trivial) (by rw [hp]; trivial)
  have htables := tablesRecorded_build hI hp
  simp only [exec, execBuild] at h
  split_ifs at h <;> obtain rfl := Host.Outcome.next.inj h
  case pos => exact blockInv_alphabet ⟨htables, ha.alphabet, ha.size⟩ trivial
  case neg => exact blockInv_alphabet ⟨htables, ha.alphabet, ha.size⟩ trivial

theorem blockInv_emitMtf {v : State} (ha : AlphabetReady v) (hp : v.phase = .symbol) (sym : Nat) :
    BlockInv (emitMtf sym v) := by
  unfold emitMtf
  split_ifs with hfull
  · exact blockInv_fail ha.tables _
  · have hlen : (mtfTake 0 v.mtf (sym - 1)).2.length + 2 = v.alpha := by
      rw [(mtfTake_perm 0 v.mtf (sym - 1)).length_eq]
      exact ha.alphabet.2
    exact blockInv_symbol ha.tables hp ⟨ha.alphabet.1, hlen⟩ (show v.size + 1 ≤ v.blkMax by omega)

/-- A symbol's step keeps the invariant where its class rule does. -/
theorem blockInv_symbolToken {i : Instr} {s t : State} (hI : BlockInv s) (hp : s.phase = .symbol)
    (hi : i = .runa ∨ i = .runb ∨ (∃ k, i = .mtf k) ∨ i = .eob) (h : exec i s = .next t) : BlockInv t := by
  have ha := hI.alphabetReady (by rw [hp]; trivial) (by rw [hp]; trivial)
  have digit : ∀ sym weight, BlockInv (symbolStep sym (runDigit weight) s) := fun sym weight =>
    blockInv_symbolStep hI hp sym _ fun v e1 e2 e3 e4 e5 e6 =>
      have hv := ha.congr e1 e3 e4 e5 e6
      blockInv_symbol hv.tables e2 hv.alphabet hv.size
  have flushed : ∀ sym (act : State → State), (∀ v, AlphabetReady v → v.phase = .symbol → BlockInv (act v)) →
      BlockInv (symbolStep sym (flushThen act) s) := fun sym act hact =>
    blockInv_symbolStep hI hp sym _ fun v e1 e2 e3 e4 e5 e6 =>
      blockInv_flushThen hI act e1 e2 e3 e4 e5 e6 ha.size fun w f1 f2 f3 f4 f5 =>
        hact w ⟨by rw [TablesRecorded, f1]; exact ha.tables, by rw [f3, f4]; exact ha.alphabet, f5⟩ f2
  rcases hi with rfl | rfl | ⟨k, rfl⟩ | rfl <;> obtain rfl := Host.Outcome.next.inj h
  · exact digit 0 1
  · exact digit 1 2
  · exact flushed k _ fun v ha hv => blockInv_emitMtf ha hv k
  · exact flushed _ _ fun v ha _ => blockInv_noAlphabet (t := { v with phase := .ibwt }) ha.tables ha.size id

/-! ### The engine's turn -/

theorem blockInv_token {i : Instr} {s t : State} (hI : BlockInv s) (h : exec i s = .next t) (hp : i.phase = s.phase)
    (hh : i.hostOffset = none) : BlockInv t := by
  have failed : ∀ c (u : State), u.tbl = s.tbl → BlockInv (fail c u) := fun c u hu =>
    blockInv_fail (by rw [TablesRecorded, hu]; exact hI.tables) c
  have hsize : InBlock i.phase → s.size ≤ s.blkMax := fun hb => hI.size (hp ▸ hb)
  have hready : AlphabetKnown i.phase → InBlock i.phase → AlphabetReady s := fun ha hb =>
    hI.alphabetReady (hp ▸ ha) (hp ▸ hb)
  cases i with
  | sel k => exact blockInv_sel hI hp.symm k h
  | lkeep => exact blockInv_lkeep hI hp.symm h
  | build => exact blockInv_execBuild hI hp.symm h
  | runa => exact blockInv_symbolToken hI hp.symm (.inl rfl) h
  | runb => exact blockInv_symbolToken hI hp.symm (.inr (.inl rfl)) h
  | mtf k => exact blockInv_symbolToken hI hp.symm (.inr (.inr (.inl ⟨k, rfl⟩))) h
  | eob => exact blockInv_symbolToken hI hp.symm (.inr (.inr (.inr rfl))) h
  | hdr d =>
    simp only [exec, execHdr] at h
    split_ifs at h <;> obtain rfl := Host.Outcome.next.inj h
    · exact failed _ _ rfl
    · exact blockInv_outside hI.tables (.inr (.inl rfl))
    · exact failed _ _ rfl
  | block =>
    obtain rfl := Host.Outcome.next.inj h
    exact blockInv_noAlphabet hI.tables (Nat.zero_le _) id
  | eos =>
    obtain rfl := Host.Outcome.next.inj h
    exact blockInv_outside hI.tables (.inr (.inr (.inl rfl)))
  | scrc v =>
    simp only [exec, execScrc] at h
    split_ifs at h <;> obtain rfl := Host.Outcome.next.inj h
    · exact blockInv_outside hI.tables (.inl rfl)
    · exact failed _ _ rfl
  | bcrc v =>
    obtain rfl := Host.Outcome.next.inj h
    exact blockInv_noAlphabet hI.tables (hsize trivial) id
  | rand r =>
    simp only [exec, execRand] at h
    split_ifs at h <;> obtain rfl := Host.Outcome.next.inj h
    · exact failed _ _ rfl
    · exact blockInv_noAlphabet hI.tables (hsize trivial) id
  | ptr p =>
    obtain rfl := Host.Outcome.next.inj h
    exact blockInv_noAlphabet hI.tables (hsize trivial) id
  | map1 m =>
    obtain rfl := Host.Outcome.next.inj h
    exact blockInv_nextRange hI.tables (hsize trivial)
  | map2 m =>
    obtain rfl := Host.Outcome.next.inj h
    exact blockInv_nextRange hI.tables (hsize trivial)
  | ngrp g =>
    rw [exec_ngrp] at h
    obtain rfl := Host.Outcome.next.inj h
    split_ifs
    · exact failed _ _ rfl
    · have ha := hready trivial trivial
      exact blockInv_alphabet ⟨ha.tables, ha.alphabet, ha.size⟩ trivial
  | nsel n =>
    rw [exec_nsel] at h
    obtain rfl := Host.Outcome.next.inj h
    split_ifs
    · exact failed _ _ rfl
    · exact failed _ _ rfl
    · have ha := hready trivial trivial
      exact blockInv_selector ⟨ha.tables, ha.alphabet, ha.size⟩ rfl (.refl _)
  | len5 l =>
    obtain rfl := Host.Outcome.next.inj h
    have ha := hready trivial trivial
    exact blockInv_lenDelta ⟨ha.tables, ha.alphabet, ha.size⟩ rfl (Nat.lt_of_lt_of_le (Nat.succ_pos 2) ha.alphabet.1)
      fun k hk => absurd hk (Nat.not_lt_zero k)
  | linc | ldec =>
    obtain rfl := Host.Outcome.next.inj h
    obtain ⟨hlt, hrow⟩ := hI.lenDelta hp.symm
    have ha := hready trivial trivial
    exact blockInv_lenDelta ⟨ha.tables, ha.alphabet, ha.size⟩ hp.symm hlt hrow
  | ibwt =>
    by_cases hlt : s.origPtr.toNat < s.size
    · rw [exec_ibwt hlt] at h
      obtain rfl := Host.Outcome.next.inj h
      exact blockInv_outside hI.tables (.inr (.inr (.inr (.inr (.inl rfl)))))
    · rw [exec_ibwt_ptrRange (Nat.not_lt.1 hlt)] at h
      obtain rfl := Host.Outcome.next.inj h
      exact failed _ _ rfl
  | rle =>
    cases exec_outcome h rfl with
    | framed _ _ hr => exact absurd rfl hr
    | overflowed u _ he => exact failed _ u (by rw [he.frame])
    | emitted u c _ he =>
      rw [he.frame]
      exact blockInv_outside hI.tables (.inr (.inr (.inr (.inr (.inr rfl)))))
    | commits hi _ => exact absurd hi Instr.noConfusion
  | check =>
    simp only [exec, execCheck] at h
    split_ifs at h <;> obtain rfl := Host.Outcome.next.inj h
    · exact blockInv_outside hI.tables (.inr (.inl rfl))
    · exact failed _ _ rfl
  | start _ | irqEnSet _ | doneClr _ | inLenSet _ | outCapSet _ => exact absurd hh (Option.some_ne_none _)

theorem blockInv_engineTurn {s t : State} (hI : BlockInv s) (h : engineTurn s = .next t) : BlockInv t := by
  rcases engineTurn_cases h with ⟨-, rfl⟩ | ⟨c, u, n, rfl, hu, -, -⟩ | ⟨i, u, hexec, hp, hh, -, -, -⟩
  · exact hI
  · have htbl : u.tbl = s.tbl := by
      rcases hu with rfl | hu
      · rfl
      · rw [groupSwitch_eq hu]
    exact blockInv_fail (s := advance n u) (by rw [TablesRecorded, advance_tbl, htbl]; exact hI.tables) c
  · exact blockInv_token hI hexec hp hh

/-! ### The host's moves and the reset input -/

/-- The invariant sees only the block's working state, which no host move writes. -/
theorem blockInv_congr {s t : State} (hI : BlockInv s)
    (h : t = { s with
      cfg := t.cfg, irqEn := t.irqEn, done := t.done, inLen := t.inLen, outCap := t.outCap, inMem := t.inMem
      outMem := t.outMem, outFree := t.outFree, schedule := t.schedule, busData := t.busData }) : BlockInv t := by
  rw [h]
  exact ⟨hI.tables, hI.lenDelta, hI.build, hI.alphabet, hI.selMtf, hI.size⟩

theorem blockInv_ctrlWrite {s : State} (hI : BlockInv s) (v : U32) : BlockInv (ctrlWrite v s) := by
  by_cases h : v.getLsbD 0 = true ∧ s.busy = false
  · rw [ctrlWrite_starts h.1 h.2]
    exact blockInv_outside hI.tables (.inr (.inr (.inr (.inl rfl))))
  · rw [ctrlWrite_no_start h]
    exact blockInv_congr hI rfl

theorem blockInv_hostTurn {m : HostMove} {s t : State} (hI : BlockInv s) (h : hostTurn m s = .next t) :
    BlockInv t := by
  cases hostTurn_outcome h with
  | busData | inWrite | outWrite => exact blockInv_congr hI rfl
  | ignored => exact hI
  | command i _ hh hexec =>
    cases exec_command hexec hh with
    | start v | irqEnSet v => exact blockInv_ctrlWrite hI v
    | doneClr | inLenSet | outCapSet => exact blockInv_congr hI rfl
    | ignored => exact hI

theorem blockInv_resetInput (s : State) : BlockInv (resetInput s) :=
  blockInv_outside (fun _ h => absurd h List.not_mem_nil) (.inl rfl)

/-! ### The statements -/

/-- Settles O56: each token keeps it in its phase; a host move writes none of what it constrains, or starts a run. -/
theorem stepKeepsBlockInv : Obligations.StepKeepsBlockInv := fun _ _ =>
  step_keeps (fun _ _ hI => blockInv_congr hI rfl) (fun _ _ => blockInv_engineTurn) (fun _ _ _ => blockInv_hostTurn)
    fun s _ => blockInv_resetInput s

/-- The parameters State.reset carries are legal (log 1). -/
theorem legal_default : Params.default.legal := by decide

/-- Settles O54: at reset the engine is idle, the registers clear, the memories and tables empty. -/
theorem resetMeetsTheInvariants : Obligations.ResetMeetsTheInvariants where
  left :=
    { params := legal_default
      busy := ⟨Bool.noConfusion, fun h => absurd rfl h⟩
      memories := ⟨Memory.wf_nil, Memory.wf_nil, fun _ h => absurd h List.not_mem_nil, fun _ h => absurd h List.not_mem_nil⟩
      lengths := ⟨Nat.zero_le _, Nat.zero_le _⟩
      cursor := Bool.noConfusion
      output := ⟨Bool.noConfusion, Phase.noConfusion⟩
      errors := ⟨.inl ⟨rfl, rfl, rfl⟩, Bool.noConfusion⟩ }
  right := blockInv_outside (fun _ h => absurd h List.not_mem_nil) (.inl rfl)

end Sys2Proof.Machine

/-! ## Termination: every run ends (41_stream_control.md R129, 70_reset_and_hazards.md R293) -/

namespace Sys2Proof.Machine

open Sys2Proof.Claims

/-! ### The engine alone -/

theorem engineTurn_next (s : State) : ∃ t, engineTurn s = .next t := by
  unfold engineTurn
  split
  · exact exec_next _ s
  · exact ⟨_, rfl⟩
  · exact ⟨s, rfl⟩

/-- An engine turn keeps the host's side, the schedule with it. -/
theorem engineTurn_sameHostSide {s t : State} (h : engineTurn s = .next t) : SameHostSide s t := by
  rcases engineTurn_cases h with ⟨-, rfl⟩ | ⟨c, u, n, rfl, hu, -, -⟩ | ⟨i, u, hexec, -, hh, -, -, -⟩
  · exact .of_keeps (.refl t)
  · exact (SameHostSide.of_keeps ((keeps_fetched hu).trans (.advance n u))).fail c
  · exact exec_sameHostSide hexec hh

theorem engineTurn_alone {s t : State} (ha : Alone s) (h : engineTurn s = .next t) : Alone t :=
  (engineTurn_sameHostSide h).schedule.trans ha

theorem run_succ {s t : State} (h : step s = .next t) (k : Nat) :
    Host.Core.run Sys2Proof.core (k + 1) s = Host.Core.run Sys2Proof.core k t := by
  have hcore : Sys2Proof.core.step s = .next t := h
  simp only [Host.Core.run, hcore]

/-! ### A token consumes a bit, but for the internal operations -/

/-- The phases of the internal operations, which read no bits. -/
def Internal : Phase → Prop
  | .build | .ibwt | .rle | .check => True
  | _ => False

/-- A matched code's length is one of the active table's. -/
theorem symbol_length_recorded {u : State} (ht : TablesRecorded u) (hp : u.phase = .symbol) {i : Instr} {n : Nat}
    (hd : decode (context u) (window u) = .token i n) : LengthRecorded n := by
  rw [decode_symbol (c := context u) hp] at hd
  rcases decodeHuff_cases (context u).alpha (context u).table (window u) (context u).table.present with
    ⟨s, m, hmatch, hmem, -⟩ | hmatch | hmatch
  · obtain ⟨-, rfl⟩ := Decoded.token.inj (hd.symm.trans hmatch)
    have hactive : n ∈ (u.tbl.getD u.active default).present := hmem
    by_cases hlt : u.active < u.tbl.length
    · rw [List.getD_eq_getElem _ _ hlt] at hactive
      exact ht _ (List.getElem_mem hlt) n hactive
    · rw [List.getD_eq_default _ _ (Nat.not_lt.1 hlt)] at hactive
      exact absurd hactive List.not_mem_nil
  all_goals exact absurd (hd.symm.trans hmatch) Decoded.noConfusion

/-- Outside the symbol stream the formats of 30_encoding.md R90 have a bit or more. -/
theorem one_le_length_encode {i : Instr} (c : Context) (hp : ¬ Internal i.phase) (hs : i.phase ≠ .symbol) :
    1 ≤ (encode c i).length := by
  cases i
  case runa | runb | mtf _ | eob => exact absurd rfl hs
  case build | ibwt | rle | check => exact absurd trivial hp
  all_goals simp [encode]

theorem one_le_length_token {i : Instr} {s u : State} (hB : BlockInv s) (hp : i.phase = s.phase)
    (hn : ¬ Internal s.phase) (hu : (s.phase ≠ .symbol ∧ u = s) ∨ (s.phase = .symbol ∧ groupSwitch s = some u))
    (hd : decode (context u) (window u) = .token i (encode (context u) i).length) :
    1 ≤ (encode (context u) i).length := by
  rcases hu with ⟨hs, -⟩ | ⟨hs, hu⟩
  · exact one_le_length_encode _ (hp ▸ hn) (hp ▸ hs)
  · have htbl : u.tbl = s.tbl := by rw [groupSwitch_eq hu]
    have hphase : u.phase = .symbol := (groupSwitch_bits hu).1.trans hs
    exact (symbol_length_recorded (by rw [TablesRecorded, htbl]; exact hB.tables) hphase hd).1

/-! ### The steps a run still has -/

/-- The steps a phase can take before the next bit is read: BUILD and what follows the symbol stream read none. -/
def stepsDue : Phase → Nat
  | .idle => 0
  | .ibwt => 4
  | .rle => 3
  | .check | .build => 2
  | _ => 1

/-- Four steps a bit, and those due before the next one. -/
def stepBound (s : State) : Nat := 4 * bitsLeft s + stepsDue s.phase

theorem stepsDue_le (p : Phase) : stepsDue p ≤ 4 := by cases p <;> decide

theorem one_le_stepsDue {p : Phase} (h : p ≠ .idle) : 1 ≤ stepsDue p := by
  cases p
  case idle => exact absurd rfl h
  all_goals decide

theorem stepsDue_successor {p q : Phase} (hp : Internal p) (hq : q ∈ successors p) : stepsDue q < stepsDue p := by
  cases p
  case build | ibwt | rle | check => revert q; decide
  all_goals exact hp.elim

/-- A run that goes on has fewer steps left. -/
theorem engineTurn_stepBound {s t : State} (hI : Inv s) (hB : BlockInv s) (h : engineTurn s = .next t)
    (hs : s.phase ≠ .idle) : t.phase = .idle ∨ stepBound t < stepBound s := by
  rcases engineTurn_cases h with ⟨hidle, -⟩ | ⟨c, u, n, rfl, -, -, -⟩ | ⟨i, u, hexec, hp, hh, hu, hd, hl⟩
  · exact absurd hidle hs
  · exact .inl rfl
  · refine or_iff_not_imp_left.2 fun ht => ?_
    have hsucc := (exec_phase hexec hh hp).resolve_left ht
    have hpos := fetched_pos hexec hp hh hu ht
    have hlen := (exec_sameHostSide hexec hh).inLen
    have hcursor := hI.cursor (hI.busy.2 hs)
    have hbits : bitsLeft t = bitsLeft s - (encode (context u) i).length := by
      have hin : s.inLen.toNat ≤ 2 ^ 29 - 1 := hI.lengths.1.trans hI.params.2.1
      unfold bitsLeft at hl ⊢
      rw [hlen, hpos, BitVec.toNat_add, BitVec.toNat_ofNat]
      omega
    unfold stepBound
    by_cases hint : Internal s.phase
    · have := stepsDue_successor hint hsucc
      omega
    · have hone := one_le_length_token hB hp hint hu hd
      have := stepsDue_le t.phase
      have := one_le_stepsDue hs
      omega

/-! ### The statement -/

theorem run_ends_within {m : Nat} : ∀ {s : State}, Inv s → BlockInv s → Alone s → stepBound s ≤ m →
    ∃ k t, k ≤ m ∧ Host.Core.run Sys2Proof.core k s = .next t ∧ t.phase = .idle := by
  induction m with
  | zero =>
    intro s _ _ _ hm
    have hidle : s.phase = .idle := by
      by_contra hs
      have := one_le_stepsDue hs
      unfold stepBound at hm
      omega
    exact ⟨0, s, le_rfl, rfl, hidle⟩
  | succ m ih =>
    intro s hI hB ha hm
    by_cases hs : s.phase = .idle
    · exact ⟨0, s, Nat.zero_le _, rfl, hs⟩
    · obtain ⟨t, ht⟩ := engineTurn_next s
      have hstep : step s = .next t := (step_alone ha).trans ht
      rcases engineTurn_stepBound hI hB ht hs with hidle | hlt
      · exact ⟨1, t, by omega, run_succ hstep 0, hidle⟩
      · obtain ⟨k, u, hk, hrun, hidle⟩ :=
          ih (stepKeepsInv s t hI hstep) (stepKeepsBlockInv s t hB hstep) (engineTurn_alone ha ht) (by omega)
        exact ⟨k + 1, u, by omega, (run_succ hstep k).trans hrun, hidle⟩

/-- Settles O57: every step of a run leaves fewer steps, at most four a bit and four. -/
theorem everyRunEnds : Obligations.EveryRunEnds := by
  intro s hI hB ha
  exact run_ends_within hI hB ha (Nat.add_le_add_left (stepsDue_le _) _)

end Sys2Proof.Machine

/-! ## The memories and the engine (20_memory.md R62, R63): what it reads of IN_MEM, and that it reads no OUT_MEM -/

namespace Sys2Proof.Machine

open Sys2Proof.Claims

/-! ### A state with other memories -/

/-- `s` with other contents in both memories. -/
def withMems (im om : Memory) (s : State) : State := { s with inMem := im, outMem := om }

section
variable (im om : Memory)

theorem fail_withMems (c : Cause) (s : State) : fail c (withMems im om s) = withMems im om (fail c s) := rfl

theorem groupSwitch_withMems (s : State) :
    groupSwitch (withMems im om s) = (groupSwitch s).map (withMems im om) := by
  by_cases h0 : s.gpos = 0
  · by_cases h : s.nSel ≤ s.gno
    · rw [groupSwitch_none h0 h, groupSwitch_none (s := withMems im om s) h0 h]; rfl
    · rw [groupSwitch_due h0 (Nat.not_le.1 h), groupSwitch_due (s := withMems im om s) h0 (Nat.not_le.1 h)]; rfl
  · rw [groupSwitch_running h0, groupSwitch_running (s := withMems im om s) h0]; rfl

theorem flushRun_withMems (s : State) : flushRun (withMems im om s) = (flushRun s).map (withMems im om) := by
  rcases Nat.eq_zero_or_pos s.rep with h0 | h0
  · rw [flushRun_zero h0, flushRun_zero (s := withMems im om s) h0]; rfl
  · rcases Nat.lt_or_ge s.blkMax (s.size + s.rep) with h | h
    · rw [flushRun_full h0 h, flushRun_full (s := withMems im om s) h0 h]; rfl
    · rw [flushRun_fits h0 h, flushRun_fits (s := withMems im om s) h0 h]; rfl

theorem bitmapDone_withMems (s : State) : bitmapDone (withMems im om s) = withMems im om (bitmapDone s) := by
  by_cases h : s.seq = []
  · rw [bitmapDone_empty h, bitmapDone_empty (s := withMems im om s) h]; rfl
  · rw [bitmapDone_used h, bitmapDone_used (s := withMems im om s) h]; rfl

theorem nextRange_withMems (s : State) : nextRange (withMems im om s) = withMems im om (nextRange s) := by
  by_cases h : nextUsedRange s.map1 16 s.mapI = 16
  · have hdone : ∀ v : State, nextUsedRange v.map1 16 v.mapI = 16 →
        nextRange v = bitmapDone { v with mapI := nextUsedRange v.map1 16 v.mapI } := fun v hv => if_pos hv
    rw [hdone s h, hdone (withMems im om s) h, ← bitmapDone_withMems]; rfl
  · have hnext : ∀ v : State, nextUsedRange v.map1 16 v.mapI ≠ 16 →
        nextRange v = { v with mapI := nextUsedRange v.map1 16 v.mapI, phase := .map2 } := fun v hv => if_neg hv
    rw [hnext s h, hnext (withMems im om s) h]; rfl

theorem runDigit_withMems (weight : Nat) (s : State) :
    runDigit weight (withMems im om s) = withMems im om (runDigit weight s) := rfl

theorem emitMtf_withMems (sym : Nat) (s : State) : emitMtf sym (withMems im om s) = withMems im om (emitMtf sym s) := by
  by_cases h : s.blkMax < s.size + 1
  · rw [emitMtf_full h, emitMtf_full (u := withMems im om s) h]; rfl
  · exact (if_neg h).trans (congrArg (withMems im om) (if_neg h : emitMtf sym s = _)).symm

/-- A symbol's step does as its class rule does. -/
theorem symbolStep_withMems {act : State → State} (hact : ∀ v, act (withMems im om v) = withMems im om (act v))
    (sym : Nat) (s : State) : symbolStep sym act (withMems im om s) = withMems im om (symbolStep sym act s) := by
  have hg := groupSwitch_withMems im om s
  cases hs : groupSwitch s with
  | none =>
    rw [hs, Option.map_none] at hg
    rw [symbolStep_none hg, symbolStep_none hs, fail_withMems]
  | some u =>
    rw [hs, Option.map_some] at hg
    rw [symbolStep_some hg, symbolStep_some hs, ← hact]
    rfl

theorem flushThen_withMems {act : State → State} (hact : ∀ v, act (withMems im om v) = withMems im om (act v))
    (s : State) : flushThen act (withMems im om s) = withMems im om (flushThen act s) := by
  have hf := flushRun_withMems im om s
  cases hs : flushRun s with
  | none =>
    rw [hs, Option.map_none] at hf
    rw [flushThen_none hf, flushThen_none hs, fail_withMems]
  | some u =>
    rw [hs, Option.map_some] at hf
    rw [flushThen_some hf, flushThen_some hs, hact]

/-- Every token and internal operation but RLE does the same whatever the memories hold. -/
theorem exec_withMems {i : Instr} {s t : State} (h : exec i s = .next t) (hh : i.hostOffset = none) (hr : i ≠ .rle) :
    exec i (withMems im om s) = .next (withMems im om t) := by
  cases i with
  | rle => exact absurd rfl hr
  | start _ | irqEnSet _ | doneClr _ | inLenSet _ | outCapSet _ => exact absurd hh (Option.some_ne_none _)
  | runa =>
    obtain rfl := Host.Outcome.next.inj h
    exact congrArg _ (symbolStep_withMems im om (runDigit_withMems im om 1) 0 s)
  | runb =>
    obtain rfl := Host.Outcome.next.inj h
    exact congrArg _ (symbolStep_withMems im om (runDigit_withMems im om 2) 1 s)
  | mtf k =>
    obtain rfl := Host.Outcome.next.inj h
    exact congrArg _ (symbolStep_withMems im om (flushThen_withMems im om (emitMtf_withMems im om k)) k s)
  | eob =>
    obtain rfl := Host.Outcome.next.inj h
    exact congrArg _ (symbolStep_withMems im om (flushThen_withMems im om (act := fun u => { u with phase := .ibwt })
      fun _ => rfl) (s.alpha - 1) s)
  | map1 m =>
    obtain rfl := Host.Outcome.next.inj h
    exact congrArg _ (nextRange_withMems im om { advance 16 s with map1 := m, mapI := 0 })
  | map2 m =>
    obtain rfl := Host.Outcome.next.inj h
    exact congrArg _ (nextRange_withMems im om
      { advance 16 s with seq := s.seq ++ rangeBytes m s.mapI, mapI := s.mapI + 1 })
  | ibwt =>
    by_cases hlt : s.origPtr.toNat < s.size
    · rw [exec_ibwt hlt] at h
      obtain rfl := Host.Outcome.next.inj h
      exact exec_ibwt (s := withMems im om s) hlt
    · rw [exec_ibwt_ptrRange (Nat.not_lt.1 hlt)] at h
      obtain rfl := Host.Outcome.next.inj h
      exact exec_ibwt_ptrRange (s := withMems im om s) (Nat.not_lt.1 hlt)
  | block | eos | bcrc _ | ptr _ | len5 _ | linc | ldec =>
    obtain rfl := Host.Outcome.next.inj h
    rfl
  | lkeep =>
    by_cases hl : 1 ≤ s.curLen ∧ s.curLen ≤ 20
    · rw [exec_lkeep_legal hl] at h
      obtain rfl := Host.Outcome.next.inj h
      exact exec_lkeep_legal (s := withMems im om s) hl
    · have hl : s.curLen < 1 ∨ 20 < s.curLen := by omega
      rw [exec_lkeep_illegal hl] at h
      obtain rfl := Host.Outcome.next.inj h
      exact exec_lkeep_illegal (s := withMems im om s) hl
  | scrc _ | rand _ | ngrp _ | build | check =>
    simp only [exec, execScrc, execRand, execNgrp, execBuild, execCheck] at h
    split_ifs at h with h1 <;> obtain rfl := Host.Outcome.next.inj h
    · exact if_pos h1
    · exact if_neg h1
  | nsel _ | sel _ =>
    simp only [exec, execNsel, execSel] at h
    split_ifs at h with h1 h2 <;> obtain rfl := Host.Outcome.next.inj h
    · exact if_pos h1
    · exact (if_neg h1).trans (if_pos h2)
    · exact (if_neg h1).trans (if_neg h2)
  | hdr _ =>
    simp only [exec, execHdr] at h
    split_ifs at h with h1 h2 <;> obtain rfl := Host.Outcome.next.inj h
    · exact if_pos h1
    · exact (if_neg h1).trans (if_pos h2)
    · exact (if_neg h1).trans (if_neg h2)

end

/-! ### RLE -/

/-- Two memories after the same writes: each address holds the same byte, or what it held before. -/
def WritesAlike (before after before' after' : Memory) : Prop :=
  ∀ a, Memory.read .output after' a = Memory.read .output after a
    ∨ (Memory.read .output after' a = Memory.read .output before' a
        ∧ Memory.read .output after a = Memory.read .output before a)

theorem WritesAlike.refl (m m' : Memory) : WritesAlike m m m' m' := fun _ => .inr ⟨rfl, rfl⟩

/-- A run of one byte written first to both. -/
theorem WritesAlike.of_writeRun {m m' after after' : Memory} {a n : Nat} {b : Byte}
    (h : WritesAlike (Memory.writeRun m a n b) after (Memory.writeRun m' a n b) after') :
    WritesAlike m after m' after' := by
  intro x
  rcases h x with h | ⟨h', h⟩
  · exact .inl h
  · rw [Memory.read_writeRun] at h h'
    split_ifs at h h' with hx
    · exact .inl (h'.trans h.symm)
    · exact .inr ⟨h', h⟩

/-- What a step makes of another OUT_MEM: the same writes, and the same memory if it was the same. -/
structure OutputMade (s t : State) (om om' : Memory) : Prop where
  same   : om = s.outMem → om' = t.outMem
  alike  : WritesAlike s.outMem t.outMem om om'

theorem OutputMade.of_unchanged {s t : State} (h : t.outMem = s.outMem) (om : Memory) : OutputMade s t om om :=
  ⟨fun e => e.trans h.symm, by rw [h]; exact .refl _ _⟩

/-- The emission loop reads neither memory. -/
theorem emitRuns_withMems (im : Memory) (room : Nat) : ∀ (runs : List (Nat × Byte)) (c : U32) (s : State) (om : Memory),
    ∃ om', emitRuns room runs c (withMems im om s) =
        (withMems im om' (emitRuns room runs c s).1, (emitRuns room runs c s).2)
      ∧ OutputMade s (emitRuns room runs c s).1 om om'
  | [], _, s, om => ⟨om, rfl, .of_unchanged rfl om⟩
  | (run, b) :: rest, c, s, om => by
    by_cases hroom : s.finLen + run > room
    · rw [emitRuns, emitRuns, if_pos hroom, if_pos (show (withMems im om s).finLen + run > room from hroom)]
      exact ⟨om, rfl, .of_unchanged rfl om⟩
    · rw [emitRuns, emitRuns, if_neg hroom, if_neg (show ¬ (withMems im om s).finLen + run > room from hroom)]
      obtain ⟨om', hemit, hsame, halike⟩ := emitRuns_withMems im room rest (crcRun run b c)
        { s with outMem := Memory.writeRun s.outMem (s.outLen.toNat + s.finLen) run b, finLen := s.finLen + run }
        (Memory.writeRun om (s.outLen.toNat + s.finLen) run b)
      exact ⟨om', hemit, fun e => hsame (by rw [e]), halike.of_writeRun⟩

theorem emission_withMems (im om : Memory) (s : State) :
    ∃ om', emission (withMems im om s) = (withMems im om' (emission s).1, (emission s).2)
      ∧ OutputMade s (emission s).1 om om' := by
  obtain ⟨om', hemit, hmade⟩ := emitRuns_withMems im (s.outCap.toNat - s.outLen.toNat) (rleRuns (block s)) crcInit
    { s with finLen := 0 } om
  exact ⟨om', hemit, hmade.same, hmade.alike⟩

theorem exec_rle_withMems {s t : State} (im om : Memory) (h : exec .rle s = .next t) :
    ∃ om', exec .rle (withMems im om s) = .next (withMems im om' t) ∧ OutputMade s t om om' := by
  obtain ⟨om', hemit, hmade⟩ := emission_withMems im om s
  rcases hs : emission s with ⟨u, _ | c⟩ <;> rw [hs] at hemit hmade
  · rw [exec_rle_none hs] at h
    obtain rfl := Host.Outcome.next.inj h
    exact ⟨om', exec_rle_none hemit, hmade.same, hmade.alike⟩
  · rw [exec_rle_some hs] at h
    obtain rfl := Host.Outcome.next.inj h
    exact ⟨om', exec_rle_some hemit, hmade.same, hmade.alike⟩

/-! ### The fetch -/

/-- The window's bits are those of the input below IN_LEN. -/
theorem window_congr {a b : State} (hlen : a.inLen = b.inLen) (hpos : a.pos = b.pos)
    (hmem : AgreeBelow .input b.inLen.toNat a.inMem b.inMem) : window a = window b := by
  have hleft : bitsLeft a = bitsLeft b := by rw [bitsLeft, bitsLeft, hlen, hpos]
  rw [window, window, hleft, bitsAt, bitsAt, hpos]
  refine List.map_congr_left fun k hk => ?_
  have hk := List.mem_range.1 hk
  rw [streamBit, streamBit, hmem]
  unfold bitsLeft at hk
  omega

/-- The fetch finds a token of the phase's kind, no host command. -/
theorem fetch_token_kind {s : State} {i : Instr} (h : fetch s = .token i) :
    i.phase = s.phase ∧ i.hostOffset = none := by
  have hbounds := fetch_bounds s
  rw [h] at hbounds
  cases hbounds with
  | token i u hu hd hp hh hl => exact ⟨hp, hh⟩

/-- What the fetch finds, with the state a run ends in mapped. -/
def Fetched.map (f : State → State) : Fetched → Fetched
  | .token i => .token i
  | .ended s => .ended (f s)
  | .idle => .idle

section
variable (im om : Memory) {s : State}

theorem decodeAt_withMems (hm : AgreeBelow .input s.inLen.toNat im s.inMem) :
    decodeAt (withMems im om s) = (decodeAt s).map (withMems im om) := by
  have hw : window (withMems im om s) = window s := window_congr rfl rfl hm
  have hc : context (withMems im om s) = context s := rfl
  cases hd : decode (context s) (window s) with
  | token i n => rw [decodeAt_token hd, decodeAt_token (by rw [hw, hc, hd])]; rfl
  | truncated n => rw [decodeAt_truncated hd, decodeAt_truncated (by rw [hw, hc, hd])]; rfl
  | illegal c n => rw [decodeAt_illegal hd, decodeAt_illegal (by rw [hw, hc, hd])]; rfl
  | noToken => rw [decodeAt_noToken hd, decodeAt_noToken (by rw [hw, hc, hd])]; rfl

theorem fetch_withMems (hm : AgreeBelow .input s.inLen.toNat im s.inMem) :
    fetch (withMems im om s) = (fetch s).map (withMems im om) := by
  have hdecode := decodeAt_withMems im om hm
  by_cases h1 : s.phase = .header
  · by_cases hl : s.inLen.toNat < 14
    · rw [fetch_header_short h1 hl, fetch_header_short (s := withMems im om s) h1 hl]; rfl
    · rw [fetch_header h1 (Nat.not_lt.1 hl), fetch_header (s := withMems im om s) h1 (Nat.not_lt.1 hl), hdecode]
  · by_cases h2 : s.phase = .lenDelta
    · by_cases hl : s.cfg.lenCheck = .everyStep ∧ (s.curLen < 1 ∨ 20 < s.curLen)
      · rw [fetch_lenDelta_bad h2 hl.1 hl.2, fetch_lenDelta_bad (s := withMems im om s) h2 hl.1 hl.2]; rfl
      · have hlegal : s.cfg.lenCheck = .everyStep → 1 ≤ s.curLen ∧ s.curLen ≤ 20 := fun he => by
          have : ¬ (s.curLen < 1 ∨ 20 < s.curLen) := fun h => hl ⟨he, h⟩
          omega
        rw [fetch_lenDelta h2 hlegal, fetch_lenDelta (s := withMems im om s) h2 hlegal, hdecode]
    · by_cases h3 : s.phase = .symbol
      · have hg := groupSwitch_withMems im om s
        cases hs : groupSwitch s with
        | none =>
          rw [hs, Option.map_none] at hg
          rw [fetch_symbol_exhausted h3 hs, fetch_symbol_exhausted (s := withMems im om s) h3 hg]; rfl
        | some u =>
          rw [hs, Option.map_some] at hg
          have hu : u.inLen = s.inLen ∧ u.inMem = s.inMem := by rw [groupSwitch_eq hs]; exact ⟨rfl, rfl⟩
          rw [fetch_symbol h3 hs, fetch_symbol (s := withMems im om s) h3 hg]
          exact decodeAt_withMems im om (by rw [hu.1, hu.2]; exact hm)
      · rw [fetch_plain h1 h2 h3, fetch_plain (s := withMems im om s) h1 h2 h3, hdecode]

/-- An engine turn over other memories that agree with the input. -/
theorem engineTurn_withMems {t : State} (hm : AgreeBelow .input s.inLen.toNat im s.inMem)
    (h : engineTurn s = .next t) :
    ∃ om', engineTurn (withMems im om s) = .next (withMems im om' t) ∧ OutputMade s t om om' := by
  have hf := fetch_withMems im om hm
  cases hs : fetch s with
  | token i =>
    rw [hs, Fetched.map] at hf
    rw [engineTurn_token hs] at h
    rw [engineTurn_token hf]
    have hh := (fetch_token_kind hs).2
    by_cases hr : i = .rle
    · subst hr
      exact exec_rle_withMems im om h
    · exact ⟨om, exec_withMems im om h hh hr, .of_unchanged (exec_outMem h hh hr) om⟩
  | ended u =>
    rw [hs, Fetched.map] at hf
    rw [engineTurn_ended hs] at h
    obtain rfl := Host.Outcome.next.inj h
    refine ⟨om, engineTurn_ended hf, .of_unchanged ?_ om⟩
    have hbounds := fetch_bounds s
    rw [hs] at hbounds
    cases hbounds with
    | ended c u n hu => exact (keeps_fetched hu).outMem
  | idle =>
    rw [hs, Fetched.map] at hf
    rw [engineTurn_idle hs] at h
    obtain rfl := Host.Outcome.next.inj h
    exact ⟨om, engineTurn_idle hf, .of_unchanged rfl om⟩

end

/-! ### The statements -/

/-- Settles O58: the window ends at IN_LEN, and no token reads IN_MEM otherwise. -/
theorem bytesBeyondInputPlayNoPart : Obligations.BytesBeyondInputPlayNoPart := by
  intro s t m ha hm h
  rw [step_alone ha] at h
  obtain ⟨om', hturn, hmade⟩ := engineTurn_withMems m s.outMem hm h
  rw [hmade.same rfl] at hturn
  exact (step_alone (s := withMems m s.outMem s) ha).trans hturn

/-- Settles O59: RLE writes without reading, and no other token touches OUT_MEM. -/
theorem outputMemoryIsNeverRead : Obligations.OutputMemoryIsNeverRead := by
  intro s t m ha h
  rw [step_alone ha] at h
  obtain ⟨m', hturn, hmade⟩ := engineTurn_withMems s.inMem m (fun _ _ => rfl) h
  have hsame : withMems s.inMem m' t = { t with outMem := m' } := by
    rw [← (engineTurn_sameHostSide h).inMem]
    rfl
  refine ⟨m', ?_, fun a hread => ?_⟩
  · rw [← hsame]
    exact (step_alone (s := withMems s.inMem m s) ha).trans hturn
  · rcases hmade.alike a with halike | ⟨hnew, hold⟩
    · exact halike
    · rcases hread with hagree | hwrote
      · exact hnew.trans (hagree.trans hold.symm)
      · exact absurd hold hwrote

end Sys2Proof.Machine

/-! ## Two runs over one input (48_host_interface.md R233): agreement from START on -/

namespace Sys2Proof.Machine

open Sys2Proof.Claims

/-! ### The tokens keep the agreement -/

/-! The agreement of a phase with a check or a table of its own. -/

theorem Sim.selecting {a b : State} (h : Sim a b) (hp : a.phase = .selector) : AgreeSelecting a b := by
  unfold Sim at h; rw [hp] at h; exact h

theorem Sim.delta {a b : State} (h : Sim a b) (hp : a.phase = .lenDelta) : AgreeDelta a b := by
  unfold Sim at h; rw [hp] at h; exact h

theorem Sim.symbols {a b : State} (h : Sim a b) (hp : a.phase = .symbol) : AgreeSymbols a b := by
  unfold Sim at h; rw [hp] at h; exact h

theorem agree_runToken (sym weight : Nat) {a b : State} (h : AgreeSymbols a b) (hp : a.phase = .symbol) :
    Sim (symbolStep sym (runDigit weight) a) (symbolStep sym (runDigit weight) b) :=
  agree_symbolStep h sym _ _ fun _ _ huv hu => Sim.of12 (hu.trans hp) (agree_runDigit weight huv)

theorem agree_mtf (sym : Nat) {a b : State} (h : AgreeSymbols a b) (hp : a.phase = .symbol) :
    Sim (symbolStep sym (flushThen (emitMtf sym)) a) (symbolStep sym (flushThen (emitMtf sym)) b) :=
  agree_symbolStep h sym _ _ fun _ _ huv hu => agree_flushThen huv _ _ fun _ _ hxy hx =>
    agree_emitMtf sym hxy ((hx.trans hu).trans hp)

theorem agree_eob {a b : State} (h : AgreeSymbols a b) : Both (execEob a) (execEob b) := by
  rw [execEob, execEob, ← h.alpha]
  refine Both.next (agree_symbolStep h _ _ _ fun _ _ huv _ => agree_flushThen huv _ _ fun x y hxy _ => ?_)
  show AgreePointer _ _
  exact { hxy with phase := rfl }

theorem agree_exec {i : Instr} {a b : State} (h : Sim a b) (hp : i.phase = a.phase) (hh : i.hostOffset = none)
    (hcap : a.outLen.toNat ≤ a.outCap.toNat) : Both (exec i a) (exec i b) := by
  have hphase := h
  unfold Sim at hphase
  rw [← hp] at hphase
  cases i with
  | hdr d => exact agree_hdr d hphase
  | block => exact agree_block hphase
  | eos => exact agree_eos hphase
  | scrc v => exact agree_scrc v hphase
  | bcrc v => exact agree_bcrc v hphase
  | rand r => exact agree_rand r hphase
  | ptr p => exact agree_ptr p hphase
  | map1 m => exact agree_map1 m hphase
  | map2 m => exact agree_map2 m hphase
  | ngrp g => exact agree_ngrp g hphase
  | nsel n => exact agree_nsel n hphase
  | sel k => exact agree_sel k hphase hp.symm
  | len5 l => exact agree_len5 l hphase
  | lkeep => exact agree_lkeep hphase hp.symm
  | linc => exact agree_linc hphase hp.symm
  | ldec => exact agree_ldec hphase hp.symm
  | build => exact agree_build hphase
  | runa => exact Both.next (agree_runToken 0 1 hphase hp.symm)
  | runb => exact Both.next (agree_runToken 1 2 hphase hp.symm)
  | mtf k => exact Both.next (agree_mtf k hphase hp.symm)
  | eob => exact agree_eob hphase
  | ibwt => exact agree_ibwt hphase
  | rle => exact agree_rle hphase hcap
  | check => exact agree_check hphase
  | start _ | irqEnSet _ | doneClr _ | inLenSet _ | outCapSet _ => exact absurd hh (Option.some_ne_none _)

/-! ### The fetch finds the same -/

/-- The decoder reads of its context what the phase's format needs. -/
theorem decode_congr {c d : Context} (hphase : c.phase = d.phase) (hsense : c.sense = d.sense)
    (hgroups : c.phase = .selector → c.nGroups = d.nGroups)
    (htable : c.phase = .symbol → c.alpha = d.alpha ∧ c.table = d.table) (w : List Bool) : decode c w = decode d w := by
  unfold decode
  rw [← hphase]
  cases hp : c.phase with
  | selector => simp only [hgroups hp]
  | symbol => simp only [htable hp]
  | lenDelta => simp only [hsense]
  | _ => rfl

/-- What two agreeing states find: the same token, or ends of the run in agreement. -/
inductive BothFind : Fetched → Fetched → Prop where
  | token (i : Instr) : BothFind (.token i) (.token i)
  | ended {s t : State} (h : Sim s t) : BothFind (.ended s) (.ended t)
  | idle : BothFind .idle .idle

theorem agree_decodeAt {u v : State} (h : Agree u v)
    (hgroups : u.phase = .selector → u.nGroups = v.nGroups)
    (htable : u.phase = .symbol → u.alpha = v.alpha ∧ activeTable u = activeTable v) :
    BothFind (decodeAt u) (decodeAt v) := by
  have hd : decode (context v) (window v) = decode (context u) (window u) := by
    rw [← agree_window h]
    exact (decode_congr h.phase (congrArg Params.deltaSense h.cfg) hgroups htable _).symm
  cases hu : decode (context u) (window u) with
  | token i n => rw [decodeAt_token hu, decodeAt_token (hd.trans hu)]; exact .token i
  | truncated n => rw [decodeAt_truncated hu, decodeAt_truncated (hd.trans hu)]; exact .ended ((h.advance n).fail _)
  | illegal c n => rw [decodeAt_illegal hu, decodeAt_illegal (hd.trans hu)]; exact .ended ((h.advance n).fail c)
  | noToken => rw [decodeAt_noToken hu, decodeAt_noToken (hd.trans hu)]; exact .idle

theorem agree_fetch {a b : State} (h : Sim a b) : BothFind (fetch a) (fetch b) := by
  have hpub := h.pub
  have hphase := hpub.phase
  by_cases h1 : a.phase = .header
  · have hplain := agree_decodeAt hpub (fun e => absurd (h1.symm.trans e) Phase.noConfusion)
      fun e => absurd (h1.symm.trans e) Phase.noConfusion
    by_cases hl : a.inLen.toNat < 14
    · rw [fetch_header_short h1 hl, fetch_header_short (hphase.symm.trans h1) (hpub.inLen ▸ hl)]
      exact .ended (hpub.fail _)
    · have hl := Nat.not_lt.1 hl
      rwa [fetch_header h1 hl, fetch_header (hphase.symm.trans h1) (hpub.inLen ▸ hl)]
  · by_cases h2 : a.phase = .lenDelta
    · have hdelta := h.delta h2
      have hplain := agree_decodeAt hpub (fun e => absurd (h2.symm.trans e) Phase.noConfusion)
        fun e => absurd (h2.symm.trans e) Phase.noConfusion
      by_cases hl : a.cfg.lenCheck = .everyStep ∧ (a.curLen < 1 ∨ 20 < a.curLen)
      · rw [fetch_lenDelta_bad h2 hl.1 hl.2,
          fetch_lenDelta_bad (hphase.symm.trans h2) (hpub.cfg ▸ hl.1) (hdelta.curLen ▸ hl.2)]
        exact .ended (hpub.fail _)
      · have hlegal : a.cfg.lenCheck = .everyStep → 1 ≤ a.curLen ∧ a.curLen ≤ 20 := fun he => by
          have : ¬ (a.curLen < 1 ∨ 20 < a.curLen) := fun h => hl ⟨he, h⟩
          omega
        rwa [fetch_lenDelta h2 hlegal,
          fetch_lenDelta (hphase.symm.trans h2) (by rw [← hpub.cfg, ← hdelta.curLen]; exact hlegal)]
    · by_cases h3 : a.phase = .symbol
      · rcases agree_groupSwitch (h.symbols h3) with ⟨hga, hgb⟩ | ⟨u, v, hgu, hgv, huv, hactive, hlt, hu⟩
        · rw [fetch_symbol_exhausted h3 hga, fetch_symbol_exhausted (hphase.symm.trans h3) hgb]
          exact .ended (hpub.fail _)
        · rw [fetch_symbol h3 hgu, fetch_symbol (hphase.symm.trans h3) hgv]
          exact agree_decodeAt huv.toAgree (fun _ => huv.nGroups)
            fun _ => ⟨huv.alpha, agree_activeTable huv hactive hlt⟩
      · rw [fetch_plain h1 h2 h3, fetch_plain (hphase ▸ h1) (hphase ▸ h2) (hphase ▸ h3)]
        exact agree_decodeAt hpub (fun e => (h.selecting e).nGroups) fun e => absurd e h3

/-! ### Steps and runs -/

/-- A busy engine's turn keeps the agreement; an idle one changes nothing. -/
theorem sim_engineTurn {a b : State} (h : Sim a b) (hI : Inv a) : Both (engineTurn a) (engineTurn b) := by
  have hfind := agree_fetch h
  cases hfa : fetch a with
  | token i =>
    cases hfb : fetch b <;> rw [hfa, hfb] at hfind <;> cases hfind
    obtain ⟨hp, hh⟩ := fetch_token_kind hfa
    rw [engineTurn_token hfa, engineTurn_token hfb]
    exact agree_exec h hp hh (hI.output.1 (hI.busy.2 (phase_ne_idle_of_token hp hh)))
  | ended s =>
    cases hfb : fetch b <;> rw [hfa, hfb] at hfind <;> cases hfind
    rename_i hsim
    rw [engineTurn_ended hfa, engineTurn_ended hfb]
    exact Both.next hsim
  | idle =>
    cases hfb : fetch b <;> rw [hfa, hfb] at hfind <;> cases hfind
    rw [engineTurn_idle hfa, engineTurn_idle hfb]
    exact Both.next h

theorem sim_run : ∀ (k : Nat) {a b ta tb : State}, Sim a b → Inv a → Host.Core.run Sys2Proof.core k a = .next ta →
    Host.Core.run Sys2Proof.core k b = .next tb → Sim ta tb
  | 0, a, b, ta, tb, h, _, ha, hb => by
    obtain rfl := Host.Outcome.next.inj ha
    obtain rfl := Host.Outcome.next.inj hb
    exact h
  | k + 1, a, b, ta, tb, h, hI, ha, hb => by
    obtain ⟨a', b', hta, htb, hsim⟩ := sim_engineTurn h hI
    have hsa : step a = .next a' := (step_alone h.pub.schedA).trans hta
    have hsb : step b = .next b' := (step_alone h.pub.schedB).trans htb
    rw [run_succ hsa] at ha
    rw [run_succ hsb] at hb
    exact sim_run k hsim (stepKeepsInv a a' hI hsa) ha hb

/-- START leaves nothing of an earlier run that HEADER or a later phase can read. -/
theorem sim_startRun {a b : State} (irqEn : Bool) (hsa : Alone a) (hsb : Alone b) (hcfg : a.cfg = b.cfg)
    (hlen : a.inLen = b.inLen) (hcap : a.outCap = b.outCap)
    (hin : AgreeBelow .input a.inLen.toNat a.inMem b.inMem) :
    Sim (startRun { a with irqEn := irqEn }) (startRun { b with irqEn := irqEn }) := by
  show Agree _ _
  exact
    { cfg := hcfg, irqEn := rfl, busy := rfl, done := rfl, err := rfl, errKind := rfl, errCause := rfl, inLen := hlen
      outCap := hcap, outLen := rfl, streamCrc := rfl, errBitpos := rfl, blockCount := rfl, blockCrcCalc := rfl
      blockCrcStored := rfl, blockMax := rfl, phase := rfl, pos := rfl, blkMax := rfl, schedA := hsa, schedB := hsb
      inp := hin, out := fun _ h => absurd h (Nat.not_lt_zero _) }

/-- Agreeing states show the host the same registers. -/
theorem Agree.regRead {a b : State} (h : Agree a b) (off : Nat) : regRead off a = regRead off b := by
  have hctrl : ctrlWord a = ctrlWord b := by rw [ctrlWord, ctrlWord, h.irqEn]
  have hstatus : statusWord a = statusWord b := by
    rw [statusWord, statusWord, h.busy, h.done, h.err, h.errKind, h.errCause]
  rw [Machine.regRead, Machine.regRead, hctrl, hstatus, h.inLen, h.outCap, h.outLen, h.streamCrc, h.errBitpos,
    h.blockCount, h.blockCrcCalc, h.blockCrcStored, h.blockMax]

theorem Agree.irq {a b : State} (h : Agree a b) : irq a = irq b := by
  rw [Machine.irq, Machine.irq, h.done, h.irqEn]

/-! ### The statement -/

/-- Settles O60: START puts the two in agreement, and every engine step keeps it. -/
theorem runsDependOnlyOnTheirInputs : Obligations.RunsDependOnlyOnTheirInputs := by
  intro a b a' b' v hIa _ hsa hsb hba hbb hv hcfg hlen hcap hin ha hb k ta tb hta htb
  have hIa' := inv_command hIa (show HostCommand (.start v) from rfl) ha
  rw [exec_start, ctrlWrite_starts hv hba] at ha
  rw [exec_start, ctrlWrite_starts hv hbb] at hb
  obtain rfl := Host.Outcome.next.inj ha
  obtain rfl := Host.Outcome.next.inj hb
  have hagree := (sim_run k (sim_startRun _ hsa hsb hcfg hlen hcap hin) hIa' hta htb).pub
  exact ⟨hagree.regRead, hagree.irq, hagree.out⟩

end Sys2Proof.Machine

/-! ## Tables, symbols and checksums: BUILD, the SYMBOL step, run digits, FlushRun, the CRC (43 R169, 44 R180..R184, 47) -/

namespace Sys2Proof.Machine

open Sys2Proof.Claims

/-! ### The canonical table -/

theorem minlen_buildTable_mem {lens : List Nat} (h : lens ≠ []) : (buildTable lens).minlen ∈ lens := by
  rcases foldr_min_mem (d := lens.foldr max 0) lens with hmin | hmin
  · have hmax := foldr_max_mem h
    rwa [← hmin] at hmax
  · exact hmin

theorem Before.asymm {lens : List Nat} {a b : Nat} (h : Before lens a b) : ¬ Before lens b a := by
  intro h'
  rcases h with h | h <;> rcases h' with h' | h' <;> omega

/-- The test of the statement's sum: `r` comes before `s`. -/
def earlier (lens : List Nat) (s r : Nat) : Bool :=
  decide (lens.getD r 0 < lens.getD s 0 ∨ (lens.getD r 0 = lens.getD s 0 ∧ r < s))

theorem earlier_iff {lens : List Nat} {s r : Nat} : earlier lens s r = true ↔ Before lens r s := decide_eq_true_iff

/-- What stands before a symbol in `perm` are the earlier symbols, in another order. -/
theorem perm_filter_earlier {lens : List Nat} {s : Nat} {pre post : List Nat}
    (h : sortedSymbols lens = pre ++ s :: post) : pre.Perm ((List.range lens.length).filter (earlier lens s)) := by
  have hpw := pairwise_sortedSymbols lens
  rw [h, List.pairwise_append, List.pairwise_cons] at hpw
  obtain ⟨-, ⟨hafter, -⟩, hbefore⟩ := hpw
  have hkept : pre.filter (earlier lens s) = pre :=
    List.filter_eq_self.2 fun r hr => earlier_iff.2 (hbefore r hr s List.mem_cons_self)
  have hdropped : (s :: post).filter (earlier lens s) = [] := by
    refine List.filter_eq_nil_iff.2 fun r hr => ?_
    rw [earlier_iff]
    rcases List.mem_cons.1 hr with rfl | hr
    · exact Before.irrefl
    · exact (hafter r hr).asymm
  have hfilter := (perm_sortedSymbols lens).filter (earlier lens s)
  rwa [h, List.filter_append, hkept, hdropped, List.append_nil] at hfilter

/-- A symbol's code, summed over the earlier symbols in symbol order and not in `perm`'s. -/
theorem code_buildTable {lens : List Nat} {s : Nat} (hs : s < lens.length) :
    (buildTable lens).code.getD s 0 =
      (((List.range lens.length).filter (earlier lens s)).map fun r => 2 ^ (lens.getD s 0 - lens.getD r 0)).sum := by
  obtain ⟨pre, post, hperm⟩ := List.append_of_mem (mem_sortedSymbols.2 hs)
  rw [code_eq hperm]
  exact ((perm_filter_earlier hperm).map _).sum_eq

/-- Settles O22: `perm` is the stable sort by length, and each code is the sum over what stands before it. -/
theorem canonicalTable : Obligations.CanonicalTable := by
  intro lens hne
  exact ⟨rfl, perm_sortedSymbols lens, pairwise_sortedSymbols lens, fun _ => mem_present_buildTable,
    pairwise_present_buildTable lens, minlen_buildTable_mem hne, foldr_max_mem hne,
    fun n hn => ⟨minlen_le n hn, le_foldr_max lens n hn⟩, fun _ => code_buildTable,
    fun _ ha _ hb => code_injective ha hb⟩

/-! ### BUILD -/

theorem exec_build (s : State) :
    exec .build s = .next { s with
      tbl := putAll s.tbl s.lenG [buildTable (firstN (s.lens.getD s.lenG []) s.alpha 0)] default
      lenG := s.lenG + 1
      gpos := if s.lenG + 1 < s.nGroups then s.gpos else 0
      gno := if s.lenG + 1 < s.nGroups then s.gno else 0
      phase := if s.lenG + 1 < s.nGroups then .lenStart else .symbol } := by
  by_cases hmore : s.lenG + 1 < s.nGroups
  · simp only [if_pos hmore]
    exact if_pos hmore
  · simp only [if_neg hmore]
    exact if_neg hmore

/-- An internal phase runs its operation without a bit. -/
theorem step_internal {s : State} {i : Instr} (ha : Alone s) (hp : Internal s.phase)
    (hd : decode (context s) (window s) = .token i 0) : step s = exec i s := by
  refine step_of_decode_token ha (fetch_plain ?_ ?_ ?_) hd <;> intro h <;> rw [h] at hp <;> exact hp

/-- Settles O21: the row of `alpha` entries BUILD reads is `firstN`, and the internal phase reads no bit. -/
theorem buildOperation : Obligations.BuildOperation := by
  refine ⟨fun s => ⟨firstN (s.lens.getD s.lenG []) s.alpha 0, _, length_firstN _ _ _, fun k hk => ?_,
    getD_put s.tbl s.lenG _ default, exec_build s⟩, fun s hp ha => ?_⟩
  · rw [getD_firstN, if_pos hk]
  · exact step_internal ha (by rw [hp]; trivial) (by rw [decode, show (context s).phase = .build from hp])

/-! ### The SYMBOL step -/

section
variable {s : State} (hp : s.phase = .symbol) (ha : Alone s) (hready : SelectorReady s)
include hp ha hready

theorem step_symbol_token {i : Instr} {n : Nat}
    (hd : decode (context (switched s)) (window (switched s)) = .token i n) : step s = exec i s := by
  rw [step_alone ha, engineTurn_token ((fetch_symbol hp (groupSwitch_ready hready)).trans (decodeAt_token hd))]

theorem step_symbol_truncated {n : Nat}
    (hd : decode (context (switched s)) (window (switched s)) = .truncated n) :
    step s = .next (fail .trunc (advance n (switched s))) := by
  rw [step_alone ha, engineTurn_ended ((fetch_symbol hp (groupSwitch_ready hready)).trans (decodeAt_truncated hd))]

theorem step_symbol_illegal {c : Cause} {n : Nat}
    (hd : decode (context (switched s)) (window (switched s)) = .illegal c n) :
    step s = .next (fail c (advance n (switched s))) := by
  rw [step_alone ha, engineTurn_ended ((fetch_symbol hp (groupSwitch_ready hready)).trans (decodeAt_illegal hd))]

end

/-- The switched state's cursor is the state's own, so a failure's position counts from there. -/
theorem advance_switched {s : State} (hready : SelectorReady s) (n : Nat) :
    advance n (switched s) = { switched s with pos := s.pos + BitVec.ofNat 32 n } := by
  rw [advance, switched_pos hready]

/-! ### Run digits -/

theorem runDigit_of_rep_zero {s : State} (h : s.rep = 0) (weight : Nat) :
    runDigit weight s = { s with rep := weight, reppow := 2 } := by
  simp [runDigit, h]

theorem runDigit_of_rep_pos {s : State} (h : s.rep ≠ 0) (weight : Nat) :
    runDigit weight s = { s with rep := s.rep + weight * s.reppow, reppow := 2 * s.reppow } := by
  simp [runDigit, h]

/-- Once a run has a digit, the digits after it weigh `reppow` and its doublings. -/
theorem foldl_digitStep : ∀ (ds : List Bool) {s : State}, s.rep ≠ 0 →
    ds.foldl digitStep s =
      { s with rep := s.rep + digitsValue ds * s.reppow, reppow := 2 ^ ds.length * s.reppow }
  | [], s, _ => by simp [digitsValue]
  | d :: ds, s, h => by
    have hrep : s.rep + (if d then 2 else 1) * s.reppow ≠ 0 := by omega
    rw [List.foldl_cons, digitStep, runDigit_of_rep_pos h, foldl_digitStep ds hrep]
    congr 1
    · simp only [digitsValue]; ring
    · simp only [List.length_cons, pow_succ]; ring

theorem digitsValue_pos {ds : List Bool} (h : ds ≠ []) : 1 ≤ digitsValue ds := by
  obtain ⟨d, ds, rfl⟩ := List.exists_cons_of_ne_nil h
  have hd : 1 ≤ if d then 2 else 1 := by cases d <;> decide
  exact hd.trans (Nat.le_add_right _ _)

/-- The lowest digit is the value's parity, and the rest is determined with it. -/
theorem digitsValue_injective : ∀ {ds es : List Bool}, digitsValue ds = digitsValue es → ds = es
  | [], [], _ => rfl
  | [], e :: es, h => absurd h (by have := digitsValue_pos (List.cons_ne_nil e es); simp only [digitsValue] at *; omega)
  | d :: ds, [], h => absurd h (by have := digitsValue_pos (List.cons_ne_nil d ds); simp only [digitsValue] at *; omega)
  | d :: ds, e :: es, h => by
    have hsplit : d = e ∧ digitsValue ds = digitsValue es := by
      cases d <;> cases e <;> simp [digitsValue] at h ⊢ <;> omega
    rw [hsplit.1, digitsValue_injective hsplit.2]

/-- Every number has a digit string: 1 for an odd one and 2 for an even one, then the digits of what is left halved. -/
theorem exists_digits (n : Nat) : ∃ ds, digitsValue ds = n := by
  induction n using Nat.strongRecOn with
  | ind n ih =>
    rcases Nat.eq_zero_or_pos n with rfl | hn
    · exact ⟨[], rfl⟩
    · obtain ⟨ds, hds⟩ := ih ((n - 1) / 2) (by omega)
      refine ⟨decide (n % 2 = 0) :: ds, ?_⟩
      rw [digitsValue, hds]
      by_cases hpar : n % 2 = 0 <;> simp [hpar] <;> omega

/-- Settles O25: the first digit starts the accumulators, and bijective base 2 has one string a value. -/
theorem runDigitsAccumulate : Obligations.RunDigitsAccumulate := by
  refine ⟨fun ds s hrep hne => ?_, fun _ _ => digitsValue_injective, fun n _ => exists_digits n⟩
  obtain ⟨d, ds, rfl⟩ := List.exists_cons_of_ne_nil hne
  rw [List.foldl_cons, digitStep, runDigit_of_rep_zero hrep,
    foldl_digitStep ds (by cases d <;> simp)]
  congr 1
  simp only [digitsValue]
  ring

/-! ### FlushRun -/

/-- What `tt` reads as once a whole run of `v` is stored at `i`. -/
theorem getD_putAll_replicate (l : List Byte) (i n : Nat) (v : Byte) (k : Nat) :
    (putAll l i (List.replicate n v) 0).getD k 0 = if i ≤ k ∧ k < i + n then v else l.getD k 0 := by
  rw [getD_putAll, List.length_replicate]
  split_ifs with h
  · rw [List.getD_eq_getElem _ _ (by simp; omega), List.getElem_replicate]
  · rfl

/-! ### The CRC -/

/-- The register's low 24 bits and its top byte, the new byte added to the top. -/
theorem xor_byte_eq (c : U32) (b : Byte) :
    c ^^^ (b.setWidth 32 <<< 24) = (c <<< 8 >>> 8) ^^^ (((c >>> 24).setWidth 8 ^^^ b).setWidth 32 <<< 24) := by
  refine BitVec.eq_of_getLsbD_eq fun i hi => ?_
  by_cases hlow : i < 24
  · simp [hlow, show 8 + i < 32 by omega, BitVec.getLsbD_eq_getElem hi]
  · have htop : 24 + (i - 24) = i := by omega
    simp [hlow, show ¬ 8 + i < 32 by omega, htop, hi, show i - 24 < 8 by omega, show i - 24 < 32 by omega]

/-- Eight shifts only move the low 24 bits up. -/
theorem crcShifts_low (c : U32) : crcShifts 8 (c <<< 8 >>> 8) = c <<< 8 := by
  rw [crcShifts_clear 8 _ (fun i hi => by simp [show ¬ 8 + i < 32 by omega]) (by decide)]
  refine BitVec.eq_of_getLsbD_eq fun i hi => ?_
  by_cases h8 : i < 8
  · simp [h8]
  · simp [h8, show 8 + (i - 8) = i by omega, hi]

/-- A byte step is linear: the low 24 bits only move up, and the top byte's part is the table's entry. -/
theorem crcStep_eq_table (c : U32) (b : Byte) :
    crcStep c b = (c <<< 8) ^^^ crcTable ((c >>> 24).setWidth 8 ^^^ b) := by
  rw [crcStep, xor_byte_eq, crcShifts_xor, crcShifts_low, crcTable, crcStep, BitVec.ofNat_eq_ofNat, BitVec.zero_xor]

/-- Settles O34: the table holds the bitwise step of each top byte. -/
theorem crcTableStep : Obligations.CrcTableStep := crcStep_eq_table

end Sys2Proof.Machine

/-! ### The statements whose names the model's operations have -/

namespace Sys2Proof.Machine.Symbols

open Sys2Proof.Claims

/-- Settles O23: the selectors are checked first; the switched state is what the match sees and what its failure leaves. -/
theorem symbolStep : Obligations.SymbolStep := by
  intro s hp ha
  refine ⟨fun h0 hn => ?_, fun hready n => ⟨fun i => step_symbol_token hp ha hready, fun hd => ?_, fun c hd => ?_⟩⟩
  · rw [step_alone ha, engineTurn_ended (fetch_symbol_exhausted hp (groupSwitch_none h0 hn))]
  · rw [step_symbol_truncated hp ha hready hd, advance_switched hready]
  · rw [step_symbol_illegal hp ha hready hd, advance_switched hready]

/-- Settles O26: no run, a run that fits, a run that does not. -/
theorem flushRun : Obligations.FlushRun := fun s =>
  ⟨flushRun_zero, fun hrep hfits => ⟨_, getD_putAll_replicate s.tt s.size s.rep _, flushRun_fits hrep hfits⟩,
    flushRun_full⟩

end Sys2Proof.Machine.Symbols

/-! ## Steps, stream tokens, host moves and ends of a run (41 R124..R126, 47 R222..R224, 48 R231..R237, 60 R250..R254) -/

namespace Sys2Proof.Machine

open Sys2Proof.Claims

/-! ### The step -/

/-- In IDLE the decoder finds no token, so there is no engine step (log 5). -/
theorem fetch_idle {s : State} (hp : s.phase = .idle) : fetch s = .idle := by
  have hbounds := fetch_bounds s
  cases hf : fetch s with
  | token i => exact absurd hp (phase_ne_idle_of_token (fetch_token_kind hf).1 (fetch_token_kind hf).2)
  | ended t =>
    rw [hf] at hbounds
    cases hbounds with
    | ended c u n hu hl hphase => exact absurd hp hphase
  | idle => rfl

theorem step_regWrite_command {s : State} {addr off : Nat} {v : U32} {i : Instr} (rest : List Turn)
    (hoff : regOffset s.cfg addr = some off) (hi : decodeHost off v = some i) :
    step { s with schedule := .host (.regWrite addr v) :: rest } = exec i { s with schedule := rest } := by
  rw [step_host, hostTurn]
  simp only [hoff, hi]

theorem step_regWrite_ignored {s : State} {addr off : Nat} {v : U32} (rest : List Turn)
    (hoff : regOffset s.cfg addr = some off) (hi : decodeHost off v = none) :
    step { s with schedule := .host (.regWrite addr v) :: rest } = .next { s with schedule := rest } := by
  rw [step_host, hostTurn]
  simp only [hoff, hi]

theorem step_regWrite_refused {s : State} {addr : Nat} (v : U32) (rest : List Turn)
    (hoff : regOffset s.cfg addr = none) :
    step { s with schedule := .host (.regWrite addr v) :: rest } = .refused .registerAccess := by
  rw [step_host, hostTurn]
  simp only [hoff]

/-- Settles O6: one fetch equation a phase, one turn of each kind. -/
theorem stepRunsDecodedInstruction : Obligations.StepRunsDecodedInstruction := by
  intro s i n rest
  refine ⟨fun h1 h2 h3 hd ha => ?_, fun hp hl hd ha => ?_, fun hp hl hd ha => ?_, fun hp hready hd ha => ?_,
    fun ha => ⟨rfl, step_alone ha⟩, fun addr off v => step_regWrite_command rest, fun hp ha => ?_⟩
  · exact step_of_decode_token ha (fetch_plain h1 h2 h3) hd
  · exact step_of_decode_token ha (fetch_header hp hl) hd
  · exact step_of_decode_token ha (fetch_lenDelta hp hl) hd
  · exact step_symbol_token hp ha hready hd
  · rw [step_alone ha, engineTurn_idle (fetch_idle hp)]

/-! ### Stream tokens -/

/-- In MAGIC the decoder is given the 48 bits ReadBits reads. -/
theorem decode_magic {s t : State} {m : Nat} (hp : s.phase = .magic) (hr : readBits 48 s = some (m, t)) :
    decode (context s) (window s) = decodeMagic m := by
  rw [decode, show (context s).phase = .magic from hp]
  exact decodeField_window_some le_rfl hr _

theorem decode_magic_short {s : State} (hp : s.phase = .magic) (hr : readBits 48 s = none) :
    decode (context s) (window s) = .truncated 0 := by
  rw [decode, show (context s).phase = .magic from hp]
  exact decodeField_window_none hr (by decide) _

theorem fetch_magic {s : State} (hp : s.phase = .magic) : fetch s = decodeAt s :=
  fetch_plain (by simp [hp]) (by simp [hp]) (by simp [hp])

/-- Settles O8: BLOCK and EOS have one unconditional effect each, and the magic chooses by all 48 bits. -/
theorem magicTokens : Obligations.MagicTokens := by
  refine ⟨fun _ => rfl, fun _ => rfl, fun s hp ha => ⟨fun hr => ?_, fun m t hr => ?_⟩⟩
  · rw [step_of_decode_truncated ha (fetch_magic hp) (decode_magic_short hp hr), advance_zero]
  · have hd := decode_magic hp hr
    obtain ⟨-, -, rfl⟩ := readBits_some hr
    unfold decodeMagic at hd
    split_ifs at hd ⊢ with hblock heos
    · exact step_of_decode_token ha (fetch_magic hp) hd
    · exact step_of_decode_token ha (fetch_magic hp) hd
    · exact step_of_decode_illegal ha (fetch_magic hp) hd

/-- Settles O9: the comparison has two outcomes, and the phase reads one 32-bit field. -/
theorem streamChecksumToken : Obligations.StreamChecksumToken :=
  ⟨fun _ _ h => if_pos h, fun _ _ h => if_neg h, stepReads_of_decodeField (by decide) (by decide) fun _ _ => rfl⟩

/-! ### The CRC and CHECK -/

/-- Settles O33: each value is computed, shift by shift. -/
theorem crcCheckValues : Obligations.CrcCheckValues := by
  simp [Obligations.CrcCheckValues, crc32, crcTable, crcStep, crcShifts, crcShift]

theorem exec_check_fails {s : State} (h : s.bcrc ≠ s.storedCrc) :
    exec .check s = .next (fail .blockCrc { s with blockCrcCalc := s.bcrc }) := if_neg h

/-- Settles O35: equal checksums commit, unequal ones fail; the phase reads no bit. -/
theorem checkOperation : Obligations.CheckOperation := by
  refine ⟨fun s h => ⟨_, exec_check_commits h⟩, fun _ => exec_check_fails, fun s hp ha => ?_⟩
  exact step_internal ha (by rw [hp]; trivial) (by rw [decode, show (context s).phase = .check from hp])

/-! ### Host moves -/

/-- Settles O36: both names of a CTRL write are `ctrlWrite`. -/
theorem controlWrite : Obligations.ControlWrite := by
  intro v s i hi
  have hexec : exec i s = .next (ctrlWrite v s) := by
    rcases hi with rfl | rfl
    · exact exec_start v s
    · exact exec_irqEnSet v s
  rw [hexec]
  refine ⟨fun hv hb => ?_, fun h => ?_⟩
  · rw [ctrlWrite_starts hv hb]; rfl
  · rw [ctrlWrite_no_start (by rintro ⟨hv, hb⟩; rw [hv, hb] at h; simp at h)]

/-- Past the four writable registers a write is no command. -/
theorem decodeHost_of_ge {off : Nat} (h : 0x10 ≤ off) (v : U32) : decodeHost off v = none := by
  rw [decodeHost, if_neg (by omega), if_neg (by omega), if_neg (by omega), if_neg (by omega)]

theorem regOffset_outside {cfg : Params} {addr : Nat}
    (h : addr < cfg.regBase ∨ cfg.regBase + 0x100 ≤ addr ∨ (addr - cfg.regBase) % 4 ≠ 0) :
    regOffset cfg addr = none := if_neg (by omega)

/-- Settles O40: an aligned offset in the window decodes to itself, and `decodeHost` names the command. -/
theorem registerWrite : Obligations.RegisterWrite := by
  intro s v rest
  have hoff : ∀ off, off % 4 = 0 → off < 256 → regOffset s.cfg (s.cfg.regBase + off) = some off := fun _ =>
    regOffset_base_add s.cfg
  refine ⟨step_regWrite_command rest (hoff 0x00 (by decide) (by decide)) rfl, ?status,
    step_regWrite_command rest (hoff 0x08 (by decide) (by decide)) rfl,
    step_regWrite_command rest (hoff 0x0C (by decide) (by decide)) rfl,
    fun off h hlt hal => step_regWrite_ignored rest (hoff off hal hlt) (decodeHost_of_ge h v),
    fun addr h => step_regWrite_refused v rest (regOffset_outside h)⟩
  case status =>
    have h4 := hoff 0x04 (by decide) (by decide)
    show step _ = _
    split_ifs with hv
    · exact step_regWrite_command rest h4 (if_pos hv)
    · exact step_regWrite_ignored rest h4 (if_neg hv)

theorem hostInWrite_idle {s : State} {a : Nat} (b : Byte) (ha : a < s.cfg.inMemBytes) (hb : s.busy = false) :
    hostInWrite a b s = .next { s with inMem := Memory.write s.inMem a b } := by
  rw [hostInWrite, if_neg (Nat.not_le.2 ha), if_neg (Bool.eq_false_iff.1 hb)]

theorem hostInWrite_busy {s : State} {a : Nat} (b : Byte) (ha : a < s.cfg.inMemBytes) (hb : s.busy = true) :
    hostInWrite a b s = .refused .hostWriteWhileBusy := by
  rw [hostInWrite, if_neg (Nat.not_le.2 ha), if_pos hb]

theorem hostInWrite_beyond {s : State} {a : Nat} (b : Byte) (ha : s.cfg.inMemBytes ≤ a) :
    hostInWrite a b s = .fault .noSuchByte := if_pos ha

theorem hostOutWrite_idle {s : State} {a : Nat} (b : Byte) (ha : a < s.cfg.outMemBytes.toNat) (hb : s.busy = false) :
    hostOutWrite a b s =
      .next { s with outMem := Memory.write s.outMem a b, outFree := spanErase a (a + 1) s.outFree } := by
  rw [hostOutWrite, if_neg (Nat.not_le.2 ha), if_neg (Bool.eq_false_iff.1 hb)]

theorem hostOutWrite_busy {s : State} {a : Nat} (b : Byte) (ha : a < s.cfg.outMemBytes.toNat) (hb : s.busy = true) :
    hostOutWrite a b s = .refused .hostWriteWhileBusy := by
  rw [hostOutWrite, if_neg (Nat.not_le.2 ha), if_pos hb]

theorem hostOutWrite_beyond {s : State} {a : Nat} (b : Byte) (ha : s.cfg.outMemBytes.toNat ≤ a) :
    hostOutWrite a b s = .fault .noSuchByte := if_pos ha

/-- One byte specified: every other keeps what left it UNSPECIFIED. -/
theorem leftBy_spanErase_one (x a : Nat) (spans : List FreeSpan) :
    leftBy x (spanErase a (a + 1) spans) = if x = a then none else leftBy x spans := by
  rw [leftBy_spanErase]
  exact if_congr (by omega) rfl rfl

/-- Settles O41: the three outcomes of a write to each memory. -/
theorem hostMemoryWrites : Obligations.HostMemoryWrites := by
  intro s a b rest
  refine ⟨fun ha hb => ⟨_, hostInWrite_idle (s := { s with schedule := rest }) b ha hb, Memory.read_write s.inMem a b⟩,
    fun ha hb => ⟨_, _, hostOutWrite_idle (s := { s with schedule := rest }) b ha hb, Memory.read_write s.outMem a b,
      fun x => leftBy_spanErase_one x a s.outFree⟩, ?_, ?_, ?_, ?_⟩
  · exact hostInWrite_busy (s := { s with schedule := rest }) b
  · exact hostOutWrite_busy (s := { s with schedule := rest }) b
  · exact hostInWrite_beyond (s := { s with schedule := rest }) b
  · exact hostOutWrite_beyond (s := { s with schedule := rest }) b

/-! ### Host reads of OUT_MEM -/

theorem outByte_inRun {s : State} {a : Nat} (h : s.busy = true ∧ s.outLen.toNat ≤ a ∧ a < s.outCap.toNat) :
    outByte a s = Config.runByte s.runIndex s.pos s.phase a := if_pos h

theorem outByte_left {s : State} {a run : Nat} (h : ¬ (s.busy = true ∧ s.outLen.toNat ≤ a ∧ a < s.outCap.toNat))
    (hleft : leftBy a s.outFree = some run) : outByte a s = Config.leftByte run a := by
  rw [outByte, if_neg h, hleft]

theorem outByte_specified {s : State} {a : Nat} (h : ¬ (s.busy = true ∧ s.outLen.toNat ≤ a ∧ a < s.outCap.toNat))
    (hleft : leftBy a s.outFree = none) : outByte a s = Memory.read .output s.outMem a := by
  rw [outByte, if_neg h, hleft]

/-- A read's byte depends on neither the schedule nor the last read. -/
theorem step_outRead {s : State} {a : Nat} (rest : List Turn) (ha : a < s.cfg.outMemBytes.toNat) :
    step { s with schedule := .host (.outRead a) :: rest } =
      .next { s with schedule := rest, busData := (outByte a s).setWidth 32 } :=
  if_neg (Nat.not_le.2 ha)

/-- Settles O42: the byte is `outByte`, which the read itself does not change. -/
theorem hostOutputRead : Obligations.HostOutputRead := by
  intro s a rest ha
  exact ⟨outByte a s, _, rfl, step_outRead rest ha, step_outRead rest ha, outByte_inRun,
    fun h _ => outByte_left h, outByte_specified⟩

/-! ### The ends of a run -/

theorem failPosition_eq (c : Cause) (s : State) : failPosition c s = if c = .hdrShort then 0 else s.pos := by
  cases c <;> rfl

/-- Settles O43: the position is R254's, and each cause has its codes. -/
theorem failEndsTheRun : Obligations.FailEndsTheRun := by
  refine ⟨fun c s => ⟨(fail c s).outFree, ?_⟩, fun c => by cases c <;> rfl⟩
  rw [← failPosition_eq]
  rfl

theorem leftBy_resetInput (s : State) (a : Nat) :
    leftBy a (resetInput s).outFree =
      if s.busy = true ∧ a < s.outCap.toNat then some s.runIndex else leftBy a s.outFree := by
  show leftBy a (if s.busy then spanAdd 0 s.outCap.toNat s.runIndex s.outFree else s.outFree) = _
  cases hb : s.busy with
  | true =>
    rw [if_pos rfl, leftBy_spanAdd]
    exact if_congr (by simp) rfl rfl
  | false =>
    rw [if_neg Bool.false_ne_true, if_neg (by simp)]

/-- Settles O46: a failure and an aborting reset add a span, a commit erases one. -/
theorem unspecifiedOutputBytes : Obligations.UnspecifiedOutputBytes := by
  intro s t a
  refine ⟨fun c => leftBy_spanAdd a _ _ _ _, rfl, fun hcrc h => ?_, fun rest h => ?_⟩
  · rw [exec_check_commits hcrc] at h
    obtain rfl := Host.Outcome.next.inj h
    exact leftBy_spanErase a _ _ s.outFree
  · obtain rfl := Host.Outcome.next.inj h
    exact leftBy_resetInput { s with schedule := rest } a

end Sys2Proof.Machine
